-- ==== Sys2Proof/Word.lean ====
section
/-! DEFINITION. The three widths of the block's data: bytes of the wire formats, the 16-bit sender, and the 32-bit value
words (`VALW` = 32, 00_scope.md R7). All are unsigned (R9). -/

namespace Sys2Proof

/-- An 8-bit byte; bit 7 is the most significant (R8). -/
abbrev Byte := BitVec 8

/-- A 16-bit half word (`SENDER`, module address and key in a frame). -/
abbrev Half := BitVec 16

/-- A `VALW`-bit word (R7): a configuration value, a code point or a float bit pattern. -/
abbrev Word := BitVec 32

end Sys2Proof
end

