-- ==== Sys2Proof/Config.lean ====
section
/-! DEFINITION. The implementation parameters of 00_scope.md R7. They are fixed when the block is instantiated and are
not state (70_reset_and_hazards.md R290). `FB_MAX`, `CONTENT_MAX`, `TOPIC_COUNT` and `NATIVE_ORDER` are OPEN in the spec:
each is a constant WITHOUT a body, laid into the range the spec allows, so a claim about the machine holds for every
legal choice (notes/assumptions/3.md). `PORT_MAP` is not needed by a model that reaches state by name (R7, R70). -/

namespace Sys2Proof

/-- The two values of `NATIVE_ORDER` (R7, 20_memory.md R64). -/
inductive ByteOrder where
  | little
  | big
  deriving DecidableEq, Repr, Inhabited

/-- A capacity that may be unlimited: `CONTENT_MAX` "OPEN; a model may take it infinite" (R7). -/
structure Capacity where
  bound : Nat
  infinite : Bool
  deriving DecidableEq, Repr

/-- `n` elements fit. -/
def Capacity.fits (c : Capacity) (n : Nat) : Bool := decide (n ≤ c.bound) || c.infinite

/-- The parameters a model takes (R7). -/
structure Params where
  /-- `FB_MAX`, capacity of the frame buffer in bytes. -/
  fbMax : Nat
  /-- `CONTENT_MAX`, capacity of `BB` in bytes and of `WB` in words; `MB` holds three bytes more. -/
  content : Capacity
  /-- `TOPIC_COUNT`, the valid topic bytes being 1..`TOPIC_COUNT`. -/
  topicCount : Nat
  /-- `NATIVE_ORDER`, byte order of a float element. -/
  nativeOrder : ByteOrder
  deriving DecidableEq, Repr

/-- The constraints of R7's last column. -/
def Params.legal (p : Params) : Bool :=
  decide (13 ≤ p.fbMax) && p.content.fits 32 && decide (3 ≤ p.topicCount) && decide (p.topicCount ≤ 255)

/-- The values 95_test_vectors.md uses "unless a vector says otherwise". For tests only: the machine runs with
`Config.params`. -/
def Params.vectors : Params :=
  { fbMax := 16, content := ⟨64, false⟩, topicCount := 3, nativeOrder := .little }

/-- How far `FB_MAX` lies above its least value 13. OPEN (R7): no body. -/
opaque Config.fbMaxAbove : Nat

/-- How far a finite `CONTENT_MAX` lies above its least value 32. OPEN (R7): no body. -/
opaque Config.contentMaxAbove : Nat

/-- Whether `CONTENT_MAX` is infinite. OPEN (R7): no body. -/
opaque Config.contentInfinite : Bool

/-- A number that fixes `TOPIC_COUNT` within 3..255. OPEN (R7): no body. -/
opaque Config.topicCountDraw : Nat

/-- `NATIVE_ORDER`. OPEN (R7): no body. -/
opaque Config.nativeOrder : ByteOrder

/-- The parameters of this block instance: any legal ones. -/
def Config.params : Params :=
  { fbMax := Config.fbMaxAbove + 13
    content := ⟨Config.contentMaxAbove + 32, Config.contentInfinite⟩
    topicCount := Config.topicCountDraw % 253 + 3
    nativeOrder := Config.nativeOrder }

end Sys2Proof
end

