-- ==== Sys2Proof/Syntax.lean ====
section
/-! DEFINITION. The syntax: the field names of a RadioConfig, the fields of a command frame, the instructions (one
constructor for each row of spec/opcode_table.json) and the requests a host can make of the block. -/

namespace Sys2Proof

/-- The 16 fields of a RadioConfig, one for each configuration register `x[0..15]`, in index order (10_state.md R21). -/
inductive Field where
  | moduleAddress | netId | baudRate | parity | airSpeed | packetLen | enableAmbientNoise | transmitPower
  | channel | enableRssiByte | enablePointToPointMode | enableRelayFunction | enableLbt | worMode | worPeriod | key
  deriving DecidableEq, Repr

/-- The six fields that have a code table (41_field_enumerations.md R170). -/
inductive TableField where
  | baudRate | parity | airSpeed | packetLen | transmitPower | worPeriod
  deriving DecidableEq, Repr

/-- The fields of the 96-bit command frame, each at its width (30_encoding.md R96, R97; the letter is R97's). -/
structure FrameFields where
  /-- `a`, module_address. -/
  address : BitVec 16
  /-- `n`, net_id. -/
  netId : BitVec 8
  /-- `b`, baud-rate code. -/
  baud : BitVec 3
  /-- `p`, parity code. -/
  parity : BitVec 2
  /-- `s`, air-speed code. -/
  air : BitVec 3
  /-- `l`, packet-length code. -/
  packet : BitVec 2
  /-- `m`, ambient-noise flag. -/
  noise : BitVec 1
  /-- `t`, transmit-power code. -/
  power : BitVec 2
  /-- `c`, channel. -/
  channel : BitVec 8
  /-- `r`, RSSI-byte flag. -/
  rssi : BitVec 1
  /-- `x`, point-to-point flag. -/
  p2p : BitVec 1
  /-- `y`, relay-function flag. -/
  relay : BitVec 1
  /-- `q`, LBT flag. -/
  lbt : BitVec 1
  /-- `w`, WOR mode. -/
  worMode : BitVec 1
  /-- `d`, WOR-period code. -/
  wor : BitVec 3
  /-- `k`, key. -/
  key : BitVec 16
  deriving DecidableEq, Repr

/-- One constructor for each row of spec/opcode_table.json. The first 22 are the operations of 30_encoding.md R91, which
have no operand fields. The last four are the wire formats (R97, R104): a command frame with one of the three headers,
and a message envelope, as bytes that reach the block (notes/assumptions/7.md). -/
inductive Instr where
  | rencSet
  | rencAns
  | rdec
  | elutV2cBaudRate
  | elutV2cParity
  | elutV2cAirSpeed
  | elutV2cPacketLen
  | elutV2cTransmitPower
  | elutV2cWorPeriod
  | elutC2vBaudRate
  | elutC2vParity
  | elutC2vAirSpeed
  | elutC2vPacketLen
  | elutC2vTransmitPower
  | elutC2vWorPeriod
  | mencT
  | mencB
  | mencV
  | mdecT
  | mdecB
  | mdecV
  | mdecVn
  | cfSet (f : FrameFields)
  | cfAns (f : FrameFields)
  | cfPset (f : FrameFields)
  | me (topic : Byte) (sender : Half) (content : List Byte)
  deriving DecidableEq, Repr

/-- The names of the block's registers (10_state.md R20). -/
inductive RegName where
  | x (f : Field)
  | cmd | sreg | dlen | lv | lc | topic | sender | nexp
  | flen | mlen | blen | wlen
  | status | einfo
  deriving DecidableEq, Repr

/-- The names of the four buffers (20_memory.md R60). -/
inductive BufName where
  | fb | mb | bb | wb
  deriving DecidableEq, Repr

/-- A host write of one register, with a value of the register's width (30_encoding.md R120 `SET`). The length registers
take a count. The host may not write `STATUS` and `EINFO` (10_state.md R41), but it can ask. -/
inductive RegWrite where
  | x (f : Field) (w : Word)
  | cmd (b : Byte)
  | sreg (b : Byte)
  | dlen (b : Byte)
  | lv (w : Word)
  | lc (b : Byte)
  | topic (b : Byte)
  | sender (h : Half)
  | nexp (w : Word)
  | flen (n : Nat)
  | mlen (n : Nat)
  | blen (n : Nat)
  | wlen (n : Nat)
  | status (b : Byte)
  | einfo (b : Byte)
  deriving DecidableEq, Repr

/-- A host write of one buffer element (10_state.md R41; notes/assumptions/12.md). -/
inductive ElemWrite where
  | fb (offset : Nat) (b : Byte)
  | mb (offset : Nat) (b : Byte)
  | bb (offset : Nat) (b : Byte)
  | wb (index : Nat) (w : Word)
  deriving DecidableEq, Repr

/-- What the host can ask of the block between two operations: an operation by its 8-bit code (30_encoding.md R91), a host
action (R120), a write of a single element, or reset (70_reset_and_hazards.md R290). A run is a list of these (R304). -/
inductive Request where
  /-- An operation-select code at the command port. -/
  | op (code : Byte)
  /-- `SET name, literal`. -/
  | set (w : RegWrite)
  /-- A write of one element of a buffer. -/
  | poke (w : ElemWrite)
  /-- `FRAME b0 b1 ...`. -/
  | frame (bytes : List Byte)
  /-- `MSG b0 b1 ...`. -/
  | msg (bytes : List Byte)
  /-- `BLOB b0 b1 ...`. -/
  | blob (bytes : List Byte)
  /-- `TEXT "..."`, the string as its code points. -/
  | text (codePoints : List Word)
  /-- `VEC w0 w1 ...`. -/
  | vec (words : List Word)
  /-- `EXPECT cond`: "a check by the host that changes nothing". -/
  | expect
  /-- Reset, applied between operations. -/
  | reset
  deriving DecidableEq, Repr

end Sys2Proof
end

