-- ==== Sys2Proof/WellFormed.lean ====
section
/-! DEFINITION. Which instructions the encodings admit. An operation has no operands, so it is well formed. A command frame
carries a channel of 0..83 (30_encoding.md R96, R100); an envelope carries an enumerated topic (R104, R105). Parity code 3
is a legal, non-canonical code (R103). -/

namespace Sys2Proof

/-- `t` is an enumerated topic: 1..`TOPIC_COUNT` (30_encoding.md R105). -/
def topicOk (topicCount : Nat) (t : Byte) : Bool := decide (1 ≤ t.toNat) && decide (t.toNat ≤ topicCount)

/-- The channel of a frame is in its domain 0..83 (R100). -/
def FrameFields.wf (f : FrameFields) : Bool := decide (f.channel ≤ 83#8)

/-- The instruction is one that its format admits. -/
def Instr.wf (i : Instr) : Bool :=
  match i with
  | .rencSet => true
  | .rencAns => true
  | .rdec => true
  | .elutV2cBaudRate => true
  | .elutV2cParity => true
  | .elutV2cAirSpeed => true
  | .elutV2cPacketLen => true
  | .elutV2cTransmitPower => true
  | .elutV2cWorPeriod => true
  | .elutC2vBaudRate => true
  | .elutC2vParity => true
  | .elutC2vAirSpeed => true
  | .elutC2vPacketLen => true
  | .elutC2vTransmitPower => true
  | .elutC2vWorPeriod => true
  | .mencT => true
  | .mencB => true
  | .mencV => true
  | .mdecT => true
  | .mdecB => true
  | .mdecV => true
  | .mdecVn => true
  | .cfSet f => f.wf
  | .cfAns f => f.wf
  | .cfPset f => f.wf
  | .me topic _ _ => topicOk Config.params.topicCount topic

end Sys2Proof
end

