-- ==== Sys2Proof/Decode.lean ====
section
/-! DEFINITION. The decoder and, after it, the encoder, both written from the encoding tables of 30_encoding.md: the codes of
the `OP` format (R91), the layout of the `CF` format (R96, R97) and of the `ME` format (R104). `decode` is total on every
request and rejects by name. -/

namespace Sys2Proof

/-- Why a request's bytes are no instruction. -/
inductive DecodeError where
  /-- An `OP` code that R91 does not list (R92). -/
  | reservedCode
  /-- A frame that is not 12 bytes long (R93). -/
  | frameLength
  /-- A header that is not 0xC2, 0xC1 or 0xC0 (R94). -/
  | frameHeader
  /-- Bytes 1 and 2 other than 0x00, 0x09 (R95). -/
  | frameFixedBytes
  /-- Reserved bits 4..2 of reg7 not zero (R99). -/
  | frameReservedBits
  /-- A channel above 83 (R100). -/
  | frameChannel
  /-- A message shorter than three bytes (R104, R108). -/
  | messageLength
  /-- A topic byte that is not enumerated (R105, R108). -/
  | messageTopic
  /-- A host action that carries no word of a format of R90. -/
  | hostAction
  deriving DecidableEq, Repr

/-- The decoder's result: an instruction, or the name of the rejection. -/
abbrev DecodeResult := Except DecodeError Instr

/-- The `OP` format: 22 codes (R91), every other code reserved (R92). -/
def decodeOp (code : Byte) : DecodeResult :=
  match code.toNat with
  | 0x01 => .ok .rencSet
  | 0x02 => .ok .rencAns
  | 0x03 => .ok .rdec
  | 0x22 => .ok .elutV2cBaudRate
  | 0x23 => .ok .elutV2cParity
  | 0x24 => .ok .elutV2cAirSpeed
  | 0x25 => .ok .elutV2cPacketLen
  | 0x27 => .ok .elutV2cTransmitPower
  | 0x2E => .ok .elutV2cWorPeriod
  | 0x32 => .ok .elutC2vBaudRate
  | 0x33 => .ok .elutC2vParity
  | 0x34 => .ok .elutC2vAirSpeed
  | 0x35 => .ok .elutC2vPacketLen
  | 0x37 => .ok .elutC2vTransmitPower
  | 0x3E => .ok .elutC2vWorPeriod
  | 0x40 => .ok .mencT
  | 0x41 => .ok .mencB
  | 0x42 => .ok .mencV
  | 0x48 => .ok .mdecT
  | 0x49 => .ok .mdecB
  | 0x4A => .ok .mdecV
  | 0x4B => .ok .mdecVn
  | _ => .error .reservedCode

/-- The reserved bits 4..2 of reg7 (R99). -/
def reg7Reserved (r7 : Byte) : BitVec 3 := r7.extractLsb' 2 3

/-- The fields of the nine register bytes, at the bit positions of R96 and assembled as R102 says. -/
def unpackFields (addrHi addrLo net r6 r7 ch r9 keyHi keyLo : Byte) : FrameFields :=
  { address := addrHi ++ addrLo
    netId := net
    baud := r6.extractLsb' 5 3
    parity := r6.extractLsb' 3 2
    air := r6.extractLsb' 0 3
    packet := r7.extractLsb' 6 2
    noise := r7.extractLsb' 5 1
    power := r7.extractLsb' 0 2
    channel := ch
    rssi := r9.extractLsb' 7 1
    p2p := r9.extractLsb' 6 1
    relay := r9.extractLsb' 5 1
    lbt := r9.extractLsb' 4 1
    worMode := r9.extractLsb' 3 1
    wor := r9.extractLsb' 0 3
    key := keyHi ++ keyLo }

/-- The constructor that a header stands for (R94). -/
def frameInstr (header : Byte) (f : FrameFields) : Option Instr :=
  if header = 0xC2#8 then some (.cfSet f)
  else if header = 0xC1#8 then some (.cfAns f)
  else if header = 0xC0#8 then some (.cfPset f)
  else none

/-- The `CF` format: the 12-byte pattern of R97, with the channel in its domain. -/
def decodeFrameBytes (bytes : List Byte) : DecodeResult :=
  match bytes with
  | [h, sr, rc, ah, al, n, r6, r7, c, r9, kh, kl] =>
    match frameInstr h (unpackFields ah al n r6 r7 c r9 kh kl) with
    | none => .error .frameHeader
    | some i =>
      if sr ≠ 0x00#8 ∨ rc ≠ 0x09#8 then .error .frameFixedBytes
      else if reg7Reserved r7 ≠ 0#3 then .error .frameReservedBits
      else if 83#8 < c then .error .frameChannel
      else .ok i
  | _ => .error .frameLength

/-- The `ME` format (R104): topic, sender low byte, sender high byte, content to the end. -/
def decodeMessageBytes (topicCount : Nat) (bytes : List Byte) : DecodeResult :=
  match bytes with
  | t :: lo :: hi :: content =>
    if topicOk topicCount t then .ok (.me t (hi ++ lo) content) else .error .messageTopic
  | _ => .error .messageLength

/-- The instruction a request's bytes stand for, by the format they arrive in (R90). A host action that carries no word of
a format is none. -/
def decode (r : Request) : DecodeResult :=
  match r with
  | .op code => decodeOp code
  | .frame bytes => decodeFrameBytes bytes
  | .msg bytes => decodeMessageBytes Config.params.topicCount bytes
  | .set _ => .error .hostAction
  | .poke _ => .error .hostAction
  | .blob _ => .error .hostAction
  | .text _ => .error .hostAction
  | .vec _ => .error .hostAction
  | .expect => .error .hostAction
  | .reset => .error .hostAction

/-- A header byte and the fields as the 12 bytes of R97. -/
def packFields (header : Byte) (f : FrameFields) : List Byte :=
  [header, 0x00#8, 0x09#8,
   f.address.extractLsb' 8 8, f.address.extractLsb' 0 8, f.netId,
   (f.baud ++ f.parity ++ f.air : BitVec 8),
   (f.packet ++ f.noise ++ 0#3 ++ f.power : BitVec 8),
   f.channel,
   (f.rssi ++ f.p2p ++ f.relay ++ f.lbt ++ f.worMode ++ f.wor : BitVec 8),
   f.key.extractLsb' 8 8, f.key.extractLsb' 0 8]

/-- An envelope's bytes (R104): topic, sender little-endian, content. -/
def packMessage (topic : Byte) (sender : Half) (content : List Byte) : List Byte :=
  topic :: sender.extractLsb' 0 8 :: sender.extractLsb' 8 8 :: content

/-- The request that presents the instruction's word: its `OP` code (R91), or its wire bytes (R97, R104). -/
def encode (i : Instr) : Request :=
  match i with
  | .rencSet => .op 0x01#8
  | .rencAns => .op 0x02#8
  | .rdec => .op 0x03#8
  | .elutV2cBaudRate => .op 0x22#8
  | .elutV2cParity => .op 0x23#8
  | .elutV2cAirSpeed => .op 0x24#8
  | .elutV2cPacketLen => .op 0x25#8
  | .elutV2cTransmitPower => .op 0x27#8
  | .elutV2cWorPeriod => .op 0x2E#8
  | .elutC2vBaudRate => .op 0x32#8
  | .elutC2vParity => .op 0x33#8
  | .elutC2vAirSpeed => .op 0x34#8
  | .elutC2vPacketLen => .op 0x35#8
  | .elutC2vTransmitPower => .op 0x37#8
  | .elutC2vWorPeriod => .op 0x3E#8
  | .mencT => .op 0x40#8
  | .mencB => .op 0x41#8
  | .mencV => .op 0x42#8
  | .mdecT => .op 0x48#8
  | .mdecB => .op 0x49#8
  | .mdecV => .op 0x4A#8
  | .mdecVn => .op 0x4B#8
  | .cfSet f => .frame (packFields 0xC2#8 f)
  | .cfAns f => .frame (packFields 0xC1#8 f)
  | .cfPset f => .frame (packFields 0xC0#8 f)
  | .me topic sender content => .msg (packMessage topic sender content)

/-- The `n` bytes of a number, the least significant first. -/
def bytesLow (w : Nat) : Nat → List Byte
  | 0 => []
  | n + 1 => BitVec.ofNat 8 w :: bytesLow (w / 256) n

/-- A word of spec/opcode_table.json as the request that presents it. A row of 8 bits is an `OP` code. A row of 96 bits is a
command frame, which the table numbers as ONE 96-bit word with byte 0 the most significant. Any other length is a message,
a string of bytes with the first byte in bits 7..0 (notes/assumptions/8.md). -/
def tableRequest (nbits w : Nat) : Request :=
  if nbits = 8 then .op (BitVec.ofNat 8 w)
  else if nbits = 96 then .frame (bytesLow w 12).reverse
  else .msg (bytesLow w (nbits / 8))

/-- The instruction the decoder reads from a word of the opcode table. -/
def decodeTableWord (nbits w : Nat) : Option Instr :=
  match decode (tableRequest nbits w) with
  | .ok i => some i
  | .error _ => none

end Sys2Proof
end

