-- ==== Sys2Proof/Machine/State.lean ====
section
/-! DEFINITION. The state of one block instance (10_state.md R20), the reasons a request is refused (60_exceptions.md R272),
and the state after reset (R42). State is plain data. -/

namespace Sys2Proof.Machine

/-- A register of `w` bits, and whether it is *written* (10_state.md R25). While `written` is false the value is
unspecified and nothing reads it; the register still holds one (notes/assumptions/1.md). -/
structure Reg (w : Nat) where
  value : BitVec w
  written : Bool
  deriving DecidableEq, Repr

/-- A register after reset: unwritten (R42). The 0 is a DESIGN CHOICE no operation reads (notes/assumptions/1.md). -/
def Reg.unwritten (w : Nat) : Reg w := { value := 0#w, written := false }

/-- The configuration file `x[0..15]`, one register for each field, in index order (10_state.md R21). -/
structure RegFile where
  moduleAddress : Reg 32
  netId : Reg 32
  baudRate : Reg 32
  parity : Reg 32
  airSpeed : Reg 32
  packetLen : Reg 32
  enableAmbientNoise : Reg 32
  transmitPower : Reg 32
  channel : Reg 32
  enableRssiByte : Reg 32
  enablePointToPointMode : Reg 32
  enableRelayFunction : Reg 32
  enableLbt : Reg 32
  worMode : Reg 32
  worPeriod : Reg 32
  key : Reg 32
  deriving DecidableEq, Repr

/-- The complete architectural state (10_state.md R20), and the model's own list of pending host requests.
A buffer is the list of its WRITTEN elements, addresses rising; an element that is not listed is unwritten and has no
value (notes/assumptions/2.md). Its length register is a count. -/
structure State where
  /-- `x[0..15]`, the RadioConfig (R21). -/
  x : RegFile
  /-- `CMD`, header byte of the last frame decoded (R28). -/
  cmd : Reg 8
  /-- `SREG`, start_register byte of the last frame decoded (R29). -/
  sreg : Reg 8
  /-- `DLEN`, register_count byte of the last frame decoded (R29). -/
  dlen : Reg 8
  /-- `FB`, the command frame candidate (R30). -/
  fb : List Host.Cell
  /-- `FLEN` (R30). -/
  flen : Nat
  /-- `LV`, value word of a lookup (R31). -/
  lv : Reg 32
  /-- `LC`, code of a lookup (R31). -/
  lc : Reg 8
  /-- `TOPIC` (R32). -/
  topic : Reg 8
  /-- `SENDER` (R33). -/
  sender : Reg 16
  /-- `NEXP`, the N a fixed-N vector decode expects (R34). -/
  nexp : Reg 32
  /-- `MB`, the serialized envelope (R35). -/
  mb : List Host.Cell
  /-- `MLEN` (R35). -/
  mlen : Nat
  /-- `BB`, Blob content (R36). -/
  bb : List Host.Cell
  /-- `BLEN` (R36). -/
  blen : Nat
  /-- `WB`, code points or float bit patterns (R37). -/
  wb : List (Nat × Word)
  /-- `WLEN` (R37). -/
  wlen : Nat
  /-- `STATUS`, outcome of the last completed operation (R26). -/
  status : Byte
  /-- `EINFO`, detail of the last failure (R27). -/
  einfo : Byte
  /-- THE MODEL'S OWN: the host's requests not yet served, first one first (70_reset_and_hazards.md R304;
  notes/assumptions/4.md). -/
  pending : List Request
  deriving DecidableEq, Repr

/-- The machine's faults: none. The four error kinds are values in `STATUS`, "not ... a machine fault", and there is "no
*stuck* state" (60_exceptions.md R273; notes/assumptions/10.md). Nobody raises one, which is what the spec says (safe). -/
inductive Fault where
  deriving DecidableEq, Repr

/-- Why a request has no step (60_exceptions.md R272). A refusal is the absence of a transition, so each of these is safe: it
makes a claim about the run unprovable, never false. -/
inductive Refusal where
  /-- Raised by an arm of exec that has no meaning yet. Safe. No arm raises it. -/
  | notModelled (mnemonic : String)
  /-- Raised by step for an `OP` code that 30_encoding.md R92 reserves. Safe: the spec refuses it. -/
  | reservedCode (code : Byte)
  /-- Raised by an operation that would read an unwritten register (10_state.md R25). Safe: the spec refuses it. -/
  | unwrittenRegister (r : RegName)
  /-- Raised by an operation that would read a buffer with an unwritten element below its length (R25). Safe: the spec
  refuses it. -/
  | unwrittenBuffer (b : BufName)
  /-- Raised by `MENC.T` and `MENC.V` when the message does not fit (42_message_codec.md R204, R206), and by a host write of
  a length above a buffer's capacity or of an element outside it (10_state.md R30, 20_memory.md R61). Safe: the spec refuses
  it. -/
  | overCapacity (b : BufName)
  /-- Raised by a host write of `STATUS` or `EINFO` (10_state.md R41). Safe: the spec refuses it. -/
  | hostReadOnly (r : RegName)
  deriving DecidableEq, Repr

/-- Every configuration register unwritten (R42). -/
def RegFile.unwritten : RegFile :=
  { moduleAddress := Reg.unwritten 32
    netId := Reg.unwritten 32
    baudRate := Reg.unwritten 32
    parity := Reg.unwritten 32
    airSpeed := Reg.unwritten 32
    packetLen := Reg.unwritten 32
    enableAmbientNoise := Reg.unwritten 32
    transmitPower := Reg.unwritten 32
    channel := Reg.unwritten 32
    enableRssiByte := Reg.unwritten 32
    enablePointToPointMode := Reg.unwritten 32
    enableRelayFunction := Reg.unwritten 32
    enableLbt := Reg.unwritten 32
    worMode := Reg.unwritten 32
    worPeriod := Reg.unwritten 32
    key := Reg.unwritten 32 }

/-- The machine right after reset (10_state.md R42, 70_reset_and_hazards.md R290): `STATUS` and `EINFO` 0, the four lengths 0,
every other register unwritten, no buffer element written, and no request pending. -/
def State.reset : State :=
  { x := RegFile.unwritten
    cmd := Reg.unwritten 8
    sreg := Reg.unwritten 8
    dlen := Reg.unwritten 8
    fb := []
    flen := 0
    lv := Reg.unwritten 32
    lc := Reg.unwritten 8
    topic := Reg.unwritten 8
    sender := Reg.unwritten 16
    nexp := Reg.unwritten 32
    mb := []
    mlen := 0
    bb := []
    blen := 0
    wb := []
    wlen := 0
    status := 0x00#8
    einfo := 0x00#8
    pending := [] }

end Sys2Proof.Machine
end

