-- ==== Sys2Proof/Machine/Flags.lean ====
section
/-! DEFINITION. The block's only condition code, `STATUS`, and its detail `EINFO`: the numbers of 10_state.md R26 and R27. There
are no carry, zero, overflow or other flags (R26, R39). -/

namespace Sys2Proof.Machine

/-- The four error kinds (60_exceptions.md R260). -/
inductive ErrorKind where
  | invalidField
  | malformedFrame
  | unknownHeader
  | deserializeError
  deriving DecidableEq, Repr

/-- The `STATUS` code of a success (R26). -/
def statusOk : Byte := 0x00#8

/-- The `STATUS` code of an error kind (R26). -/
def ErrorKind.code : ErrorKind → Byte
  | .invalidField => 0x01#8
  | .malformedFrame => 0x02#8
  | .unknownHeader => 0x03#8
  | .deserializeError => 0x04#8

/-- `EINFO` of a success (R27). -/
def infoNone : Byte := 0x00#8

/-- The field id, which is the register's index in `x[0..15]` (R21, R27). -/
def fieldInfo : Field → Byte
  | .moduleAddress => 0#8
  | .netId => 1#8
  | .baudRate => 2#8
  | .parity => 3#8
  | .airSpeed => 4#8
  | .packetLen => 5#8
  | .enableAmbientNoise => 6#8
  | .transmitPower => 7#8
  | .channel => 8#8
  | .enableRssiByte => 9#8
  | .enablePointToPointMode => 10#8
  | .enableRelayFunction => 11#8
  | .enableLbt => 12#8
  | .worMode => 13#8
  | .worPeriod => 14#8
  | .key => 15#8

/-- `InvalidField`: a nonzero reserved bit of register byte 7 (R27). -/
def infoReservedBits : Byte := 0x10#8

/-- `InvalidField`: `TOPIC` is not an enumerated topic (R27). -/
def infoTopic : Byte := 0x11#8

/-- `InvalidField`: a Text element is not a Unicode scalar value (R27). -/
def infoNonScalar : Byte := 0x12#8

/-- `MalformedFrame`: "`FLEN` if `FLEN` <= 255, else 0xFF" (R27). -/
def infoLength (flen : Nat) : Byte := BitVec.ofNat 8 (min flen 255)

/-- `DeserializeError`: "input shorter than 3 bytes" (R27). -/
def infoShort : Byte := 0x01#8

/-- `DeserializeError`: "topic byte has no enumerated value" (R27). -/
def infoUnknownTopic : Byte := 0x02#8

/-- `DeserializeError`: "content not interpretable as the requested type" (R27). -/
def infoContent : Byte := 0x03#8

end Sys2Proof.Machine
end

