-- ==== Sys2Proof/Machine/Ops.lean ====
section
/-! DEFINITION. The operations every meaning is written over: reading and writing buffer elements (20_memory.md R61), the
written-or-unwritten registers (10_state.md R25), and how an operation ends: ok, `raise` or refuse (00_scope.md R11). -/

namespace Sys2Proof.Machine

/-- A machine step's outcome. -/
abbrev Outcome := Host.Outcome State Fault Refusal

/-! ### Buffers -/

/-- Canonical form of a buffer: addresses strictly rising. An unlisted element reads as no value, so no entry can equal what
an unlisted address reads as. -/
abbrev Memory.wf {α : Type} (m : List (Nat × α)) : Prop := (m.map Prod.fst).Pairwise (· < ·)

/-- One element: its value, or none while it is unwritten (10_state.md R25). -/
def Memory.read {α : Type} : List (Nat × α) → Nat → Option α
  | [], _ => none
  | (b, v) :: m, a => if a = b then some v else Memory.read m a

/-- Write of one element (`S[a] <- v`, R10), keeping the canonical form. -/
def Memory.write {α : Type} : List (Nat × α) → Nat → α → List (Nat × α)
  | [], a, v => [(a, v)]
  | (b, w) :: m, a, v =>
    if a < b then (a, v) :: (b, w) :: m
    else if a = b then (a, v) :: m
    else (b, w) :: Memory.write m a v

/-- `MemRead(S + a, n)`: the `n` elements from `a`, lowest first (20_memory.md R61); none if one of them is unwritten. -/
def Memory.readList {α : Type} (m : List (Nat × α)) (a : Nat) : Nat → Option (List α)
  | 0 => some []
  | n + 1 =>
    match Memory.read m a, Memory.readList m (a + 1) n with
    | some v, some l => some (v :: l)
    | _, _ => none

/-- `MemWrite(S + a, n, v)`: the elements of `v` to `a`, `a+1`, ... (20_memory.md R61). -/
def Memory.writeList {α : Type} (m : List (Nat × α)) (a : Nat) : List α → List (Nat × α)
  | [] => m
  | v :: vs => Memory.writeList (Memory.write m a v) (a + 1) vs

/-! ### Ends of an operation -/

/-- Why an operation stops before its results: it fails with an error kind and a detail, or it is refused (R11). -/
inductive Stop where
  | raise (kind : ErrorKind) (info : Byte)
  | refuse (r : Refusal)
  deriving DecidableEq, Repr

/-- A check or a computation inside an operation. -/
abbrev Check (α : Type) := Except Stop α

/-- TAKING AN EXCEPTION, `raise E(info)` (60_exceptions.md R266): "It writes `STATUS <- code(E)` and `EINFO <- info`, and nothing
else." No state is saved, no mode changes, control goes nowhere. The return from it is nothing: "There is no return
instruction and nothing to restore" (R268); the next completed operation overwrites `STATUS`. -/
def raise (kind : ErrorKind) (info : Byte) (s : State) : Outcome :=
  .next { s with status := kind.code, einfo := info }

/-- A success: `STATUS <- OK`, `EINFO <- 0x00`, on the state that holds the results. -/
def complete (s : State) : Outcome :=
  .next { s with status := statusOk, einfo := infoNone }

/-- End of an operation that started in `s`: its checks and results are in `r`. All checks precede the first result write
(R266), so a failure leaves `s` but for `STATUS` and `EINFO`, and a refusal leaves no state. -/
def settle (s : State) (r : Check State) : Outcome :=
  match r with
  | .ok t => complete t
  | .error (.raise kind info) => raise kind info s
  | .error (.refuse why) => .refused why

/-! ### Registers -/

/-- The value an operation reads from a register. The spec states the refusal: "An operation that would read an unwritten register
is refused", "a model must not pick zero or any other value for it" (10_state.md R25; 60_exceptions.md R272, second row). -/
def Reg.read {w : Nat} (name : RegName) (r : Reg w) : Check (BitVec w) :=
  if r.written then .ok r.value else .error (.refuse (.unwrittenRegister name))

/-- A write makes the register written (R25). -/
def Reg.of {w : Nat} (v : BitVec w) : Reg w := { value := v, written := true }

/-- Register `x[i]` of a field (R21). -/
def RegFile.get (x : RegFile) (f : Field) : Reg 32 :=
  match f with
  | .moduleAddress => x.moduleAddress
  | .netId => x.netId
  | .baudRate => x.baudRate
  | .parity => x.parity
  | .airSpeed => x.airSpeed
  | .packetLen => x.packetLen
  | .enableAmbientNoise => x.enableAmbientNoise
  | .transmitPower => x.transmitPower
  | .channel => x.channel
  | .enableRssiByte => x.enableRssiByte
  | .enablePointToPointMode => x.enablePointToPointMode
  | .enableRelayFunction => x.enableRelayFunction
  | .enableLbt => x.enableLbt
  | .worMode => x.worMode
  | .worPeriod => x.worPeriod
  | .key => x.key

/-- `x[i] <- w`. -/
def RegFile.set (x : RegFile) (f : Field) (w : Word) : RegFile :=
  match f with
  | .moduleAddress => { x with moduleAddress := Reg.of w }
  | .netId => { x with netId := Reg.of w }
  | .baudRate => { x with baudRate := Reg.of w }
  | .parity => { x with parity := Reg.of w }
  | .airSpeed => { x with airSpeed := Reg.of w }
  | .packetLen => { x with packetLen := Reg.of w }
  | .enableAmbientNoise => { x with enableAmbientNoise := Reg.of w }
  | .transmitPower => { x with transmitPower := Reg.of w }
  | .channel => { x with channel := Reg.of w }
  | .enableRssiByte => { x with enableRssiByte := Reg.of w }
  | .enablePointToPointMode => { x with enablePointToPointMode := Reg.of w }
  | .enableRelayFunction => { x with enableRelayFunction := Reg.of w }
  | .enableLbt => { x with enableLbt := Reg.of w }
  | .worMode => { x with worMode := Reg.of w }
  | .worPeriod => { x with worPeriod := Reg.of w }
  | .key => { x with key := Reg.of w }

/-- The 16 fields in index order 0, 1, ..., 15 (R21), the order in which an encoder scans them (R131). -/
def allFields : List Field :=
  [.moduleAddress, .netId, .baudRate, .parity, .airSpeed, .packetLen, .enableAmbientNoise, .transmitPower,
   .channel, .enableRssiByte, .enablePointToPointMode, .enableRelayFunction, .enableLbt, .worMode, .worPeriod, .key]

end Sys2Proof.Machine
end

