-- ==== Sys2Proof/Machine/Operands.lean ====
section
/-! DEFINITION. The operand forms. Every operand is a fixed register or buffer (30_encoding.md R91): a buffer with its length
(20_memory.md R61), the sixteen configuration registers, and the envelope head. Also the field tables that turn a value
word into a code and back (41_field_enumerations.md R171 to R179) and the domains of 10_state.md R23. -/

namespace Sys2Proof.Machine

/-! ### Buffers as operands -/

/-- The elements of a buffer below its length; refused unless it is written: "when the length and every element below the
length have been written" (10_state.md R25). -/
def readBuffer {α : Type} (name : BufName) (m : List (Nat × α)) (len : Nat) : Check (List α) :=
  match Memory.readList m 0 len with
  | some l => .ok l
  | none => .error (.refuse (.unwrittenBuffer name))

/-! ### Field tables -/

/-- A row of a field table: a code, its value word, and whether the row also maps value to code. -/
structure TableRow where
  code : Byte
  word : Word
  forward : Bool
  deriving DecidableEq, Repr

/-- The rows of the six tables: baud rate R171, parity R172, air speed R173, packet length R174, transmit power R175, WOR
period R176. Parity code 3 maps "code to value only". -/
def tableRows : TableField → List TableRow
  | .baudRate =>
    [⟨0, 1200, true⟩, ⟨1, 2400, true⟩, ⟨2, 4800, true⟩, ⟨3, 9600, true⟩,
     ⟨4, 19200, true⟩, ⟨5, 38400, true⟩, ⟨6, 57600, true⟩, ⟨7, 115200, true⟩]
  | .parity => [⟨0, 0x00384E31, true⟩, ⟨1, 0x00384F31, true⟩, ⟨2, 0x00384531, true⟩, ⟨3, 0x00384E31, false⟩]
  | .airSpeed =>
    [⟨0, 3, true⟩, ⟨1, 12, true⟩, ⟨2, 24, true⟩, ⟨3, 48, true⟩,
     ⟨4, 96, true⟩, ⟨5, 192, true⟩, ⟨6, 384, true⟩, ⟨7, 625, true⟩]
  | .packetLen => [⟨0, 240, true⟩, ⟨1, 128, true⟩, ⟨2, 64, true⟩, ⟨3, 32, true⟩]
  | .transmitPower => [⟨0, 22, true⟩, ⟨1, 17, true⟩, ⟨2, 12, true⟩, ⟨3, 10, true⟩]
  | .worPeriod =>
    [⟨0, 500, true⟩, ⟨1, 1000, true⟩, ⟨2, 1500, true⟩, ⟨3, 2000, true⟩,
     ⟨4, 2500, true⟩, ⟨5, 3000, true⟩, ⟨6, 3500, true⟩, ⟨7, 4000, true⟩]

/-- The width N(f) of a field's code in bits (R180 (a)). -/
def codeWidth : TableField → Nat
  | .baudRate => 3
  | .parity => 2
  | .airSpeed => 3
  | .packetLen => 2
  | .transmitPower => 2
  | .worPeriod => 3

/-- `v2c(f, w)`, value word to code (R178); none where it fails. -/
def v2c (f : TableField) (w : Word) : Option Byte :=
  ((tableRows f).find? (fun r => r.forward && decide (r.word = w))).map TableRow.code

/-- `c2v(f, c)`, code to value word (R179); none where it fails. -/
def c2v (f : TableField) (c : Byte) : Option Word :=
  ((tableRows f).find? (fun r => decide (r.code = c))).map TableRow.word

/-- The field that a table belongs to (R186). -/
def tableField : TableField → Field
  | .baudRate => .baudRate
  | .parity => .parity
  | .airSpeed => .airSpeed
  | .packetLen => .packetLen
  | .transmitPower => .transmitPower
  | .worPeriod => .worPeriod

/-! ### Domains -/

/-- `valid(i, w)` (10_state.md R23). -/
def valid (f : Field) (w : Word) : Bool :=
  match f with
  | .moduleAddress => decide (w ≤ 65535#32)
  | .netId => decide (w ≤ 255#32)
  | .baudRate => [1200#32, 2400#32, 4800#32, 9600#32, 19200#32, 38400#32, 57600#32, 115200#32].contains w
  | .parity => [0x00384E31#32, 0x00384F31#32, 0x00384531#32].contains w
  | .airSpeed => [3#32, 12#32, 24#32, 48#32, 96#32, 192#32, 384#32, 625#32].contains w
  | .packetLen => [240#32, 128#32, 64#32, 32#32].contains w
  | .enableAmbientNoise => [0#32, 1#32].contains w
  | .transmitPower => [22#32, 17#32, 12#32, 10#32].contains w
  | .channel => decide (w ≤ 83#32)
  | .enableRssiByte => [0#32, 1#32].contains w
  | .enablePointToPointMode => [0#32, 1#32].contains w
  | .enableRelayFunction => [0#32, 1#32].contains w
  | .enableLbt => [0#32, 1#32].contains w
  | .worMode => [0#32, 1#32].contains w
  | .worPeriod => [500#32, 1000#32, 1500#32, 2000#32, 2500#32, 3000#32, 3500#32, 4000#32].contains w
  | .key => decide (w ≤ 65535#32)

/-- `t` is an enumerated topic, "1..`TOPIC_COUNT`" (10_state.md R32). -/
def isTopic (p : Params) (t : Byte) : Bool := !(decide (t = 0#8) || decide (p.topicCount < t.toNat))

/-! ### The sixteen configuration registers as operands -/

/-- "if any of x[0..15] is unwritten then refuse" (40_register_config_codec.md R131). -/
def checkWritten (x : RegFile) : Check Unit :=
  match allFields.find? (fun f => !(x.get f).written) with
  | some f => .error (.refuse (.unwrittenRegister (.x f)))
  | none => .ok ()

/-- "for i = 0, 1, 2, ..., 15 in this order: if not valid(i, x[i]) then raise InvalidField(i)" (R131, R134). -/
def checkValid (x : RegFile) : Check Unit :=
  match allFields.find? (fun f => !valid f (x.get f).value) with
  | some f => .error (.raise .invalidField (fieldInfo f))
  | none => .ok ()

end Sys2Proof.Machine
end

