-- ==== Sys2Proof/Machine/HostActions.lean ====
section
/-! DEFINITION. What the host does to the block between two operations (20_memory.md R72): the host actions of 30_encoding.md R120,
writes of single elements (10_state.md R41), reset (70_reset_and_hazards.md R290), and the arrival of the bytes of a wire
format, which is the meaning of the table's rows CF.SET, CF.ANS, CF.PSET and ME (notes/assumptions/7.md). Host actions do not
touch `STATUS` and `EINFO` (R41). -/

namespace Sys2Proof.Machine

/-- The first pending request and the state without it; none when the list is exhausted (R304). -/
def fetch (s : State) : Option (Request × State) :=
  match s.pending with
  | [] => none
  | r :: rest => some (r, { s with pending := rest })

/-- Elements of `MB` fit: its capacity is `3 + CONTENT_MAX` (20_memory.md R60). -/
def mbFits (p : Params) (n : Nat) : Bool := p.content.fits (n - 3)

/-- `FRAME b0 b1 ...`: "writes the listed bytes to `FB[0..]` and their count to `FLEN`" (R120); a count above `FB_MAX` is refused
(10_state.md R30). -/
def hostFrame (p : Params) (bytes : List Byte) (s : State) : Outcome :=
  if bytes.length ≤ p.fbMax then .next { s with fb := Memory.writeList s.fb 0 bytes, flen := bytes.length }
  else .refused (.overCapacity .fb)

/-- `MSG b0 b1 ...` (R120). -/
def hostMessage (p : Params) (bytes : List Byte) (s : State) : Outcome :=
  if mbFits p bytes.length then .next { s with mb := Memory.writeList s.mb 0 bytes, mlen := bytes.length }
  else .refused (.overCapacity .mb)

/-- `BLOB b0 b1 ...` (R120). -/
def hostBlob (p : Params) (bytes : List Byte) (s : State) : Outcome :=
  if p.content.fits bytes.length then .next { s with bb := Memory.writeList s.bb 0 bytes, blen := bytes.length }
  else .refused (.overCapacity .bb)

/-- `TEXT "..."` writes the string's code points and `VEC w0 w1 ...` the listed patterns to `WB[0..]`, and their count to `WLEN`
(R120). -/
def hostWords (p : Params) (words : List Word) (s : State) : Outcome :=
  if p.content.fits words.length then .next { s with wb := Memory.writeList s.wb 0 words, wlen := words.length }
  else .refused (.overCapacity .wb)

/-- `SET name, literal` (R120). A length above the buffer's capacity, `STATUS` and `EINFO` are refused (60_exceptions.md R272). -/
def hostSet (p : Params) (w : RegWrite) (s : State) : Outcome :=
  match w with
  | .x f v => .next { s with x := s.x.set f v }
  | .cmd b => .next { s with cmd := Reg.of b }
  | .sreg b => .next { s with sreg := Reg.of b }
  | .dlen b => .next { s with dlen := Reg.of b }
  | .lv v => .next { s with lv := Reg.of v }
  | .lc b => .next { s with lc := Reg.of b }
  | .topic b => .next { s with topic := Reg.of b }
  | .sender h => .next { s with sender := Reg.of h }
  | .nexp v => .next { s with nexp := Reg.of v }
  | .flen n => if n ≤ p.fbMax then .next { s with flen := n } else .refused (.overCapacity .fb)
  | .mlen n => if mbFits p n then .next { s with mlen := n } else .refused (.overCapacity .mb)
  | .blen n => if p.content.fits n then .next { s with blen := n } else .refused (.overCapacity .bb)
  | .wlen n => if p.content.fits n then .next { s with wlen := n } else .refused (.overCapacity .wb)
  | .status _ => .refused (.hostReadOnly .status)
  | .einfo _ => .refused (.hostReadOnly .einfo)

/-- A host write of one element, defined below the capacity (20_memory.md R61; notes/assumptions/12.md). -/
def hostPoke (p : Params) (w : ElemWrite) (s : State) : Outcome :=
  match w with
  | .fb a b => if a + 1 ≤ p.fbMax then .next { s with fb := Memory.write s.fb a b } else .refused (.overCapacity .fb)
  | .mb a b => if mbFits p (a + 1) then .next { s with mb := Memory.write s.mb a b } else .refused (.overCapacity .mb)
  | .bb a b => if p.content.fits (a + 1) then .next { s with bb := Memory.write s.bb a b } else .refused (.overCapacity .bb)
  | .wb i v => if p.content.fits (i + 1) then .next { s with wb := Memory.write s.wb i v } else .refused (.overCapacity .wb)

/-- Reset "puts every piece of state ... at the value" of 10_state.md R42 (R290). The host's list of pending requests is not the
block's state and stays (notes/assumptions/13.md). -/
def hostReset (s : State) : Outcome := .next { State.reset with pending := s.pending }

/-- A request that is no instruction: a host action, or a reserved `OP` code, which is refused (30_encoding.md R92). -/
def hostRequest (p : Params) (r : Request) (s : State) : Outcome :=
  match r with
  | .op code => .refused (.reservedCode code)
  | .set w => hostSet p w s
  | .poke w => hostPoke p w s
  | .frame bytes => hostFrame p bytes s
  | .msg bytes => hostMessage p bytes s
  | .blob bytes => hostBlob p bytes s
  | .text cps => hostWords p cps s
  | .vec ws => hostWords p ws s
  | .expect => .next s
  | .reset => hostReset s

/-- `CF.SET`: a frame with header 0xC2 reaches the block, as the host action FRAME of its 12 bytes (R97, R120). -/
def execCfSet (f : FrameFields) (s : State) : Outcome := hostFrame Config.params (packFields 0xC2#8 f) s

/-- `CF.ANS`: a frame with header 0xC1 reaches the block. -/
def execCfAns (f : FrameFields) (s : State) : Outcome := hostFrame Config.params (packFields 0xC1#8 f) s

/-- `CF.PSET`: a frame with header 0xC0, which no encoder emits, reaches the block. -/
def execCfPset (f : FrameFields) (s : State) : Outcome := hostFrame Config.params (packFields 0xC0#8 f) s

/-- `ME`: an envelope reaches the block, as the host action MSG of its bytes (R104, R120). -/
def execMe (topic : Byte) (sender : Half) (content : List Byte) (s : State) : Outcome :=
  hostMessage Config.params (packMessage topic sender content) s

end Sys2Proof.Machine
end

