-- ==== Sys2Proof/Machine/Lookup.lean ====
section
/-! DEFINITION. The twelve enumeration lookups `ELUT.V2C f` and `ELUT.C2V f` (41_field_enumerations.md R186 to R188). Each is one
line over the lookup of its table. -/

namespace Sys2Proof.Machine

/-- `ELUT.V2C f` (R187): `LC <- zext_8(v2c(f, LV))`. -/
def lookupCodeBody (f : TableField) (s : State) : Check State := do
  let w ← s.lv.read .lv
  match v2c f w with
  | some c => .ok { s with lc := Reg.of c }
  | none => .error (.raise .invalidField (fieldInfo (tableField f)))

/-- `ELUT.C2V f` (R188): `LV <- c2v(f, LC)`; it fails "on an unmapped code". -/
def lookupWordBody (f : TableField) (s : State) : Check State := do
  let c ← s.lc.read .lc
  match c2v f c with
  | some w => .ok { s with lv := Reg.of w }
  | none => .error (.raise .invalidField (fieldInfo (tableField f)))

/-- A lookup of a code. -/
def lookupCode (f : TableField) (s : State) : Outcome := settle s (lookupCodeBody f s)

/-- A lookup of a value word. -/
def lookupWord (f : TableField) (s : State) : Outcome := settle s (lookupWordBody f s)

/-- `ELUT.V2C baud_rate`. -/
def execElutV2cBaudRate (s : State) : Outcome := lookupCode .baudRate s

/-- `ELUT.V2C parity`. -/
def execElutV2cParity (s : State) : Outcome := lookupCode .parity s

/-- `ELUT.V2C air_speed`. -/
def execElutV2cAirSpeed (s : State) : Outcome := lookupCode .airSpeed s

/-- `ELUT.V2C packet_len`. -/
def execElutV2cPacketLen (s : State) : Outcome := lookupCode .packetLen s

/-- `ELUT.V2C transmit_power`. -/
def execElutV2cTransmitPower (s : State) : Outcome := lookupCode .transmitPower s

/-- `ELUT.V2C wor_period`. -/
def execElutV2cWorPeriod (s : State) : Outcome := lookupCode .worPeriod s

/-- `ELUT.C2V baud_rate`. -/
def execElutC2vBaudRate (s : State) : Outcome := lookupWord .baudRate s

/-- `ELUT.C2V parity`. -/
def execElutC2vParity (s : State) : Outcome := lookupWord .parity s

/-- `ELUT.C2V air_speed`. -/
def execElutC2vAirSpeed (s : State) : Outcome := lookupWord .airSpeed s

/-- `ELUT.C2V packet_len`. -/
def execElutC2vPacketLen (s : State) : Outcome := lookupWord .packetLen s

/-- `ELUT.C2V transmit_power`. -/
def execElutC2vTransmitPower (s : State) : Outcome := lookupWord .transmitPower s

/-- `ELUT.C2V wor_period`. -/
def execElutC2vWorPeriod (s : State) : Outcome := lookupWord .worPeriod s

end Sys2Proof.Machine
end

