-- ==== Sys2Proof/Machine/Content.lean ====
section
/-! DEFINITION. The content codecs (43_content_codecs.md): Text is UTF-8 (R230 to R232), a Blob is its own bytes (R236, nothing to
define), a FixedVector is the bytes of its elements in `NATIVE_ORDER` (R240, R241). -/

namespace Sys2Proof.Machine

/-! ### Text -/

/-- `scalar(w)`: a Unicode scalar value (R230). -/
def scalar (w : Word) : Bool := decide (w ≤ 0xD7FF#32) || (decide (0xE000#32 ≤ w) && decide (w ≤ 0x10FFFF#32))

/-- A continuation byte `10` followed by six payload bits. -/
def contByte (bits : BitVec 6) : Byte := (0b10#2 ++ bits : BitVec 8)

/-- `utf8(c)`, the bytes of one scalar value, the shortest form (R231). -/
def utf8 (c : Word) : List Byte :=
  if c ≤ 0x7F#32 then [(0b0#1 ++ c.extractLsb' 0 7 : BitVec 8)]
  else if c ≤ 0x7FF#32 then [(0b110#3 ++ c.extractLsb' 6 5 : BitVec 8), contByte (c.extractLsb' 0 6)]
  else if c ≤ 0xFFFF#32 then
    [(0b1110#4 ++ c.extractLsb' 12 4 : BitVec 8), contByte (c.extractLsb' 6 6), contByte (c.extractLsb' 0 6)]
  else
    [(0b11110#5 ++ c.extractLsb' 18 3 : BitVec 8), contByte (c.extractLsb' 12 6), contByte (c.extractLsb' 6 6),
     contByte (c.extractLsb' 0 6)]

/-- A byte lies in an inclusive range of the table of R232. -/
def inRange (lo hi b : Byte) : Bool := decide (lo ≤ b) && decide (b ≤ hi)

/-- Bytes 1 and 2 of a two-byte row of R232. -/
def wellFormed2 (b1 b2 : Byte) : Bool := inRange 0xC2 0xDF b1 && inRange 0x80 0xBF b2

/-- Bytes 1 to 3 of a three-byte row of R232: the second byte's range depends on the first. -/
def wellFormed3 (b1 b2 b3 : Byte) : Bool :=
  (decide (b1 = 0xE0#8) && inRange 0xA0 0xBF b2
    || inRange 0xE1 0xEC b1 && inRange 0x80 0xBF b2
    || decide (b1 = 0xED#8) && inRange 0x80 0x9F b2
    || inRange 0xEE 0xEF b1 && inRange 0x80 0xBF b2)
  && inRange 0x80 0xBF b3

/-- Bytes 1 to 4 of a four-byte row of R232. -/
def wellFormed4 (b1 b2 b3 b4 : Byte) : Bool :=
  (decide (b1 = 0xF0#8) && inRange 0x90 0xBF b2
    || inRange 0xF1 0xF3 b1 && inRange 0x80 0xBF b2
    || decide (b1 = 0xF4#8) && inRange 0x80 0x8F b2)
  && inRange 0x80 0xBF b3 && inRange 0x80 0xBF b4

/-- The scalar value of a one-byte sequence: its seven payload bits (R232 "inverting rule R231"). -/
def scalar1 (b1 : Byte) : Word := (b1.extractLsb' 0 7).setWidth 32

/-- The scalar value of a two-byte sequence: 5 and 6 payload bits. -/
def scalar2 (b1 b2 : Byte) : Word := (b1.extractLsb' 0 5 ++ b2.extractLsb' 0 6 : BitVec 11).setWidth 32

/-- The scalar value of a three-byte sequence: 4, 6 and 6 payload bits. -/
def scalar3 (b1 b2 b3 : Byte) : Word :=
  (b1.extractLsb' 0 4 ++ b2.extractLsb' 0 6 ++ b3.extractLsb' 0 6 : BitVec 16).setWidth 32

/-- The scalar value of a four-byte sequence: 3, 6, 6 and 6 payload bits. -/
def scalar4 (b1 b2 b3 b4 : Byte) : Word :=
  (b1.extractLsb' 0 3 ++ b2.extractLsb' 0 6 ++ b3.extractLsb' 0 6 ++ b4.extractLsb' 0 6 : BitVec 21).setWidth 32

/-- `unutf8(bs)`: the scalar values, or none when the bytes at some point match no row of R232. No two rows match the same
bytes, because their first bytes differ. -/
def unutf8 : List Byte → Option (List Word)
  | [] => some []
  | b1 :: r1 =>
    if inRange 0x00 0x7F b1 then (unutf8 r1).map (fun l => scalar1 b1 :: l)
    else
      match r1 with
      | [] => none
      | b2 :: r2 =>
        if wellFormed2 b1 b2 then (unutf8 r2).map (fun l => scalar2 b1 b2 :: l)
        else
          match r2 with
          | [] => none
          | b3 :: r3 =>
            if wellFormed3 b1 b2 b3 then (unutf8 r3).map (fun l => scalar3 b1 b2 b3 :: l)
            else
              match r3 with
              | [] => none
              | b4 :: r4 =>
                if wellFormed4 b1 b2 b3 b4 then (unutf8 r4).map (fun l => scalar4 b1 b2 b3 b4 :: l) else none

/-- The encoding of a string: "the concatenation of the encodings of its scalar values in order" (R231). An element that is no
scalar value raises `InvalidField(0x12)` (42_message_codec.md R204). -/
def textBytes : List Word → Check (List Byte)
  | [] => .ok []
  | c :: cs =>
    if !scalar c then .error (.raise .invalidField infoNonScalar)
    else (textBytes cs).map (fun body => utf8 c ++ body)

/-! ### FixedVector -/

/-- `fbytes(w)`: the four bytes of one element in the platform's order (R240, 20_memory.md R64). -/
def fbytes (o : ByteOrder) (w : Word) : List Byte :=
  match o with
  | .little => [w.extractLsb' 0 8, w.extractLsb' 8 8, w.extractLsb' 16 8, w.extractLsb' 24 8]
  | .big => [w.extractLsb' 24 8, w.extractLsb' 16 8, w.extractLsb' 8 8, w.extractLsb' 0 8]

/-- `fword(b0, b1, b2, b3)`: the inverse (R241). -/
def fword (o : ByteOrder) (b0 b1 b2 b3 : Byte) : Word :=
  match o with
  | .little => (b3 ++ b2 ++ b1 ++ b0 : BitVec 32)
  | .big => (b0 ++ b1 ++ b2 ++ b3 : BitVec 32)

/-- The content of a vector: `fbytes(w0) ++ ... ++ fbytes(w(N-1))` (R240). -/
def vectorBytes (o : ByteOrder) : List Word → List Byte
  | [] => []
  | w :: ws => fbytes o w ++ vectorBytes o ws

/-- The elements of a content whose length is a multiple of four: element `i` from bytes `4*i .. 4*i+3` (R243). -/
def vectorWords (o : ByteOrder) : List Byte → List Word
  | b0 :: b1 :: b2 :: b3 :: rest => fword o b0 b1 b2 b3 :: vectorWords o rest
  | _ => []

end Sys2Proof.Machine
end

