-- ==== Sys2Proof/Machine/Message.lean ====
section
/-! DEFINITION. The message envelope unit: `MENC.T/B/V` and `MDEC.T/B/V/VN` (42_message_codec.md R200 to R210). Each procedure takes
the parameters of 00_scope.md R7; the meanings run with `Config.params`. The content type is chosen by the operation alone
(R200). -/

namespace Sys2Proof.Machine

/-- `ENC_HEAD`, the first three bytes of every encoded message (R201). -/
def encHead (p : Params) (s : State) : Check (List Byte) := do
  let t ← s.topic.read .topic
  let snd ← s.sender.read .sender
  if !isTopic p t then .error (.raise .invalidField infoTopic)
  else .ok [t, snd.extractLsb' 0 8, snd.extractLsb' 8 8]

/-- What `DEC_HEAD` returns: the topic, the sender and the remainder (R202). -/
structure Envelope where
  topic : Byte
  sender : Half
  rest : List Byte
  deriving DecidableEq, Repr

/-- `DEC_HEAD` on the bytes of the message (R202): length, then topic. -/
def splitHead (p : Params) (bytes : List Byte) : Check Envelope :=
  match bytes with
  | t :: lo :: hi :: rest =>
    if !isTopic p t then .error (.raise .deserializeError infoUnknownTopic)
    else .ok { topic := t, sender := hi ++ lo, rest := rest }
  | _ => .error (.raise .deserializeError infoShort)

/-- `DEC_HEAD` (R202). -/
def decHead (p : Params) (s : State) : Check Envelope := do
  let bytes ← readBuffer .mb s.mb s.mlen
  splitHead p bytes

/-- The result of an encoder: `MB[0..n-1]` and `MLEN <- n` (10_state.md R35). -/
def putMessage (bytes : List Byte) (s : State) : State :=
  { s with mb := Memory.writeList s.mb 0 bytes, mlen := bytes.length }

/-- The results of a decoder into `WB`: `TOPIC`, `SENDER`, `WB[0..n-1]`, `WLEN` (R207, R209, R210). -/
def putWords (e : Envelope) (words : List Word) (s : State) : State :=
  { s with
    topic := Reg.of e.topic
    sender := Reg.of e.sender
    wb := Memory.writeList s.wb 0 words
    wlen := words.length }

/-- `MENC.T` with parameters `p` (R204). -/
def encodeText (p : Params) (s : State) : Check State := do
  let head ← encHead p s
  let cps ← readBuffer .wb s.wb s.wlen
  let body ← textBytes cps
  if !p.content.fits body.length then .error (.refuse (.overCapacity .mb))
  else .ok (putMessage (head ++ body) s)

/-- `MENC.B` with parameters `p` (R205). "It always fits." -/
def encodeBlob (p : Params) (s : State) : Check State := do
  let head ← encHead p s
  let body ← readBuffer .bb s.bb s.blen
  .ok (putMessage (head ++ body) s)

/-- `MENC.V` with parameters `p` (R206). -/
def encodeVector (p : Params) (s : State) : Check State := do
  let head ← encHead p s
  let ws ← readBuffer .wb s.wb s.wlen
  if !p.content.fits (4 * s.wlen) then .error (.refuse (.overCapacity .mb))
  else .ok (putMessage (head ++ vectorBytes p.nativeOrder ws) s)

/-- `MDEC.T` with parameters `p` (R207). -/
def decodeText (p : Params) (s : State) : Check State := do
  let e ← decHead p s
  match unutf8 e.rest with
  | none => .error (.raise .deserializeError infoContent)
  | some cps => .ok (putWords e cps s)

/-- `MDEC.B` with parameters `p` (R208). -/
def decodeBlob (p : Params) (s : State) : Check State := do
  let e ← decHead p s
  .ok { s with
    topic := Reg.of e.topic
    sender := Reg.of e.sender
    bb := Memory.writeList s.bb 0 e.rest
    blen := e.rest.length }

/-- `MDEC.V` with parameters `p` (R209). -/
def decodeVector (p : Params) (s : State) : Check State := do
  let e ← decHead p s
  if e.rest.length % 4 ≠ 0 then .error (.raise .deserializeError infoContent)
  else .ok (putWords e (vectorWords p.nativeOrder e.rest) s)

/-- `MDEC.VN` with parameters `p` (R210): `NEXP` first, and the lengths "compared as natural numbers, no 32-bit wrap". -/
def decodeVectorN (p : Params) (s : State) : Check State := do
  let n ← s.nexp.read .nexp
  let e ← decHead p s
  if e.rest.length ≠ 4 * n.toNat then .error (.raise .deserializeError infoContent)
  else .ok (putWords e (vectorWords p.nativeOrder e.rest) s)

/-- `MENC.T` (R204). -/
def execMencT (s : State) : Outcome := settle s (encodeText Config.params s)

/-- `MENC.B` (R205). -/
def execMencB (s : State) : Outcome := settle s (encodeBlob Config.params s)

/-- `MENC.V` (R206). -/
def execMencV (s : State) : Outcome := settle s (encodeVector Config.params s)

/-- `MDEC.T` (R207). -/
def execMdecT (s : State) : Outcome := settle s (decodeText Config.params s)

/-- `MDEC.B` (R208). -/
def execMdecB (s : State) : Outcome := settle s (decodeBlob Config.params s)

/-- `MDEC.V` (R209). -/
def execMdecV (s : State) : Outcome := settle s (decodeVector Config.params s)

/-- `MDEC.VN` (R210). -/
def execMdecVn (s : State) : Outcome := settle s (decodeVectorN Config.params s)

end Sys2Proof.Machine
end

