-- ==== Sys2Proof/Machine/Register.lean ====
section
/-! DEFINITION. The register command unit: `RENC.SET`, `RENC.ANS`, `RDEC` (40_register_config_codec.md R130 to R148). The bit
layout of the frame is said once, in Decode.lean (`packFields`, `unpackFields`, from 30_encoding.md R96 to R102). -/

namespace Sys2Proof.Machine

/-- The code an encoder places for a valid value word: "All the `v2c` calls succeed because the validity loop has passed"
(R131), so the default is never taken. -/
def codeOf (f : TableField) (w : Word) : Byte := (v2c f w).getD 0#8

/-- The value word of a code of the frame: "every code has a row" (41_field_enumerations.md R179, R147), so the default is
never taken. -/
def wordOf (f : TableField) (c : Byte) : Word := (c2v f c).getD 0#32

/-- The fields of the frame that `ENCODE(h)` builds from valid registers (R131). Every narrowing is exact (R136). -/
def frameOf (x : RegFile) : FrameFields :=
  { address := x.moduleAddress.value.setWidth 16
    netId := x.netId.value.setWidth 8
    baud := (codeOf .baudRate x.baudRate.value).setWidth 3
    parity := (codeOf .parity x.parity.value).setWidth 2
    air := (codeOf .airSpeed x.airSpeed.value).setWidth 3
    packet := (codeOf .packetLen x.packetLen.value).setWidth 2
    noise := x.enableAmbientNoise.value.setWidth 1
    power := (codeOf .transmitPower x.transmitPower.value).setWidth 2
    channel := x.channel.value.setWidth 8
    rssi := x.enableRssiByte.value.setWidth 1
    p2p := x.enablePointToPointMode.value.setWidth 1
    relay := x.enableRelayFunction.value.setWidth 1
    lbt := x.enableLbt.value.setWidth 1
    worMode := x.worMode.value.setWidth 1
    wor := (codeOf .worPeriod x.worPeriod.value).setWidth 3
    key := x.key.value.setWidth 16 }

/-- The configuration a frame's fields stand for (R140); every zero extension is R102's. -/
def configOf (f : FrameFields) : RegFile :=
  { moduleAddress := Reg.of (f.address.setWidth 32)
    netId := Reg.of (f.netId.setWidth 32)
    baudRate := Reg.of (wordOf .baudRate (f.baud.setWidth 8))
    parity := Reg.of (wordOf .parity (f.parity.setWidth 8))
    airSpeed := Reg.of (wordOf .airSpeed (f.air.setWidth 8))
    packetLen := Reg.of (wordOf .packetLen (f.packet.setWidth 8))
    enableAmbientNoise := Reg.of (f.noise.setWidth 32)
    transmitPower := Reg.of (wordOf .transmitPower (f.power.setWidth 8))
    channel := Reg.of (f.channel.setWidth 32)
    enableRssiByte := Reg.of (f.rssi.setWidth 32)
    enablePointToPointMode := Reg.of (f.p2p.setWidth 32)
    enableRelayFunction := Reg.of (f.relay.setWidth 32)
    enableLbt := Reg.of (f.lbt.setWidth 32)
    worMode := Reg.of (f.worMode.setWidth 32)
    worPeriod := Reg.of (wordOf .worPeriod (f.wor.setWidth 8))
    key := Reg.of (f.key.setWidth 32) }

/-- Procedure `ENCODE(h)` (R131): all checks, then `FB[0..11]` and `FLEN`. `FB[12..]` is left as it was. -/
def encodeConfig (header : Byte) (s : State) : Check State := do
  checkWritten s.x
  checkValid s.x
  .ok { s with fb := Memory.writeList s.fb 0 (packFields header (frameOf s.x)), flen := 12 }

/-- A header that `RDEC` accepts (R142). -/
def isHeader (h : Byte) : Bool := [0xC2#8, 0xC1#8, 0xC0#8].contains h

/-- The checks and results of `RDEC` on the bytes of `FB` below `FLEN` (R140, R148): length, header, reserved bits of reg7,
channel, in this order. Bytes 1 and 2 are reported and not checked (R146). -/
def decodeConfig (bytes : List Byte) (s : State) : Check State :=
  match bytes with
  | [h, sr, rc, ah, al, n, r6, r7, c, r9, kh, kl] =>
    if !isHeader h then .error (.raise .unknownHeader h)
    else if reg7Reserved r7 ≠ 0#3 then .error (.raise .invalidField infoReservedBits)
    else if 83#8 < c then .error (.raise .invalidField (fieldInfo .channel))
    else .ok { s with
      x := configOf (unpackFields ah al n r6 r7 c r9 kh kl)
      cmd := Reg.of h
      sreg := Reg.of sr
      dlen := Reg.of rc }
  | _ => .error (.raise .malformedFrame (infoLength bytes.length))

/-- `RENC.SET` (R132): `ENCODE(0xC2)`. -/
def execRencSet (s : State) : Outcome := settle s (encodeConfig 0xC2#8 s)

/-- `RENC.ANS` (R133): `ENCODE(0xC1)`. -/
def execRencAns (s : State) : Outcome := settle s (encodeConfig 0xC1#8 s)

/-- `RDEC` (R140). -/
def execRdec (s : State) : Outcome :=
  settle s (do
    let bytes ← readBuffer .fb s.fb s.flen
    decodeConfig bytes s)

end Sys2Proof.Machine
end

