-- ==== Sys2Proof/Machine/Dispatch.lean ====
section
/-! DEFINITION. The meaning of every instruction: one arm for each constructor of Instr. -/

namespace Sys2Proof.Machine

def exec (i : Instr) (s : State) : Host.Outcome State Fault Refusal :=
  match i with
  -- register command unit (40_register_config_codec.md)
  | .rencSet => Sys2Proof.Machine.execRencSet s
  | .rencAns => Sys2Proof.Machine.execRencAns s
  | .rdec => Sys2Proof.Machine.execRdec s
  -- enumeration lookups (41_field_enumerations.md)
  | .elutV2cBaudRate => Sys2Proof.Machine.execElutV2cBaudRate s
  | .elutV2cParity => Sys2Proof.Machine.execElutV2cParity s
  | .elutV2cAirSpeed => Sys2Proof.Machine.execElutV2cAirSpeed s
  | .elutV2cPacketLen => Sys2Proof.Machine.execElutV2cPacketLen s
  | .elutV2cTransmitPower => Sys2Proof.Machine.execElutV2cTransmitPower s
  | .elutV2cWorPeriod => Sys2Proof.Machine.execElutV2cWorPeriod s
  | .elutC2vBaudRate => Sys2Proof.Machine.execElutC2vBaudRate s
  | .elutC2vParity => Sys2Proof.Machine.execElutC2vParity s
  | .elutC2vAirSpeed => Sys2Proof.Machine.execElutC2vAirSpeed s
  | .elutC2vPacketLen => Sys2Proof.Machine.execElutC2vPacketLen s
  | .elutC2vTransmitPower => Sys2Proof.Machine.execElutC2vTransmitPower s
  | .elutC2vWorPeriod => Sys2Proof.Machine.execElutC2vWorPeriod s
  -- message envelope unit (42_message_codec.md)
  | .mencT => Sys2Proof.Machine.execMencT s
  | .mencB => Sys2Proof.Machine.execMencB s
  | .mencV => Sys2Proof.Machine.execMencV s
  | .mdecT => Sys2Proof.Machine.execMdecT s
  | .mdecB => Sys2Proof.Machine.execMdecB s
  | .mdecV => Sys2Proof.Machine.execMdecV s
  | .mdecVn => Sys2Proof.Machine.execMdecVn s
  -- wire formats reaching the block (30_encoding.md R97, R104, R120)
  | .cfSet f => Sys2Proof.Machine.execCfSet f s
  | .cfAns f => Sys2Proof.Machine.execCfAns f s
  | .cfPset f => Sys2Proof.Machine.execCfPset f s
  | .me topic sender content => Sys2Proof.Machine.execMe topic sender content s

end Sys2Proof.Machine
end

