-- ==== Sys2Proof/Machine/Step.lean ====
section
/-! DEFINITION. One step: the block serves the host's next request (70_reset_and_hazards.md R304). Each request is served to
completion (20_memory.md R68, R72). -/

namespace Sys2Proof.Machine

/-- A request is served by the meaning of the instruction its bytes stand for; one that stands for none is a host action or a
reserved code. -/
def serve (r : Request) (s : State) : Host.Outcome State Fault Refusal :=
  match decode r with
  | .ok i => exec i s
  | .error _ => hostRequest Config.params r s

/-- One step. With nothing pending, "the block waits for the host's first request" (R291): nothing changes
(notes/assumptions/5.md). -/
def step (s : State) : Host.Outcome State Fault Refusal :=
  match fetch s with
  | none => .next s
  | some (r, s') => serve r s'

/-- `s` with the instruction of a word of the opcode table presented as the next request (notes/assumptions/6.md). -/
def State.withFetchWord (s : State) (nbits w : Nat) : State :=
  { s with pending := tableRequest nbits w :: s.pending }

end Sys2Proof.Machine
end

