-- ==== Sys2Proof/Machine/Text.lean ====
section
/-! DEFINITION. The text syntax of 30_encoding.md section 7: value literals (R118), operations (R119), host actions (R120) and
pseudo-instructions (R121). A line of text becomes the list of requests it stands for; a line that the syntax does not have
has no reading (none). What the rules leave open about the syntax is in notes/assumptions/16.md. -/

namespace Sys2Proof.Machine

/-- A text as its characters. -/
abbrev Text := List Char

/-! ### Numbers -/

/-- The value of a decimal digit. -/
def decDigit (c : Char) : Option Nat := if '0' ≤ c ∧ c ≤ '9' then some (c.toNat - 48) else none

/-- The value of a hexadecimal digit; that it may be in either case is a DESIGN CHOICE (notes/assumptions/16.md). -/
def hexDigit (c : Char) : Option Nat :=
  if '0' ≤ c ∧ c ≤ '9' then some (c.toNat - 48)
  else if 'a' ≤ c ∧ c ≤ 'f' then some (c.toNat - 87)
  else if 'A' ≤ c ∧ c ≤ 'F' then some (c.toNat - 55)
  else none

/-- The number that a string of digits spells, most significant first, above what is read so far. -/
def digitsValue (base : Nat) (digit : Char → Option Nat) (acc : Nat) : Text → Option Nat
  | [] => some acc
  | c :: cs => (digit c).bind (fun d => digitsValue base digit (acc * base + d) cs)

/-- One or more digits. -/
def digits1 (base : Nat) (digit : Char → Option Nat) (t : Text) : Option Nat :=
  if t.isEmpty then none else digitsValue base digit 0 t

/-- "decimal `258` or hexadecimal `0x0102`" (R118). -/
def number (t : Text) : Option Nat :=
  match t with
  | '0' :: 'x' :: h => digits1 16 hexDigit h
  | _ => digits1 10 decDigit t

/-- A number that fits in `w` bits. -/
def numberOf (w : Nat) (t : Text) : Option (BitVec w) :=
  (number t).bind (fun n => if n < 2 ^ w then some (BitVec.ofNat w n) else none)

/-- A byte of a byte list, written as in `C2 00 09` (00_scope.md R9): exactly two hexadecimal digits (notes/assumptions/16.md). -/
def hexByte (t : Text) : Option Byte :=
  match t with
  | [a, b] => (hexDigit a).bind (fun x => (hexDigit b).map (fun y => BitVec.ofNat 8 (x * 16 + y)))
  | _ => none

/-! ### Names -/

/-- The document's field names (10_state.md R21). -/
def fieldName : Field → Text
  | .moduleAddress => "module_address".toList
  | .netId => "net_id".toList
  | .baudRate => "baud_rate".toList
  | .parity => "parity".toList
  | .airSpeed => "air_speed".toList
  | .packetLen => "packet_len".toList
  | .enableAmbientNoise => "enable_ambient_noise".toList
  | .transmitPower => "transmit_power".toList
  | .channel => "channel".toList
  | .enableRssiByte => "enable_rssi_byte".toList
  | .enablePointToPointMode => "enable_point_to_point_mode".toList
  | .enableRelayFunction => "enable_relay_function".toList
  | .enableLbt => "enable_lbt".toList
  | .worMode => "wor_mode".toList
  | .worPeriod => "wor_period".toList
  | .key => "key".toList

/-- The field of a name. -/
def fieldOfName (t : Text) : Option Field := allFields.find? (fun f => decide (fieldName f = t))

/-! ### Value literals (R118) -/

/-- The rest of a text after a prefix. -/
def afterPrefix : Text → Text → Option Text
  | [], t => some t
  | _ :: _, [] => none
  | p :: ps, c :: cs => if p = c then afterPrefix ps cs else none

/-- The parity labels, "exactly these (upper case)". -/
def parityLabels : List (Text × Word) :=
  [("8N1".toList, 0x00384E31), ("8O1".toList, 0x00384F31), ("8E1".toList, 0x00384531)]

/-- The air-speed labels, "exactly these". -/
def airLabels : List (Text × Word) :=
  [("0.3K".toList, 3), ("1.2K".toList, 12), ("2.4K".toList, 24), ("4.8K".toList, 48),
   ("9.6K".toList, 96), ("19.2K".toList, 192), ("38.4K".toList, 384), ("62.5K".toList, 625)]

/-- The flag literals. -/
def flagLabels : List (Text × Word) := [("true".toList, 1), ("false".toList, 0)]

/-- The two values of `wor_mode`. -/
def worModeLabels : List (Text × Word) := [("0".toList, 0), ("1".toList, 1)]

/-- The value word of a label. -/
def ofLabel (labels : List (Text × Word)) (t : Text) : Option Word :=
  (labels.find? (fun l => decide (l.1 = t))).map Prod.snd

/-- The digits before "the letters d, b, m, each in either case", at the end of a transmit-power literal. -/
def beforeDbm : Text → Option Text
  | [] => none
  | [d, b, m] =>
    if (d = 'd' ∨ d = 'D') ∧ (b = 'b' ∨ b = 'B') ∧ (m = 'm' ∨ m = 'M') then some [] else none
  | c :: cs => (beforeDbm cs).map (fun t => c :: t)

/-- A transmit-power literal `22dBm`: "the number the digits spell". -/
def powerLiteral (t : Text) : Option Word :=
  (beforeDbm t).bind (fun ds => (digits1 10 decDigit ds).bind (fun n => if n < 2 ^ 32 then some (BitVec.ofNat 32 n) else none))

/-- The value word of a literal of a field (R118); `raw:` and a number is that 32-bit pattern in any field. -/
def fieldLiteral (f : Field) (t : Text) : Option Word :=
  match afterPrefix "raw:".toList t with
  | some r => numberOf 32 r
  | none =>
    match f with
    | .moduleAddress => numberOf 32 t
    | .netId => numberOf 32 t
    | .baudRate => numberOf 32 t
    | .parity => ofLabel parityLabels t
    | .airSpeed => ofLabel airLabels t
    | .packetLen => numberOf 32 t
    | .enableAmbientNoise => ofLabel flagLabels t
    | .transmitPower => powerLiteral t
    | .channel => numberOf 32 t
    | .enableRssiByte => ofLabel flagLabels t
    | .enablePointToPointMode => ofLabel flagLabels t
    | .enableRelayFunction => ofLabel flagLabels t
    | .enableLbt => ofLabel flagLabels t
    | .worMode => ofLabel worModeLabels t
    | .worPeriod => numberOf 32 t
    | .key => numberOf 32 t

/-- The label of a value word. -/
def labelOf (labels : List (Text × Word)) (w : Word) : Option Text :=
  (labels.find? (fun l => decide (l.2 = w))).map Prod.fst

/-- The decimal digits of a value word, without leading zeros. -/
def decimal (w : Word) : Text := Nat.toDigits 10 w.toNat

/-- How a result is printed: "transmit power is spelled `NNdBm`", "the other fields as in this table" (R118). For a number the
table allows decimal and hexadecimal; that it is always printed in decimal, without leading zeros, is a DESIGN CHOICE, and so
is that a word for which the table has no label prints as none and not as `raw:` (notes/assumptions/16.md). -/
def printValue (f : Field) (w : Word) : Option Text :=
  match f with
  | .moduleAddress => some (decimal w)
  | .netId => some (decimal w)
  | .baudRate => some (decimal w)
  | .parity => labelOf parityLabels w
  | .airSpeed => labelOf airLabels w
  | .packetLen => some (decimal w)
  | .enableAmbientNoise => labelOf flagLabels w
  | .transmitPower => some (decimal w ++ "dBm".toList)
  | .channel => some (decimal w)
  | .enableRssiByte => labelOf flagLabels w
  | .enablePointToPointMode => labelOf flagLabels w
  | .enableRelayFunction => labelOf flagLabels w
  | .enableLbt => labelOf flagLabels w
  | .worMode => labelOf worModeLabels w
  | .worPeriod => some (decimal w)
  | .key => some (decimal w)

/-! ### Lines -/

/-- The double quote. -/
def quoteMark : Char := Char.ofNat 34

/-- A line without its comment: "A `;` starts a comment" (R119), outside a quoted string. -/
def uncomment (quoted : Bool) : Text → Text
  | [] => []
  | c :: cs =>
    if c = ';' ∧ quoted = false then []
    else c :: uncomment (if c = quoteMark then !quoted else quoted) cs

/-- Space, tab and comma separate the words of a line. -/
def isSeparator (c : Char) : Bool := decide (c = ' ') || decide (c = '\t') || decide (c = ',')

/-- A word, if there is one, before the words that follow it. -/
def consWord (w : Text) (ws : List Text) : List Text := if w.isEmpty then ws else w :: ws

/-- The words of a line; `cur` is the word being read, last character first. -/
def wordsFrom (cur : Text) : Text → List Text
  | [] => consWord cur.reverse []
  | c :: cs => if isSeparator c then consWord cur.reverse (wordsFrom [] cs) else wordsFrom (c :: cur) cs

/-- The words of a line. -/
def lineWords (t : Text) : List Text := wordsFrom [] t

/-- The characters after the first double quote. -/
def afterQuote : Text → Option Text
  | [] => none
  | c :: cs => if c = quoteMark then some cs else afterQuote cs

/-- The characters before the next double quote. -/
def beforeQuote : Text → Option Text
  | [] => none
  | c :: cs => if c = quoteMark then some [] else (beforeQuote cs).map (fun t => c :: t)

/-- The text between the first two double quotes of a line. R120 gives only `TEXT "..."`; that whatever stands between the word
`TEXT` and the quoted string, or after it, is accepted and ignored, and that a string has no escapes, is a DESIGN CHOICE
(notes/assumptions/16.md). -/
def quotedText (t : Text) : Option Text := (afterQuote t).bind beforeQuote

/-- The operations (R119): the words of each, and its code (R91). -/
def operationLines : List (List Text × Byte) :=
  [(["RENC.SET".toList], 0x01), (["RENC.ANS".toList], 0x02), (["RDEC".toList], 0x03),
   (["ELUT.V2C".toList, "baud_rate".toList], 0x22), (["ELUT.V2C".toList, "parity".toList], 0x23),
   (["ELUT.V2C".toList, "air_speed".toList], 0x24), (["ELUT.V2C".toList, "packet_len".toList], 0x25),
   (["ELUT.V2C".toList, "transmit_power".toList], 0x27), (["ELUT.V2C".toList, "wor_period".toList], 0x2E),
   (["ELUT.C2V".toList, "baud_rate".toList], 0x32), (["ELUT.C2V".toList, "parity".toList], 0x33),
   (["ELUT.C2V".toList, "air_speed".toList], 0x34), (["ELUT.C2V".toList, "packet_len".toList], 0x35),
   (["ELUT.C2V".toList, "transmit_power".toList], 0x37), (["ELUT.C2V".toList, "wor_period".toList], 0x3E),
   (["MENC.T".toList], 0x40), (["MENC.B".toList], 0x41), (["MENC.V".toList], 0x42),
   (["MDEC.T".toList], 0x48), (["MDEC.B".toList], 0x49), (["MDEC.V".toList], 0x4A), (["MDEC.VN".toList], 0x4B)]

/-- The code of an operation's words. -/
def operationCode (ws : List Text) : Option Byte :=
  (operationLines.find? (fun l => decide (l.1 = ws))).map Prod.snd

/-- A length for a `SET` of a length register. -/
def countLiteral (t : Text) : Option Nat := number t

/-- `SET name, literal` (R120): a field takes its literal. That every other register, `LV` among them, takes a number of its width
and no label is a DESIGN CHOICE (notes/assumptions/16.md). `STATUS` and `EINFO` can be asked for and are refused (R272). -/
def setLine (name value : Text) : Option RegWrite :=
  match fieldOfName name with
  | some f => (fieldLiteral f value).map (RegWrite.x f)
  | none =>
    if name = "CMD".toList then (numberOf 8 value).map RegWrite.cmd
    else if name = "SREG".toList then (numberOf 8 value).map RegWrite.sreg
    else if name = "DLEN".toList then (numberOf 8 value).map RegWrite.dlen
    else if name = "LV".toList then (numberOf 32 value).map RegWrite.lv
    else if name = "LC".toList then (numberOf 8 value).map RegWrite.lc
    else if name = "TOPIC".toList then (numberOf 8 value).map RegWrite.topic
    else if name = "SENDER".toList then (numberOf 16 value).map RegWrite.sender
    else if name = "NEXP".toList then (numberOf 32 value).map RegWrite.nexp
    else if name = "FLEN".toList then (countLiteral value).map RegWrite.flen
    else if name = "MLEN".toList then (countLiteral value).map RegWrite.mlen
    else if name = "BLEN".toList then (countLiteral value).map RegWrite.blen
    else if name = "WLEN".toList then (countLiteral value).map RegWrite.wlen
    else if name = "STATUS".toList then (numberOf 8 value).map RegWrite.status
    else if name = "EINFO".toList then (numberOf 8 value).map RegWrite.einfo
    else none

/-- The two sides of the first `=`. -/
def splitEquals : Text → Option (Text × Text)
  | [] => none
  | c :: cs => if c = '=' then some ([], cs) else (splitEquals cs).map (fun p => (c :: p.1, p.2))

/-- One `field=value` of a `CFG`. -/
def assignment (t : Text) : Option (Field × Word) :=
  (splitEquals t).bind (fun p =>
    (fieldOfName p.1).bind (fun f => (fieldLiteral f p.2).map (fun w => (f, w))))

/-- `CFG`: "all 16 fields, any order", "sixteen `SET` actions, one per field" (R121). That the actions stand in the order written,
that no space stands beside `=`, and that a `CFG` with a field missing or written twice has no reading is a DESIGN CHOICE
(notes/assumptions/16.md). -/
def cfgLine (args : List Text) : Option (List Request) :=
  (args.mapM assignment).bind (fun as =>
    if as.length = 16 ∧ allFields.all (fun f => as.any (fun a => decide (a.1 = f))) then
      some (as.map (fun a => Request.set (.x a.1 a.2)))
    else none)

/-- A content type's `vector(N)`. -/
def vectorCount (t : Text) : Option Text :=
  (afterPrefix "vector(".toList t).bind (fun r =>
    if r.getLast? = some ')' then some r.dropLast else none)

/-- `MENC type` (R121): `vector(N)` is `MENC.V`; that its N must be a number and is not compared with `WLEN` is a DESIGN CHOICE
(notes/assumptions/16.md). -/
def mencLine (t : Text) : Option (List Request) :=
  if t = "text".toList then some [.op 0x40#8]
  else if t = "blob".toList then some [.op 0x41#8]
  else if t = "vector".toList then some [.op 0x42#8]
  else (vectorCount t).bind (fun n => (number n).map (fun _ => [Request.op 0x42#8]))

/-- `MDEC type` (R121): `vector(N)` is `SET NEXP, N` then `MDEC.VN`. -/
def mdecLine (t : Text) : Option (List Request) :=
  if t = "text".toList then some [.op 0x48#8]
  else if t = "blob".toList then some [.op 0x49#8]
  else if t = "vector".toList then some [.op 0x4A#8]
  else (vectorCount t).bind (fun n => (numberOf 32 n).map (fun w => [Request.set (.nexp w), Request.op 0x4B#8]))

/-- The code point of a character: a Unicode scalar value. -/
def charWord (c : Char) : Word := BitVec.ofNat 32 c.toNat

/-- The requests of a keyword line: a host action (R120) or a pseudo-instruction (R121). `line` is the line without its
comment, for the quoted string of `TEXT`. -/
def keywordLine (line : Text) (keyword : Text) (args : List Text) : Option (List Request) :=
  if keyword = "SET".toList then
    match args with
    | [name, value] => (setLine name value).map (fun w => [Request.set w])
    | _ => none
  else if keyword = "FRAME".toList then (args.mapM hexByte).map (fun bs => [Request.frame bs])
  else if keyword = "MSG".toList then (args.mapM hexByte).map (fun bs => [Request.msg bs])
  else if keyword = "BLOB".toList then (args.mapM hexByte).map (fun bs => [Request.blob bs])
  else if keyword = "TEXT".toList then (quotedText line).map (fun t => [Request.text (t.map charWord)])
  else if keyword = "VEC".toList then (args.mapM (numberOf 32)).map (fun ws => [Request.vec ws])
  else if keyword = "EXPECT".toList then some [.expect]
  else if keyword = "CFG".toList then cfgLine args
  else if keyword = "RENC".toList then
    if args = ["set".toList] then some [.op 0x01#8]
    else if args = ["answer".toList] then some [.op 0x02#8]
    else none
  else if keyword = "ROUNDTRIP".toList then
    if args.isEmpty then some [.op 0x01#8, .op 0x03#8] else none
  else if keyword = "MENC".toList then
    match args with
    | [t] => mencLine t
    | _ => none
  else if keyword = "MDEC".toList then
    match args with
    | [t] => mdecLine t
    | _ => none
  else none

/-- The requests that one line of a listing stands for. An empty line or a comment alone stands for the empty list of requests; a
line outside the syntax has no reading (none). Both are a DESIGN CHOICE (notes/assumptions/16.md). -/
def parseLine (t : Text) : Option (List Request) :=
  let line := uncomment false t
  match lineWords line with
  | [] => some []
  | keyword :: args =>
    match operationCode (keyword :: args) with
    | some code => some [.op code]
    | none => keywordLine line keyword args

/-- The requests of a listing, line after line. The spec does not say what a listing with a line outside the syntax stands for; that
the whole listing then has no reading (none), its good lines too, is a DESIGN CHOICE (notes/assumptions/16.md). -/
def parseLines : List Text → Option (List Request)
  | [] => some []
  | l :: ls => (parseLine l).bind (fun rs => (parseLines ls).map (fun rest => rs ++ rest))

end Sys2Proof.Machine
end

