-- ==== Sys2Proof/Safety.lean ====
section
/-! DEFINITION. The terms claims use: which instructions are operations of the block, when an operation's operands are written
(70_reset_and_hazards.md R292), a safe step, the invariants of the state, and which `STATUS` an operation can end with
(60_exceptions.md R265). -/

namespace Sys2Proof.Machine

/-- The 22 operations of 30_encoding.md R91; the four wire formats are no operations. -/
def operations : List Instr :=
  [.rencSet, .rencAns, .rdec,
   .elutV2cBaudRate, .elutV2cParity, .elutV2cAirSpeed, .elutV2cPacketLen, .elutV2cTransmitPower, .elutV2cWorPeriod,
   .elutC2vBaudRate, .elutC2vParity, .elutC2vAirSpeed, .elutC2vPacketLen, .elutC2vTransmitPower, .elutC2vWorPeriod,
   .mencT, .mencB, .mencV, .mdecT, .mdecB, .mdecV, .mdecVn]

/-- The operations of the message envelope unit (00_scope.md R2, R3). -/
def messageOperations : List Instr := [.mencT, .mencB, .mencV, .mdecT, .mdecB, .mdecV, .mdecVn]

/-- The operations of the register command unit, the lookups among them (R2, R3). -/
def registerOperations : List Instr := operations.filter (fun i => !messageOperations.contains i)

/-- `ELUT.V2C f` (R91). -/
def elutV2c : TableField → Instr
  | .baudRate => .elutV2cBaudRate
  | .parity => .elutV2cParity
  | .airSpeed => .elutV2cAirSpeed
  | .packetLen => .elutV2cPacketLen
  | .transmitPower => .elutV2cTransmitPower
  | .worPeriod => .elutV2cWorPeriod

/-- `ELUT.C2V f` (R91). -/
def elutC2v : TableField → Instr
  | .baudRate => .elutC2vBaudRate
  | .parity => .elutC2vParity
  | .airSpeed => .elutC2vAirSpeed
  | .packetLen => .elutC2vPacketLen
  | .transmitPower => .elutC2vTransmitPower
  | .worPeriod => .elutC2vWorPeriod

/-- A buffer is written: "the length and every element below the length have been written" (10_state.md R25). -/
def bufferWritten {α : Type} (m : List (Nat × α)) (len : Nat) : Bool := (Memory.readList m 0 len).isSome

/-- What "must be written beforehand" (70_reset_and_hazards.md R292). A wire format that reaches the block needs nothing. -/
def Ready (i : Instr) (s : State) : Bool :=
  match i with
  | .rencSet => allFields.all (fun f => (s.x.get f).written)
  | .rencAns => allFields.all (fun f => (s.x.get f).written)
  | .rdec => bufferWritten s.fb s.flen
  | .elutV2cBaudRate => s.lv.written
  | .elutV2cParity => s.lv.written
  | .elutV2cAirSpeed => s.lv.written
  | .elutV2cPacketLen => s.lv.written
  | .elutV2cTransmitPower => s.lv.written
  | .elutV2cWorPeriod => s.lv.written
  | .elutC2vBaudRate => s.lc.written
  | .elutC2vParity => s.lc.written
  | .elutC2vAirSpeed => s.lc.written
  | .elutC2vPacketLen => s.lc.written
  | .elutC2vTransmitPower => s.lc.written
  | .elutC2vWorPeriod => s.lc.written
  | .mencT => s.topic.written && s.sender.written && bufferWritten s.wb s.wlen
  | .mencB => s.topic.written && s.sender.written && bufferWritten s.bb s.blen
  | .mencV => s.topic.written && s.sender.written && bufferWritten s.wb s.wlen
  | .mdecT => bufferWritten s.mb s.mlen
  | .mdecB => bufferWritten s.mb s.mlen
  | .mdecV => bufferWritten s.mb s.mlen
  | .mdecVn => s.nexp.written && bufferWritten s.mb s.mlen
  | .cfSet _ => true
  | .cfAns _ => true
  | .cfPset _ => true
  | .me _ _ _ => true

/-- A safe step: the next request is not refused. An error outcome is safe, it does not end a run (70_reset_and_hazards.md R304). -/
def SafeStep (s : State) : Prop := ∃ t, step s = .next t

/-- The four buffers are in canonical form. -/
def BuffersCanonical (s : State) : Prop := Memory.wf s.fb ∧ Memory.wf s.mb ∧ Memory.wf s.bb ∧ Memory.wf s.wb

/-- Every length is within its buffer's capacity and every written element lies below it (10_state.md R30, R35 to R37,
20_memory.md R60). -/
def WithinCapacity (p : Params) (s : State) : Prop :=
  (s.flen ≤ p.fbMax ∧ ∀ c ∈ s.fb, c.1 < p.fbMax) ∧
  (mbFits p s.mlen = true ∧ ∀ c ∈ s.mb, mbFits p (c.1 + 1) = true) ∧
  (p.content.fits s.blen = true ∧ ∀ c ∈ s.bb, p.content.fits (c.1 + 1) = true) ∧
  (p.content.fits s.wlen = true ∧ ∀ c ∈ s.wb, p.content.fits (c.1 + 1) = true)

/-- The pairs of `STATUS` and `EINFO` that operations produce (10_state.md R26, R27). -/
def statusLegal (status einfo : Byte) : Bool :=
  match status.toNat with
  | 0 => decide (einfo = 0x00#8)
  | 1 => decide (einfo ≤ 0x12#8)
  | 2 => decide (einfo ≠ 12#8)
  | 3 => decide (einfo ≠ 0xC2#8) && decide (einfo ≠ 0xC1#8) && decide (einfo ≠ 0xC0#8)
  | 4 => decide (einfo = 0x01#8) || decide (einfo = 0x02#8) || decide (einfo = 0x03#8)
  | _ => false

/-- "Which operation can end with which `STATUS`" (60_exceptions.md R265). -/
def mayEndWith (i : Instr) (status : Byte) : Bool :=
  match i with
  | .rdec => [0x00#8, 0x01#8, 0x02#8, 0x03#8].contains status
  | .mdecT => [0x00#8, 0x04#8].contains status
  | .mdecB => [0x00#8, 0x04#8].contains status
  | .mdecV => [0x00#8, 0x04#8].contains status
  | .mdecVn => [0x00#8, 0x04#8].contains status
  | _ => [0x00#8, 0x01#8].contains status

/-- A register with the value that is under an unwritten flag taken out. -/
def Reg.scrub {w : Nat} (r : Reg w) : Reg w := if r.written then r else Reg.unwritten w

/-- The configuration file with every value under an unwritten flag taken out. -/
def RegFile.scrub (x : RegFile) : RegFile :=
  { moduleAddress := x.moduleAddress.scrub
    netId := x.netId.scrub
    baudRate := x.baudRate.scrub
    parity := x.parity.scrub
    airSpeed := x.airSpeed.scrub
    packetLen := x.packetLen.scrub
    enableAmbientNoise := x.enableAmbientNoise.scrub
    transmitPower := x.transmitPower.scrub
    channel := x.channel.scrub
    enableRssiByte := x.enableRssiByte.scrub
    enablePointToPointMode := x.enablePointToPointMode.scrub
    enableRelayFunction := x.enableRelayFunction.scrub
    enableLbt := x.enableLbt.scrub
    worMode := x.worMode.scrub
    worPeriod := x.worPeriod.scrub
    key := x.key.scrub }

/-- A state with every value under an unwritten flag taken out: what the spec gives the state (10_state.md R25). -/
def State.scrub (s : State) : State :=
  { s with
    x := s.x.scrub
    cmd := s.cmd.scrub
    sreg := s.sreg.scrub
    dlen := s.dlen.scrub
    lv := s.lv.scrub
    lc := s.lc.scrub
    topic := s.topic.scrub
    sender := s.sender.scrub
    nexp := s.nexp.scrub }

/-- An outcome with the same taken out of its next state. -/
def scrubOutcome (o : Outcome) : Outcome :=
  match o with
  | .next t => .next t.scrub
  | .fault r => .fault r
  | .refused r => .refused r

/-- Registers and buffer elements written in `s` are written in `t` (10_state.md R25). -/
def KeepsWritten (s t : State) : Prop :=
  (∀ f, (s.x.get f).written = true → (t.x.get f).written = true) ∧
  (s.cmd.written = true → t.cmd.written = true) ∧
  (s.sreg.written = true → t.sreg.written = true) ∧
  (s.dlen.written = true → t.dlen.written = true) ∧
  (s.lv.written = true → t.lv.written = true) ∧
  (s.lc.written = true → t.lc.written = true) ∧
  (s.topic.written = true → t.topic.written = true) ∧
  (s.sender.written = true → t.sender.written = true) ∧
  (s.nexp.written = true → t.nexp.written = true) ∧
  (∀ a, (Memory.read s.fb a).isSome = true → (Memory.read t.fb a).isSome = true) ∧
  (∀ a, (Memory.read s.mb a).isSome = true → (Memory.read t.mb a).isSome = true) ∧
  (∀ a, (Memory.read s.bb a).isSome = true → (Memory.read t.bb a).isSome = true) ∧
  (∀ a, (Memory.read s.wb a).isSome = true → (Memory.read t.wb a).isSome = true)

end Sys2Proof.Machine
end

