-- ==== Sys2Proof/Certificates/Slice0/Obligations.lean ====
section
/-! DEFINITION. The statements for the provers, in the order of OBLIGATIONS.json. Each docstring cites the rules of spec/ that the
statement formalises. -/

open Sys2Proof Sys2Proof.Machine

/-! ### Encodings -/

/-- The words of 30_encoding.md R91 and R97 decode to what they stand for. Word by word from the tables; the frame is the
document's vector 1, whose fields R98, R100 and R101 read. -/
def Obligations.TableWordsDecode : Prop :=
  decodeTableWord 8 0x01 = some .rencSet ∧
  decodeTableWord 8 0x03 = some .rdec ∧
  decodeTableWord 8 0x22 = some .elutV2cBaudRate ∧
  decodeTableWord 8 0x3E = some .elutC2vWorPeriod ∧
  decodeTableWord 8 0x40 = some .mencT ∧
  decodeTableWord 8 0x4B = some .mdecVn ∧
  decodeTableWord 8 0x26 = none ∧
  decodeTableWord 96 0xC20009010203620012030000 =
    some (.cfSet ⟨258, 3, 3, 0, 2, 0, 0, 0, 18, 0, 0, 0, 0, 0, 3, 0⟩)

/-- Decoding the encoded word of a well-formed instruction gives the instruction back, for every value of every operand
(R91, R97, R104). -/
def Obligations.DecodeOfEncode : Prop :=
  ∀ i : Instr, i.wf = true → decode (encode i) = .ok i

/-- Every word that decodes is the word of exactly the instruction it decodes to, which is well formed: no two words have one
meaning (R91, R97, R104). -/
def Obligations.EncodeOfDecode : Prop :=
  ∀ (r : Request) (i : Instr), decode r = .ok i → encode i = r ∧ i.wf = true

/-- The codes of R91 in the table's order. -/
def definedCodes : List Byte :=
  [0x01, 0x02, 0x03, 0x22, 0x23, 0x24, 0x25, 0x27, 0x2E, 0x32, 0x33, 0x34, 0x35, 0x37, 0x3E,
   0x40, 0x41, 0x42, 0x48, 0x49, 0x4A, 0x4B]

/-- R92: every code that R91 does not list is refused, and there are 234 of them. A refusal has no next state, so nothing is
written. -/
def Obligations.ReservedCodeIsRefused : Prop :=
  (∀ (s : State) (code : Byte) (rest : List Request), code ∉ definedCodes →
    step { s with pending := .op code :: rest } = .refused (.reservedCode code)) ∧
  ((List.range 256).filter (fun n => !definedCodes.contains (BitVec.ofNat 8 n))).length = 234

/-! ### Steps -/

/-- When the next request's bytes decode to an instruction, the step is that instruction's meaning on the state without the
request (20_memory.md R72, 70_reset_and_hazards.md R304). -/
def Obligations.StepRunsDecodedInstr : Prop :=
  ∀ (s : State) (r : Request) (rest : List Request) (i : Instr),
    s.pending = r :: rest → decode r = .ok i → step s = exec i { s with pending := rest }

/-- A word of the opcode table that is presented to the machine runs at the very next step. That presenting puts the word at
the head of the pending requests is the model's choice (notes/assumptions/6.md). -/
def Obligations.PresentedWordRunsNext : Prop :=
  ∀ (s : State) (nbits w : Nat) (i : Instr),
    decodeTableWord nbits w = some i → step (s.withFetchWord nbits w) = exec i s

/-- A request that is no instruction is a host action; with no request left the step changes nothing, which is the model's
reading of "the block waits for the host's first request" (R291; notes/assumptions/5.md). -/
def Obligations.StepServesHostActions : Prop :=
  (∀ (s : State) (r : Request) (rest : List Request) (e : DecodeError),
    s.pending = r :: rest → decode r = .error e →
      step s = hostRequest Config.params r { s with pending := rest }) ∧
  (∀ s : State, s.pending = [] → step s = .next s)

/-! ### Reset -/

/-- R42 and R290: what reset leaves, in the reset state and after a reset that the host applies. The value that an unwritten
register holds is not stated. Two clauses are the model's reading and no rule: that an element whose contents R42 leaves
unspecified counts as unwritten (notes/assumptions/2.md), and that reset keeps the host's pending requests
(`t.pending = rest`, notes/assumptions/13.md). -/
def Obligations.ResetLeaves : Prop :=
  (∀ t : State, t = State.reset ∨ (∃ (s : State) (rest : List Request), s.pending = .reset :: rest ∧ step s = .next t) →
    t.status = 0x00#8 ∧ t.einfo = 0x00#8 ∧
    t.flen = 0 ∧ t.mlen = 0 ∧ t.blen = 0 ∧ t.wlen = 0 ∧
    (∀ f, (t.x.get f).written = false) ∧
    t.cmd.written = false ∧ t.sreg.written = false ∧ t.dlen.written = false ∧
    t.lv.written = false ∧ t.lc.written = false ∧
    t.topic.written = false ∧ t.sender.written = false ∧ t.nexp.written = false ∧
    (∀ a, Memory.read t.fb a = none) ∧ (∀ a, Memory.read t.mb a = none) ∧
    (∀ a, Memory.read t.bb a = none) ∧ (∀ a, Memory.read t.wb a = none)) ∧
  (∀ (s : State) (rest : List Request), s.pending = .reset :: rest →
    ∃ t, step s = .next t ∧ t.pending = rest)

/-- R291: `RDEC` straight after reset ends with `MalformedFrame`, `RENC.SET` straight after reset is refused. -/
def Obligations.FirstOperationAfterReset : Prop :=
  exec .rdec State.reset = .next { State.reset with status := 0x02#8, einfo := 0x00#8 } ∧
  (∃ f, exec .rencSet State.reset = .refused (.unwrittenRegister (.x f)))

/-! ### Field tables -/

/-- R178: `v2c(f, w)` is defined exactly when `valid(f, w)`, and its code fits the field's width. -/
def Obligations.CodeDefinedIffValid : Prop :=
  ∀ (f : TableField) (w : Word),
    ((v2c f w).isSome = valid (tableField f) w) ∧ (∀ c, v2c f w = some c → c.toNat < 2 ^ codeWidth f)

/-- R180 (d) to (f): `c2v` is total on the codes of the field's width and on no others; the two directions undo each other but
for parity code 3, which gives code 0. -/
def Obligations.TablesUndoEachOther : Prop :=
  (∀ (f : TableField) (c : Byte), (c2v f c).isSome = decide (c.toNat < 2 ^ codeWidth f)) ∧
  (∀ (f : TableField) (w : Word) (c : Byte), v2c f w = some c → c2v f c = some w) ∧
  (∀ (f : TableField) (c : Byte) (w : Word), c2v f c = some w →
    v2c f w = some (if f = .parity ∧ c = 3#8 then 0#8 else c))

/-- The rows of R171 to R176 that hold in both directions, as value word and code. -/
def listedRows : TableField → List (Word × Byte)
  | .baudRate => [(1200, 0), (2400, 1), (4800, 2), (9600, 3), (19200, 4), (38400, 5), (57600, 6), (115200, 7)]
  | .parity => [(0x00384E31, 0), (0x00384F31, 1), (0x00384531, 2)]
  | .airSpeed => [(3, 0), (12, 1), (24, 2), (48, 3), (96, 4), (192, 5), (384, 6), (625, 7)]
  | .packetLen => [(240, 0), (128, 1), (64, 2), (32, 3)]
  | .transmitPower => [(22, 0), (17, 1), (12, 2), (10, 3)]
  | .worPeriod => [(500, 0), (1000, 1), (1500, 2), (2000, 3), (2500, 4), (3000, 5), (3500, 6), (4000, 7)]

/-- R171 to R176 with R178 and R179: for every word and every byte, `v2c` gives exactly the listed rows, and `c2v` gives them and
8N1 for parity code 3; the WOR-period rows are `value = 500 * (code + 1)`. -/
def Obligations.FieldTableRows : Prop :=
  (∀ (f : TableField) (w : Word) (c : Byte),
    (v2c f w = some c ↔ (w, c) ∈ listedRows f) ∧
    (c2v f c = some w ↔ (w, c) ∈ listedRows f ∨ (f = .parity ∧ c = 3#8 ∧ w = 0x00384E31#32))) ∧
  (∀ r ∈ listedRows .worPeriod, r.1.toNat = 500 * (r.2.toNat + 1))

/-! ### Enumeration lookups -/

/-- R187, `ELUT.V2C f`, all six: refused while `LV` is unwritten; the code of a valid `LV` in `LC`; `InvalidField` with the field
id, and nothing else written, for any other `LV`. -/
def Obligations.LookupCodeRule : Prop :=
  ∀ (f : TableField) (s : State),
    (s.lv.written = false → exec (elutV2c f) s = .refused (.unwrittenRegister .lv)) ∧
    (s.lv.written = true → valid (tableField f) s.lv.value = true →
      ∃ c, v2c f s.lv.value = some c ∧ c2v f c = some s.lv.value ∧ c.toNat < 2 ^ codeWidth f ∧ (f = .parity → c ≠ 3#8) ∧
        exec (elutV2c f) s = .next { s with lc := ⟨c, true⟩, status := 0x00#8, einfo := 0x00#8 }) ∧
    (s.lv.written = true → valid (tableField f) s.lv.value = false →
      exec (elutV2c f) s = .next { s with status := 0x01#8, einfo := fieldInfo (tableField f) })

/-- R188, `ELUT.C2V f`, all six: refused while `LC` is unwritten; the value word of a code below 2^N in `LV` (for parity code 3
that of 8N1); `InvalidField` with the field id, and nothing else written, for any other code. -/
def Obligations.LookupWordRule : Prop :=
  ∀ (f : TableField) (s : State),
    (s.lc.written = false → exec (elutC2v f) s = .refused (.unwrittenRegister .lc)) ∧
    (s.lc.written = true → s.lc.value.toNat < 2 ^ codeWidth f →
      ∃ w, c2v f s.lc.value = some w ∧ valid (tableField f) w = true ∧
        v2c f w = some (if f = .parity ∧ s.lc.value = 3#8 then 0#8 else s.lc.value) ∧
        (f = .parity → s.lc.value = 3#8 → w = 0x00384E31#32) ∧
        exec (elutC2v f) s = .next { s with lv := ⟨w, true⟩, status := 0x00#8, einfo := 0x00#8 }) ∧
    (s.lc.written = true → 2 ^ codeWidth f ≤ s.lc.value.toNat →
      exec (elutC2v f) s = .next { s with status := 0x01#8, einfo := fieldInfo (tableField f) })

/-- R189, first two sentences, over the machine: forward then backward leaves a valid `LV` unchanged; backward then forward
leaves `LC` unchanged, except for parity code 3, which becomes 0. -/
def Obligations.LookupRoundTrip : Prop :=
  (∀ (f : TableField) (s : State), s.lv.written = true → valid (tableField f) s.lv.value = true →
    ∃ t u, exec (elutV2c f) s = .next t ∧ exec (elutC2v f) t = .next u ∧
      u.status = 0x00#8 ∧ u.lv = s.lv) ∧
  (∀ (f : TableField) (s : State), s.lc.written = true → s.lc.value.toNat < 2 ^ codeWidth f →
    ∃ t u, exec (elutC2v f) s = .next t ∧ exec (elutV2c f) t = .next u ∧ u.status = 0x00#8 ∧
      u.lc = (if f = .parity ∧ s.lc.value = 3#8 then ⟨0#8, true⟩ else s.lc))

/-! ### Register command unit -/

/-- The two encoders and their headers (R132, R133). -/
def isEncoder (i : Instr) (header : Byte) : Prop :=
  (i = .rencSet ∧ header = 0xC2#8) ∨ (i = .rencAns ∧ header = 0xC1#8)

/-- R131 to R133, success: with every register written and valid the encoder writes the twelve bytes of R131's formulas to
`FB[0..11]`, 12 to `FLEN`, and nothing else; `FB[12..]` is left as it was. -/
def Obligations.EncodeConfigWritesFrame : Prop :=
  ∀ (i : Instr) (header : Byte) (s : State), isEncoder i header →
    (∀ f, (s.x.get f).written = true) → (∀ f, valid f (s.x.get f).value = true) →
    ∃ (baud parity air packet power wor : Byte) (t : State),
      v2c .baudRate s.x.baudRate.value = some baud ∧ v2c .parity s.x.parity.value = some parity ∧
      v2c .airSpeed s.x.airSpeed.value = some air ∧ v2c .packetLen s.x.packetLen.value = some packet ∧
      v2c .transmitPower s.x.transmitPower.value = some power ∧ v2c .worPeriod s.x.worPeriod.value = some wor ∧
      exec i s = .next t ∧
      Memory.readList t.fb 0 12 = some
        [header, 0x00#8, 0x09#8,
         BitVec.ofNat 8 (s.x.moduleAddress.value.toNat / 256), BitVec.ofNat 8 s.x.moduleAddress.value.toNat,
         BitVec.ofNat 8 s.x.netId.value.toNat,
         (baud <<< 5) ||| (parity <<< 3) ||| air,
         (packet <<< 6) ||| (BitVec.ofNat 8 s.x.enableAmbientNoise.value.toNat <<< 5) ||| power,
         BitVec.ofNat 8 s.x.channel.value.toNat,
         (BitVec.ofNat 8 s.x.enableRssiByte.value.toNat <<< 7)
           ||| (BitVec.ofNat 8 s.x.enablePointToPointMode.value.toNat <<< 6)
           ||| (BitVec.ofNat 8 s.x.enableRelayFunction.value.toNat <<< 5)
           ||| (BitVec.ofNat 8 s.x.enableLbt.value.toNat <<< 4)
           ||| (BitVec.ofNat 8 s.x.worMode.value.toNat <<< 3) ||| wor,
         BitVec.ofNat 8 (s.x.key.value.toNat / 256), BitVec.ofNat 8 s.x.key.value.toNat] ∧
      (∀ a, 12 ≤ a → Memory.read t.fb a = Memory.read s.fb a) ∧
      t = { s with fb := t.fb, flen := 12, status := 0x00#8, einfo := 0x00#8 }

/-- R134: with every register written and `f` the lowest register outside its domain, the encoder ends with `InvalidField`,
`EINFO` the index of `f`, and writes nothing else. There is no other way for an encoder to fail. -/
def Obligations.EncodeConfigReportsLowestInvalidField : Prop :=
  (∀ (i : Instr) (header : Byte) (s : State) (f : Field), isEncoder i header →
    (∀ g, (s.x.get g).written = true) → valid f (s.x.get f).value = false →
    (∀ g, (fieldInfo g).toNat < (fieldInfo f).toNat → valid g (s.x.get g).value = true) →
    exec i s = .next { s with status := 0x01#8, einfo := fieldInfo f }) ∧
  (∀ (i : Instr) (header : Byte) (s t : State), isEncoder i header → exec i s = .next t → t.status ≠ 0x00#8 →
    ∃ f, valid f (s.x.get f).value = false ∧ t.einfo = fieldInfo f ∧
      (∀ g, (fieldInfo g).toNat < (fieldInfo f).toNat → valid g (s.x.get g).value = true))

/-- R140, success: a 12-byte frame with a known header, clear reserved bits and a channel of at most 83 gives all sixteen
registers by R140's formulas, the header in `CMD`, and bytes 1 and 2, whatever they are, in `SREG` and `DLEN`. Nothing else
changes; in particular `FB` and `FLEN` do not. -/
def Obligations.DecodeConfigReadsFrame : Prop :=
  ∀ (s : State) (h sr rc ah al n r6 r7 c r9 kh kl : Byte),
    s.flen = 12 → Memory.readList s.fb 0 12 = some [h, sr, rc, ah, al, n, r6, r7, c, r9, kh, kl] →
    (h = 0xC2#8 ∨ h = 0xC1#8 ∨ h = 0xC0#8) → (r7 >>> 2) &&& 7#8 = 0#8 → c.toNat ≤ 83 →
    ∃ (baud parity air packet power wor : Word),
      c2v .baudRate (r6 >>> 5) = some baud ∧ c2v .parity ((r6 >>> 3) &&& 3#8) = some parity ∧
      c2v .airSpeed (r6 &&& 7#8) = some air ∧ c2v .packetLen (r7 >>> 6) = some packet ∧
      c2v .transmitPower (r7 &&& 3#8) = some power ∧ c2v .worPeriod (r9 &&& 7#8) = some wor ∧
      exec .rdec s = .next { s with
        x :=
          { moduleAddress := ⟨BitVec.ofNat 32 (ah.toNat * 256 + al.toNat), true⟩
            netId := ⟨BitVec.ofNat 32 n.toNat, true⟩
            baudRate := ⟨baud, true⟩
            parity := ⟨parity, true⟩
            airSpeed := ⟨air, true⟩
            packetLen := ⟨packet, true⟩
            enableAmbientNoise := ⟨BitVec.ofNat 32 ((r7 >>> 5) &&& 1#8).toNat, true⟩
            transmitPower := ⟨power, true⟩
            channel := ⟨BitVec.ofNat 32 c.toNat, true⟩
            enableRssiByte := ⟨BitVec.ofNat 32 ((r9 >>> 7) &&& 1#8).toNat, true⟩
            enablePointToPointMode := ⟨BitVec.ofNat 32 ((r9 >>> 6) &&& 1#8).toNat, true⟩
            enableRelayFunction := ⟨BitVec.ofNat 32 ((r9 >>> 5) &&& 1#8).toNat, true⟩
            enableLbt := ⟨BitVec.ofNat 32 ((r9 >>> 4) &&& 1#8).toNat, true⟩
            worMode := ⟨BitVec.ofNat 32 ((r9 >>> 3) &&& 1#8).toNat, true⟩
            worPeriod := ⟨wor, true⟩
            key := ⟨BitVec.ofNat 32 (kh.toNat * 256 + kl.toNat), true⟩ }
        cmd := ⟨h, true⟩
        sreg := ⟨sr, true⟩
        dlen := ⟨rc, true⟩
        status := 0x00#8
        einfo := 0x00#8 }

/-- R141, R143, R145, R263: the failures of `RDEC` on a written buffer, in their order: a length other than 12, an unknown
header, a reserved bit of reg7, a channel above 83. Each writes `STATUS` and `EINFO` and nothing else. -/
def Obligations.DecodeConfigFailures : Prop :=
  (∀ s : State, bufferWritten s.fb s.flen = true → s.flen ≠ 12 →
    exec .rdec s = .next { s with status := 0x02#8, einfo := if s.flen ≤ 255 then BitVec.ofNat 8 s.flen else 0xFF#8 }) ∧
  (∀ (s : State) (h sr rc ah al n r6 r7 c r9 kh kl : Byte),
    s.flen = 12 → Memory.readList s.fb 0 12 = some [h, sr, rc, ah, al, n, r6, r7, c, r9, kh, kl] →
    (h ≠ 0xC2#8 → h ≠ 0xC1#8 → h ≠ 0xC0#8 →
      exec .rdec s = .next { s with status := 0x03#8, einfo := h }) ∧
    ((h = 0xC2#8 ∨ h = 0xC1#8 ∨ h = 0xC0#8) → (r7 >>> 2) &&& 7#8 ≠ 0#8 →
      exec .rdec s = .next { s with status := 0x01#8, einfo := 0x10#8 }) ∧
    ((h = 0xC2#8 ∨ h = 0xC1#8 ∨ h = 0xC0#8) → (r7 >>> 2) &&& 7#8 = 0#8 → 83 < c.toNat →
      exec .rdec s = .next { s with status := 0x01#8, einfo := 0x08#8 }))

/-- R142: the accepted headers are exactly three. The eleven bytes after the header decode to the same registers under each of
them, only `CMD` differs; under any other header the operation ends with `UnknownHeader`, `EINFO` the byte. -/
def Obligations.HeaderDoesNotChangeFields : Prop :=
  (∀ (s s' t : State) (h h' : Byte) (body : List Byte), s.flen = 12 → s'.flen = 12 →
    Memory.readList s.fb 0 12 = some (h :: body) → Memory.readList s'.fb 0 12 = some (h' :: body) →
    exec .rdec s = .next t → t.status = 0x00#8 → (h' = 0xC2#8 ∨ h' = 0xC1#8 ∨ h' = 0xC0#8) →
    ∃ t', exec .rdec s' = .next t' ∧ t'.status = 0x00#8 ∧ t'.x = t.x ∧ t'.sreg = t.sreg ∧ t'.dlen = t.dlen ∧
      t.cmd = ⟨h, true⟩ ∧ t'.cmd = ⟨h', true⟩) ∧
  (∀ (s : State) (h : Byte) (body : List Byte), s.flen = 12 → Memory.readList s.fb 0 12 = some (h :: body) →
    h ≠ 0xC2#8 → h ≠ 0xC1#8 → h ≠ 0xC0#8 →
    exec .rdec s = .next { s with status := 0x03#8, einfo := h })

/-- R150: encode, then decode: every valid configuration comes back, with the encoder's header in `CMD`, 0x00 in `SREG` and 0x09
in `DLEN`. It follows that two valid configurations with one frame are the same. -/
def Obligations.EncodeThenDecodeConfig : Prop :=
  (∀ (i : Instr) (header : Byte) (s : State), isEncoder i header →
    (∀ f, (s.x.get f).written = true) → (∀ f, valid f (s.x.get f).value = true) →
    ∃ t u, exec i s = .next t ∧ exec .rdec t = .next u ∧ u.status = 0x00#8 ∧ u.x = s.x ∧
      u.cmd = ⟨header, true⟩ ∧ u.sreg = ⟨0x00#8, true⟩ ∧ u.dlen = ⟨0x09#8, true⟩) ∧
  (∀ (i : Instr) (header : Byte) (s s' t t' : State), isEncoder i header →
    (∀ f, (s.x.get f).written = true) → (∀ f, valid f (s.x.get f).value = true) →
    (∀ f, (s'.x.get f).written = true) → (∀ f, valid f (s'.x.get f).value = true) →
    exec i s = .next t → exec i s' = .next t' → Memory.readList t.fb 0 12 = Memory.readList t'.fb 0 12 → s.x = s'.x)

/-- R151, canonical frames: decode, then encode with the operation of the header, writes the same twelve bytes. -/
def Obligations.DecodeThenEncodeCanonicalFrame : Prop :=
  ∀ (i : Instr) (header : Byte) (s : State) (ah al n r6 r7 c r9 kh kl : Byte), isEncoder i header →
    s.flen = 12 → Memory.readList s.fb 0 12 = some [header, 0x00#8, 0x09#8, ah, al, n, r6, r7, c, r9, kh, kl] →
    (r6 >>> 3) &&& 3#8 ≠ 3#8 → (r7 >>> 2) &&& 7#8 = 0#8 → c.toNat ≤ 83 →
    ∃ t u, exec .rdec s = .next t ∧ t.status = 0x00#8 ∧ t.cmd = ⟨header, true⟩ ∧ exec i t = .next u ∧
      u.status = 0x00#8 ∧ u.flen = 12 ∧ (∀ a, Memory.read u.fb a = Memory.read s.fb a)

/-- R151's table: what re-encoding gives for any frame that `RDEC` accepts: the encoder's header, `00 09`, parity bits `00` for
parity code 3, and the other bytes as they were. -/
def Obligations.ReencodedAcceptedFrame : Prop :=
  ∀ (i : Instr) (header : Byte) (s t : State) (h sr rc ah al n r6 r7 c r9 kh kl : Byte), isEncoder i header →
    s.flen = 12 → Memory.readList s.fb 0 12 = some [h, sr, rc, ah, al, n, r6, r7, c, r9, kh, kl] →
    exec .rdec s = .next t → t.status = 0x00#8 →
    ∃ u, exec i t = .next u ∧ u.status = 0x00#8 ∧
      Memory.readList u.fb 0 12 = some
        [header, 0x00#8, 0x09#8, ah, al, n, if (r6 >>> 3) &&& 3#8 = 3#8 then r6 &&& 0xE7#8 else r6, r7, c, r9, kh, kl]

/-- R152: for every frame that `RDEC` accepts, decode, encode, decode gives the registers of the first decode; the encoded frame is
canonical under the encoder's header, and encoding what the second decode gave leaves it fixed. -/
def Obligations.DecodeEncodeDecodeIsDecode : Prop :=
  ∀ (i : Instr) (header : Byte) (s t : State), isEncoder i header → exec .rdec s = .next t → t.status = 0x00#8 →
    ∃ u v w, exec i t = .next u ∧ exec .rdec u = .next v ∧ v.status = 0x00#8 ∧ v.x = t.x ∧
      (∃ ah al n r6 r7 c r9 kh kl : Byte,
        Memory.readList u.fb 0 12 = some [header, 0x00#8, 0x09#8, ah, al, n, r6, r7, c, r9, kh, kl] ∧
        (r6 >>> 3) &&& 3#8 ≠ 3#8 ∧ (r7 >>> 2) &&& 7#8 = 0#8 ∧ c.toNat ≤ 83) ∧
      exec i v = .next w ∧ w.flen = u.flen ∧ (∀ a, Memory.read w.fb a = Memory.read u.fb a)

/-! ### Content codecs -/

/-- R231 and R232 on the spec's own examples and boundaries: the bytes of a scalar value, and sequences that are not well
formed. -/
def Obligations.Utf8Samples : Prop :=
  utf8 0x68 = [0x68] ∧ utf8 0xE9 = [0xC3, 0xA9] ∧ utf8 0x20AC = [0xE2, 0x82, 0xAC] ∧
  utf8 0x1F600 = [0xF0, 0x9F, 0x98, 0x80] ∧ utf8 0xD7FF = [0xED, 0x9F, 0xBF] ∧ utf8 0x10FFFF = [0xF4, 0x8F, 0xBF, 0xBF] ∧
  unutf8 [0xE0, 0xA0, 0x80, 0x41] = some [0x800, 0x41] ∧
  unutf8 [0x80] = none ∧ unutf8 [0xC0, 0x80] = none ∧ unutf8 [0xE0, 0x80, 0x80] = none ∧
  unutf8 [0xF0, 0x80, 0x80, 0x80] = none ∧ unutf8 [0xED, 0xA0, 0x80] = none ∧ unutf8 [0xF4, 0x90, 0x80, 0x80] = none ∧
  unutf8 [0xE2, 0x82] = none ∧ unutf8 [0x41, 0xC3, 0x28] = none

/-- R233: decoding the encoding of any string of scalar values gives the string; any byte sequence that decodes is the encoding
of what it decodes to, which is a string of scalar values. The empty string is the empty byte sequence; U+0000 and U+FEFF are
ordinary scalar values. -/
def Obligations.Utf8RoundTrip : Prop :=
  (∀ cps : List Word, (∀ c ∈ cps, scalar c = true) → unutf8 (cps.flatMap utf8) = some cps) ∧
  (∀ (bs : List Byte) (cps : List Word), unutf8 bs = some cps →
    cps.flatMap utf8 = bs ∧ ∀ c ∈ cps, scalar c = true) ∧
  unutf8 [] = some [] ∧ scalar 0x0000#32 = true ∧ scalar 0xFEFF#32 = true

/-- R240, R241: the bytes of an element in the two orders, and that `fword` and `fbytes` undo each other. -/
def Obligations.FloatBytesUndoFloatWord : Prop :=
  (∀ w : Word, fbytes .little w =
    [BitVec.ofNat 8 w.toNat, BitVec.ofNat 8 (w.toNat / 256), BitVec.ofNat 8 (w.toNat / 65536),
     BitVec.ofNat 8 (w.toNat / 16777216)]) ∧
  (∀ w : Word, fbytes .big w = (fbytes .little w).reverse) ∧
  (∀ (o : ByteOrder) (w : Word) (b0 b1 b2 b3 : Byte), fbytes o w = [b0, b1, b2, b3] ↔ fword o b0 b1 b2 b3 = w)

/-! ### Message envelope unit: the encoders -/

/-- The three bytes that `ENC_HEAD` emits (R201): topic, then the sender, low byte first (20_memory.md R63). -/
def headBytes (topic : Byte) (sender : Half) : List Byte :=
  [topic, BitVec.ofNat 8 sender.toNat, BitVec.ofNat 8 (sender.toNat / 256)]

/-- `t` is `s` after an encoder has written the message `bytes`: they stand in `MB[0..]`, their count in `MLEN`, every other byte
of `MB` and everything else is as before, and the operation is `OK`. -/
def MessageWritten (bytes : List Byte) (s t : State) : Prop :=
  Memory.readList t.mb 0 bytes.length = some bytes ∧
  (∀ a, bytes.length ≤ a → Memory.read t.mb a = Memory.read s.mb a) ∧
  t = { s with mb := t.mb, mlen := bytes.length, status := 0x00#8, einfo := 0x00#8 }

/-- The operands of `ENC_HEAD` are written and the topic is enumerated (R201). -/
def HeadReady (p : Params) (s : State) : Prop :=
  s.topic.written = true ∧ s.sender.written = true ∧
  1 ≤ s.topic.value.toNat ∧ s.topic.value.toNat ≤ p.topicCount

/-- R204, success: `MENC.T` writes the head and the UTF-8 bytes of the string. -/
def Obligations.EncodeTextWritesMessage : Prop :=
  ∀ (s : State) (cps : List Word), HeadReady Config.params s → Memory.readList s.wb 0 s.wlen = some cps →
    (∀ c ∈ cps, scalar c = true) → Config.params.content.fits (cps.flatMap utf8).length = true →
    ∃ t, exec .mencT s = .next t ∧
      MessageWritten (headBytes s.topic.value s.sender.value ++ cps.flatMap utf8) s t

/-- R205, success: `MENC.B` writes the head and the blob's bytes; it always fits. -/
def Obligations.EncodeBlobWritesMessage : Prop :=
  ∀ (s : State) (body : List Byte), HeadReady Config.params s → Memory.readList s.bb 0 s.blen = some body →
    ∃ t, exec .mencB s = .next t ∧ MessageWritten (headBytes s.topic.value s.sender.value ++ body) s t

/-- R206, success: `MENC.V` writes the head and four bytes for each element, in `NATIVE_ORDER`. -/
def Obligations.EncodeVectorWritesMessage : Prop :=
  ∀ (s : State) (ws : List Word), HeadReady Config.params s → Memory.readList s.wb 0 s.wlen = some ws →
    Config.params.content.fits (4 * s.wlen) = true →
    ∃ t, exec .mencV s = .next t ∧
      MessageWritten (headBytes s.topic.value s.sender.value ++ ws.flatMap (fbytes Config.params.nativeOrder)) s t

/-- R201, R204: the failures of the encoders. A topic that is 0 or above `TOPIC_COUNT` ends all three with `InvalidField`, 0x11,
whatever the content; with a good topic an element that is no scalar value ends `MENC.T` with `InvalidField`, 0x12. Nothing
else is written. -/
def Obligations.MessageEncoderFailures : Prop :=
  (∀ (i : Instr) (s : State), i = .mencT ∨ i = .mencB ∨ i = .mencV →
    s.topic.written = true → s.sender.written = true →
    (s.topic.value = 0#8 ∨ Config.params.topicCount < s.topic.value.toNat) →
    exec i s = .next { s with status := 0x01#8, einfo := 0x11#8 }) ∧
  (∀ (s : State) (cps : List Word), HeadReady Config.params s → Memory.readList s.wb 0 s.wlen = some cps →
    (∃ c ∈ cps, scalar c = false) →
    exec .mencT s = .next { s with status := 0x01#8, einfo := 0x12#8 })

/-- R272, third row: a message of `MENC.T` or `MENC.V` that would exceed `3 + CONTENT_MAX` bytes is refused. `CONTENT_MAX` is OPEN
and may be infinite, so the statement is made for all parameters, of which the block's are some. -/
def Obligations.OversizeMessageIsRefused : Prop :=
  (∀ (p : Params) (s : State) (cps : List Word), HeadReady p s → Memory.readList s.wb 0 s.wlen = some cps →
    (∀ c ∈ cps, scalar c = true) → p.content.fits (cps.flatMap utf8).length = false →
    settle s (encodeText p s) = .refused (.overCapacity .mb)) ∧
  (∀ (p : Params) (s : State) (ws : List Word), HeadReady p s → Memory.readList s.wb 0 s.wlen = some ws →
    p.content.fits (4 * s.wlen) = false →
    settle s (encodeVector p s) = .refused (.overCapacity .mb)) ∧
  (∀ s : State, exec .mencT s = settle s (encodeText Config.params s) ∧
    exec .mencV s = settle s (encodeVector Config.params s))

/-! ### Message envelope unit: the decoders -/

/-- `MB` holds a written message of at least three bytes with an enumerated topic (R202). -/
def MessageHeld (s : State) (topic lo hi : Byte) (rest : List Byte) : Prop :=
  Memory.readList s.mb 0 s.mlen = some (topic :: lo :: hi :: rest) ∧
  1 ≤ topic.toNat ∧ topic.toNat ≤ Config.params.topicCount

/-- `t` is `s` after a decoder has written the head and `words`: `TOPIC`, `SENDER`, `WB[0..]`, `WLEN`, every other element of `WB`
and everything else as before, and the operation is `OK`. -/
def WordsWritten (topic lo hi : Byte) (words : List Word) (s t : State) : Prop :=
  Memory.readList t.wb 0 words.length = some words ∧
  (∀ a, words.length ≤ a → Memory.read t.wb a = Memory.read s.wb a) ∧
  t = { s with
    topic := ⟨topic, true⟩
    sender := ⟨BitVec.ofNat 16 (hi.toNat * 256 + lo.toNat), true⟩
    wb := t.wb
    wlen := words.length
    status := 0x00#8
    einfo := 0x00#8 }

/-- R207: `MDEC.T` on well-formed UTF-8 writes its code points; on anything else it ends with `DeserializeError`, 0x03, and
writes nothing else. -/
def Obligations.DecodeTextRule : Prop :=
  (∀ (s : State) (topic lo hi : Byte) (cps : List Word), (∀ c ∈ cps, scalar c = true) →
    MessageHeld s topic lo hi (cps.flatMap utf8) →
    ∃ t, exec .mdecT s = .next t ∧ WordsWritten topic lo hi cps s t) ∧
  (∀ (s : State) (topic lo hi : Byte) (rest : List Byte), MessageHeld s topic lo hi rest →
    (∀ cps : List Word, (∀ c ∈ cps, scalar c = true) → cps.flatMap utf8 ≠ rest) →
    exec .mdecT s = .next { s with status := 0x04#8, einfo := 0x03#8 })

/-- R208: `MDEC.B` writes the remainder to `BB[0..]` and its length to `BLEN`; its content cannot be wrong. -/
def Obligations.DecodeBlobRule : Prop :=
  ∀ (s : State) (topic lo hi : Byte) (rest : List Byte), MessageHeld s topic lo hi rest →
    ∃ t, exec .mdecB s = .next t ∧
      Memory.readList t.bb 0 rest.length = some rest ∧
      (∀ a, rest.length ≤ a → Memory.read t.bb a = Memory.read s.bb a) ∧
      t = { s with
        topic := ⟨topic, true⟩
        sender := ⟨BitVec.ofNat 16 (hi.toNat * 256 + lo.toNat), true⟩
        bb := t.bb
        blen := rest.length
        status := 0x00#8
        einfo := 0x00#8 }

/-- R209: `MDEC.V` on a remainder of 4n bytes writes the n elements whose bytes they are; on any other length it ends with
`DeserializeError`, 0x03, and writes nothing else. -/
def Obligations.DecodeVectorRule : Prop :=
  (∀ (s : State) (topic lo hi : Byte) (ws : List Word),
    MessageHeld s topic lo hi (ws.flatMap (fbytes Config.params.nativeOrder)) →
    ∃ t, exec .mdecV s = .next t ∧ WordsWritten topic lo hi ws s t) ∧
  (∀ (s : State) (topic lo hi : Byte) (rest : List Byte), MessageHeld s topic lo hi rest →
    (rest.length % 4 = 0 → ∃ ws : List Word, ws.flatMap (fbytes Config.params.nativeOrder) = rest) ∧
    (rest.length % 4 ≠ 0 → exec .mdecV s = .next { s with status := 0x04#8, einfo := 0x03#8 }))

/-- R210: `MDEC.VN` is refused while `NEXP` is unwritten; it writes the elements when there are exactly `NEXP` of them, the
lengths compared as natural numbers; else it ends with `DeserializeError`, 0x03, and writes nothing else. -/
def Obligations.DecodeVectorNRule : Prop :=
  (∀ s : State, s.nexp.written = false → exec .mdecVn s = .refused (.unwrittenRegister .nexp)) ∧
  (∀ (s : State) (topic lo hi : Byte) (ws : List Word), s.nexp.written = true →
    MessageHeld s topic lo hi (ws.flatMap (fbytes Config.params.nativeOrder)) → ws.length = s.nexp.value.toNat →
    ∃ t, exec .mdecVn s = .next t ∧ WordsWritten topic lo hi ws s t) ∧
  (∀ (s : State) (topic lo hi : Byte) (rest : List Byte), s.nexp.written = true → MessageHeld s topic lo hi rest →
    rest.length ≠ 4 * s.nexp.value.toNat →
    exec .mdecVn s = .next { s with status := 0x04#8, einfo := 0x03#8 })

/-- R202, R203, the head failures of all four decoders, `NEXP` being written for `MDEC.VN`: fewer than three bytes end with
`DeserializeError`, 0x01; a topic byte that is not enumerated, with 0x02. Nothing else is written. -/
def Obligations.MessageHeadFailures : Prop :=
  ∀ (i : Instr) (s : State) (bytes : List Byte),
    i = .mdecT ∨ i = .mdecB ∨ i = .mdecV ∨ (i = .mdecVn ∧ s.nexp.written = true) →
    Memory.readList s.mb 0 s.mlen = some bytes →
    (s.mlen < 3 → exec i s = .next { s with status := 0x04#8, einfo := 0x01#8 }) ∧
    (∀ t : Byte, 3 ≤ s.mlen → bytes.head? = some t → (t = 0#8 ∨ Config.params.topicCount < t.toNat) →
      exec i s = .next { s with status := 0x04#8, einfo := 0x02#8 })

/-! ### Laws of the message unit -/

/-- The pairs of R211: an encoder and the decoder of the same type; `MDEC.VN` with `NEXP` the count. -/
def matchingPair (enc dec : Instr) (s : State) : Prop :=
  (enc = .mencT ∧ dec = .mdecT) ∨ (enc = .mencB ∧ dec = .mdecB) ∨ (enc = .mencV ∧ dec = .mdecV) ∨
  (enc = .mencV ∧ dec = .mdecVn ∧ s.nexp.written = true ∧ s.nexp.value.toNat = s.wlen)

/-- R211: encode, then decode as the same type: topic, sender and content come back, and the decode is `OK`. -/
def Obligations.MessageRoundTrip : Prop :=
  ∀ (enc dec : Instr) (s t : State), matchingPair enc dec s → exec enc s = .next t → t.status = 0x00#8 →
    ∃ u, exec dec t = .next u ∧ u.status = 0x00#8 ∧ u.topic = s.topic ∧ u.sender = s.sender ∧
      u.wlen = s.wlen ∧ u.blen = s.blen ∧
      (∀ a, Memory.read u.wb a = Memory.read s.wb a) ∧ (∀ a, Memory.read u.bb a = Memory.read s.bb a)

/-- R212: decode, then encode as the same type, reproduces the message. The decoded content must fit, which it does in every
state within its capacities. -/
def Obligations.MessageReverseRoundTrip : Prop :=
  ∀ (enc dec : Instr) (s t : State), (enc = .mencT ∧ dec = .mdecT) ∨ (enc = .mencB ∧ dec = .mdecB) ∨ (enc = .mencV ∧ dec = .mdecV) →
    WithinCapacity Config.params s → exec dec s = .next t → t.status = 0x00#8 →
    ∃ u, exec enc t = .next u ∧ u.status = 0x00#8 ∧ u.mlen = s.mlen ∧ (∀ a, Memory.read u.mb a = Memory.read s.mb a)

/-- R213: every sequence that any decoder accepts is accepted by `MDEC.B`. -/
def Obligations.BlobDecoderAcceptsMost : Prop :=
  ∀ (i : Instr) (s t : State), i = .mdecT ∨ i = .mdecV ∨ i = .mdecVn → exec i s = .next t → t.status = 0x00#8 →
    ∃ u, exec .mdecB s = .next u ∧ u.status = 0x00#8 ∧ u.topic = t.topic ∧ u.sender = t.sender

/-! ### Rules of the whole machine -/

/-- R25, R272 second row: an operation with an unwritten operand is refused. The one exception is R267's order: an encoder whose
content buffer is unwritten reports a bad topic first. With a good topic it too is refused. -/
def Obligations.UnwrittenOperandIsRefused : Prop :=
  ∀ (i : Instr) (s : State), i ∈ operations → Ready i s = false →
    (∃ r, exec i s = .refused (.unwrittenRegister r)) ∨ (∃ b, exec i s = .refused (.unwrittenBuffer b)) ∨
    ((i = .mencT ∨ i = .mencB ∨ i = .mencV) ∧ s.topic.written = true ∧ s.sender.written = true ∧
      (s.topic.value = 0#8 ∨ Config.params.topicCount < s.topic.value.toNat) ∧
      exec i s = .next { s with status := 0x01#8, einfo := 0x11#8 })

/-- R273, R292: with its operands written every operation answers a next state, but for the two refusals of R272's third row: the
message of `MENC.T` or of `MENC.V` whose content does not fit `CONTENT_MAX`. Nothing faults and nothing hangs. What the statement
says of the rows CF.SET, CF.ANS, CF.PSET and ME rests on no rule for an operation: that they are host actions, that the CF rows
therefore complete and that ME is refused above the capacity as a host write is (R272's last row), is the model's choice, a DESIGN
CHOICE (notes/assumptions/7.md). -/
def Obligations.ReadyInstructionCompletes : Prop :=
  ∀ (i : Instr) (s : State), Ready i s = true →
    (∃ t, exec i s = .next t) ∨
    (exec i s = .refused (.overCapacity .mb) ∧
      ((i = .mencT ∧ HeadReady Config.params s ∧ ∃ cps, Memory.readList s.wb 0 s.wlen = some cps ∧
          (∀ c ∈ cps, scalar c = true) ∧ Config.params.content.fits (cps.flatMap utf8).length = false) ∨
       (i = .mencV ∧ HeadReady Config.params s ∧ Config.params.content.fits (4 * s.wlen) = false) ∨
       (∃ topic sender content, i = .me topic sender content ∧ Config.params.content.fits content.length = false)))

/-- R266: a failed operation writes `STATUS` and `EINFO`, and nothing else. -/
def Obligations.FailureWritesOnlyStatusAndInfo : Prop :=
  ∀ (i : Instr) (s t : State), i ∈ operations → exec i s = .next t → t.status ≠ 0x00#8 →
    t = { s with status := t.status, einfo := t.einfo }

/-- R265: which operation can end with which `STATUS`. -/
def Obligations.StatusOfEachOperation : Prop :=
  ∀ (i : Instr) (s t : State), i ∈ operations → exec i s = .next t → mayEndWith i t.status = true

/-- R26, R27: every step keeps `STATUS` and `EINFO` a pair that operations produce; in particular `STATUS` codes above 0x04 are
never produced. -/
def Obligations.StepKeepsStatusLegal : Prop :=
  ∀ s t : State, statusLegal s.status s.einfo = true → step s = .next t → statusLegal t.status t.einfo = true

/-- Every step keeps the four buffers in canonical form, and within their capacities (R30, R35 to R37, R60, R61). -/
def Obligations.StepKeepsBuffers : Prop :=
  ∀ s t : State, BuffersCanonical s → WithinCapacity Config.params s → step s = .next t →
    BuffersCanonical t ∧ WithinCapacity Config.params t

/-- The reset state meets both invariants. -/
def Obligations.ResetMeetsInvariants : Prop :=
  statusLegal State.reset.status State.reset.einfo = true ∧ BuffersCanonical State.reset ∧
  WithinCapacity Config.params State.reset

/-- R25: "nothing makes a written register unwritten except reset", for registers and for buffer elements. -/
def Obligations.OnlyResetUnwrites : Prop :=
  ∀ s t : State, s.pending.head? ≠ some .reset → step s = .next t → KeepsWritten s t

/-- R69: the same operation issued twice on the same operands gives the same results and the same `STATUS`. -/
def Obligations.RepeatedOperationChangesNothing : Prop :=
  ∀ (i : Instr) (s t : State), exec i s = .next t → exec i t = .next t

/-- R153, R214: an operation of one unit neither reads nor writes the other unit's registers and buffers, nor does its result
depend on `STATUS` and `EINFO`: with any other contents there, it does the same and leaves them. -/
def Obligations.UnitsAreIndependent : Prop :=
  (∀ (i : Instr) (s t o : State), i ∈ messageOperations → exec i s = .next t →
    exec i { s with x := o.x, cmd := o.cmd, sreg := o.sreg, dlen := o.dlen, fb := o.fb, flen := o.flen, lv := o.lv, lc := o.lc,
                    status := o.status, einfo := o.einfo } =
      .next { t with x := o.x, cmd := o.cmd, sreg := o.sreg, dlen := o.dlen, fb := o.fb, flen := o.flen, lv := o.lv, lc := o.lc }) ∧
  (∀ (i : Instr) (s t o : State), i ∈ registerOperations → exec i s = .next t →
    exec i { s with topic := o.topic, sender := o.sender, nexp := o.nexp, mb := o.mb, mlen := o.mlen, bb := o.bb, blen := o.blen,
                    wb := o.wb, wlen := o.wlen, status := o.status, einfo := o.einfo } =
      .next { t with topic := o.topic, sender := o.sender, nexp := o.nexp, mb := o.mb, mlen := o.mlen, bb := o.bb, blen := o.blen,
                     wb := o.wb, wlen := o.wlen })

/-- R25: no instruction reads the value under an unwritten flag: taking those values out of the state before the instruction is
the same as taking them out after it. So the 0 that the model keeps there (notes/assumptions/1.md) cannot be seen. -/
def Obligations.UnwrittenValueIsNeverRead : Prop :=
  ∀ (i : Instr) (s : State), exec i s.scrub = scrubOutcome (exec i s)

/-! ### The host -/

/-- `FRAME`, `MSG`, `BLOB`, `TEXT` and `VEC` (R120) within the capacities: the listed elements stand in the buffer from offset 0,
their count in the length register; the rest of the buffer and of the state is as before. -/
def Obligations.HostFillsBuffers : Prop :=
  (∀ (bytes : List Byte) (s : State), bytes.length ≤ Config.params.fbMax →
    ∃ t, hostRequest Config.params (.frame bytes) s = .next t ∧ Memory.readList t.fb 0 bytes.length = some bytes ∧
      (∀ a, bytes.length ≤ a → Memory.read t.fb a = Memory.read s.fb a) ∧ t = { s with fb := t.fb, flen := bytes.length }) ∧
  (∀ (bytes : List Byte) (s : State), mbFits Config.params bytes.length = true →
    ∃ t, hostRequest Config.params (.msg bytes) s = .next t ∧ Memory.readList t.mb 0 bytes.length = some bytes ∧
      (∀ a, bytes.length ≤ a → Memory.read t.mb a = Memory.read s.mb a) ∧ t = { s with mb := t.mb, mlen := bytes.length }) ∧
  (∀ (bytes : List Byte) (s : State), Config.params.content.fits bytes.length = true →
    ∃ t, hostRequest Config.params (.blob bytes) s = .next t ∧ Memory.readList t.bb 0 bytes.length = some bytes ∧
      (∀ a, bytes.length ≤ a → Memory.read t.bb a = Memory.read s.bb a) ∧ t = { s with bb := t.bb, blen := bytes.length }) ∧
  (∀ (words : List Word) (s : State), Config.params.content.fits words.length = true →
    ∃ t, hostRequest Config.params (.text words) s = .next t ∧ hostRequest Config.params (.vec words) s = .next t ∧
      Memory.readList t.wb 0 words.length = some words ∧
      (∀ a, words.length ≤ a → Memory.read t.wb a = Memory.read s.wb a) ∧ t = { s with wb := t.wb, wlen := words.length })

/-- `SET` of a configuration register writes that register and nothing else (R120); `SET` of each other register that the host may
write does the same, of a length within the buffer's capacity. -/
def Obligations.HostSetWritesOneRegister : Prop :=
  (∀ (f : Field) (v : Word) (s : State), ∃ t, hostRequest Config.params (.set (.x f v)) s = .next t ∧
    t.x.get f = ⟨v, true⟩ ∧ (∀ g, g ≠ f → t.x.get g = s.x.get g) ∧ t = { s with x := t.x }) ∧
  (∀ (b : Byte) (s : State),
    hostRequest Config.params (.set (.cmd b)) s = .next { s with cmd := ⟨b, true⟩ } ∧
    hostRequest Config.params (.set (.sreg b)) s = .next { s with sreg := ⟨b, true⟩ } ∧
    hostRequest Config.params (.set (.dlen b)) s = .next { s with dlen := ⟨b, true⟩ } ∧
    hostRequest Config.params (.set (.lc b)) s = .next { s with lc := ⟨b, true⟩ } ∧
    hostRequest Config.params (.set (.topic b)) s = .next { s with topic := ⟨b, true⟩ }) ∧
  (∀ (h : Half) (w : Word) (s : State),
    hostRequest Config.params (.set (.sender h)) s = .next { s with sender := ⟨h, true⟩ } ∧
    hostRequest Config.params (.set (.lv w)) s = .next { s with lv := ⟨w, true⟩ } ∧
    hostRequest Config.params (.set (.nexp w)) s = .next { s with nexp := ⟨w, true⟩ }) ∧
  (∀ (n : Nat) (s : State),
    (n ≤ Config.params.fbMax → hostRequest Config.params (.set (.flen n)) s = .next { s with flen := n }) ∧
    (mbFits Config.params n = true → hostRequest Config.params (.set (.mlen n)) s = .next { s with mlen := n }) ∧
    (Config.params.content.fits n = true → hostRequest Config.params (.set (.blen n)) s = .next { s with blen := n }) ∧
    (Config.params.content.fits n = true → hostRequest Config.params (.set (.wlen n)) s = .next { s with wlen := n }))

/-- A host write of one element (R41, R61; that the host can write a single element is the model's reading,
notes/assumptions/12.md): below the capacity it writes that element and nothing else, elsewhere it is refused. -/
def Obligations.HostPokeWritesOneElement : Prop :=
  (∀ (a : Nat) (b : Byte) (p : Params) (s : State),
    (a < p.fbMax → ∃ t, hostRequest p (.poke (.fb a b)) s = .next t ∧
      Memory.read t.fb a = some b ∧ (∀ k, k ≠ a → Memory.read t.fb k = Memory.read s.fb k) ∧ t = { s with fb := t.fb }) ∧
    (p.fbMax ≤ a → hostRequest p (.poke (.fb a b)) s = .refused (.overCapacity .fb))) ∧
  (∀ (a : Nat) (b : Byte) (p : Params) (s : State),
    (mbFits p (a + 1) = true → ∃ t, hostRequest p (.poke (.mb a b)) s = .next t ∧
      Memory.read t.mb a = some b ∧ (∀ k, k ≠ a → Memory.read t.mb k = Memory.read s.mb k) ∧ t = { s with mb := t.mb }) ∧
    (mbFits p (a + 1) = false → hostRequest p (.poke (.mb a b)) s = .refused (.overCapacity .mb))) ∧
  (∀ (a : Nat) (b : Byte) (p : Params) (s : State),
    (p.content.fits (a + 1) = true → ∃ t, hostRequest p (.poke (.bb a b)) s = .next t ∧
      Memory.read t.bb a = some b ∧ (∀ k, k ≠ a → Memory.read t.bb k = Memory.read s.bb k) ∧ t = { s with bb := t.bb }) ∧
    (p.content.fits (a + 1) = false →
      hostRequest p (.poke (.bb a b)) s = .refused (.overCapacity .bb))) ∧
  (∀ (a : Nat) (w : Word) (p : Params) (s : State),
    (p.content.fits (a + 1) = true → ∃ t, hostRequest p (.poke (.wb a w)) s = .next t ∧
      Memory.read t.wb a = some w ∧ (∀ k, k ≠ a → Memory.read t.wb k = Memory.read s.wb k) ∧ t = { s with wb := t.wb }) ∧
    (p.content.fits (a + 1) = false →
      hostRequest p (.poke (.wb a w)) s = .refused (.overCapacity .wb)))

/-- R30, R41, R272 last row: the host may not write `STATUS` or `EINFO`, nor a length above a buffer's capacity, be it by `SET` or
as the count of `FRAME`, `MSG`, `BLOB`, `TEXT` or `VEC`, whatever the parameters. A step that serves anything but an operation
code is that request at the block's parameters. The last clause is no rule: that the row ME is the action `MSG` of its bytes is the
model's choice, a DESIGN CHOICE (notes/assumptions/7.md). -/
def Obligations.ForbiddenHostWriteIsRefused : Prop :=
  (∀ (p : Params) (s : State) (b : Byte),
    hostRequest p (.set (.status b)) s = .refused (.hostReadOnly .status) ∧
    hostRequest p (.set (.einfo b)) s = .refused (.hostReadOnly .einfo)) ∧
  (∀ (p : Params) (s : State) (n : Nat),
    (p.fbMax < n → hostRequest p (.set (.flen n)) s = .refused (.overCapacity .fb)) ∧
    (mbFits p n = false → hostRequest p (.set (.mlen n)) s = .refused (.overCapacity .mb)) ∧
    (p.content.fits n = false → hostRequest p (.set (.blen n)) s = .refused (.overCapacity .bb)) ∧
    (p.content.fits n = false → hostRequest p (.set (.wlen n)) s = .refused (.overCapacity .wb))) ∧
  (∀ (p : Params) (s : State) (bytes : List Byte),
    (p.fbMax < bytes.length → hostRequest p (.frame bytes) s = .refused (.overCapacity .fb)) ∧
    (mbFits p bytes.length = false → hostRequest p (.msg bytes) s = .refused (.overCapacity .mb)) ∧
    (p.content.fits bytes.length = false → hostRequest p (.blob bytes) s = .refused (.overCapacity .bb))) ∧
  (∀ (p : Params) (s : State) (words : List Word), p.content.fits words.length = false →
    hostRequest p (.text words) s = .refused (.overCapacity .wb) ∧
    hostRequest p (.vec words) s = .refused (.overCapacity .wb)) ∧
  (∀ (s : State) (r : Request) (rest : List Request), (∀ code, r ≠ .op code) → s.pending = r :: rest →
    step s = hostRequest Config.params r { s with pending := rest }) ∧
  (∀ (topic : Byte) (sender : Half) (content : List Byte) (s : State),
    exec (.me topic sender content) s = hostRequest Config.params (.msg (headBytes topic sender ++ content)) s)

/-- A step that serves no operation leaves `STATUS` and `EINFO` alone, unless it is reset: they are what "only operations write"
(R41). -/
def Obligations.OnlyOperationsWriteStatus : Prop :=
  ∀ (s t : State), (∀ code, s.pending.head? ≠ some (.op code)) → s.pending.head? ≠ some .reset → step s = .next t →
    t.status = s.status ∧ t.einfo = s.einfo

/-- The table's rows CF.SET, CF.ANS, CF.PSET and ME reach the block as the host actions FRAME and MSG; that this is their meaning
is the model's choice (notes/assumptions/7.md). The bytes are those of R97 and R104. -/
def Obligations.WireFormatsReachTheirBuffer : Prop :=
  (∀ (f : FrameFields) (s : State) (i : Instr) (header : Byte),
    (i = .cfSet f ∧ header = 0xC2#8) ∨ (i = .cfAns f ∧ header = 0xC1#8) ∨ (i = .cfPset f ∧ header = 0xC0#8) →
    ∃ t, exec i s = .next t ∧
      Memory.readList t.fb 0 12 = some
        [header, 0x00#8, 0x09#8, BitVec.ofNat 8 (f.address.toNat / 256), BitVec.ofNat 8 f.address.toNat, f.netId,
         BitVec.ofNat 8 (f.baud.toNat * 32 + f.parity.toNat * 8 + f.air.toNat),
         BitVec.ofNat 8 (f.packet.toNat * 64 + f.noise.toNat * 32 + f.power.toNat),
         f.channel,
         BitVec.ofNat 8 (f.rssi.toNat * 128 + f.p2p.toNat * 64 + f.relay.toNat * 32 + f.lbt.toNat * 16
           + f.worMode.toNat * 8 + f.wor.toNat),
         BitVec.ofNat 8 (f.key.toNat / 256), BitVec.ofNat 8 f.key.toNat] ∧
      (∀ a, 12 ≤ a → Memory.read t.fb a = Memory.read s.fb a) ∧ t = { s with fb := t.fb, flen := 12 }) ∧
  (∀ (topic : Byte) (sender : Half) (content : List Byte) (s : State), Config.params.content.fits content.length = true →
    ∃ t, exec (.me topic sender content) s = .next t ∧
      Memory.readList t.mb 0 (content.length + 3) = some (headBytes topic sender ++ content) ∧
      (∀ a, content.length + 3 ≤ a → Memory.read t.mb a = Memory.read s.mb a) ∧
      t = { s with mb := t.mb, mlen := content.length + 3 })

/-- R118: whatever the printed form of a value word of any field is, it is a literal of that field for that word, and every
value word of the field's domain has one. That numbers are printed in decimal is the model's choice (notes/assumptions/16.md)
and is not stated. -/
def Obligations.PrintedValueIsALiteral : Prop :=
  (∀ (f : Field) (w : Word) (t : Text), printValue f w = some t → fieldLiteral f t = some w) ∧
  (∀ (f : Field) (w : Word), valid f w = true → (printValue f w).isSome = true)

/-! ### UTF-8, row by row -/

/-- R230, R231, and R232's bytes that stand in no row: the scalar values; the bytes of every scalar value as numbers, one clause
for each row of R231; and that C0, C1 and F5 to FF do not decode anywhere. -/
def Obligations.Utf8BytesOfEachScalarValue : Prop :=
  (∀ c : Word, scalar c = true ↔ c.toNat < 0xD800 ∨ (0xE000 ≤ c.toNat ∧ c.toNat ≤ 0x10FFFF)) ∧
  (∀ c : Word, scalar c = true →
    (c.toNat ≤ 0x7F → (utf8 c).map BitVec.toNat = [c.toNat]) ∧
    (0x80 ≤ c.toNat → c.toNat ≤ 0x7FF →
      (utf8 c).map BitVec.toNat = [0xC0 + c.toNat / 64, 0x80 + c.toNat % 64]) ∧
    (0x800 ≤ c.toNat → c.toNat ≤ 0xFFFF →
      (utf8 c).map BitVec.toNat = [0xE0 + c.toNat / 4096, 0x80 + c.toNat / 64 % 64, 0x80 + c.toNat % 64]) ∧
    (0x10000 ≤ c.toNat →
      (utf8 c).map BitVec.toNat =
        [0xF0 + c.toNat / 262144, 0x80 + c.toNat / 4096 % 64, 0x80 + c.toNat / 64 % 64, 0x80 + c.toNat % 64])) ∧
  (∀ (bytes : List Byte) (b : Byte), b ∈ bytes → (b = 0xC0#8 ∨ b = 0xC1#8 ∨ 0xF5 ≤ b.toNat) → unutf8 bytes = none)
end

