-- ==== Sys2Proof/Laws/Content.lean ====
section
/-! SUPPORT. The content codecs as arithmetic: the bytes of a scalar value and the scalar value of a row of 43_content_codecs.md R232
as numbers, row by row, and that `fword` and `fbytes` use the same positions. -/

namespace Sys2Proof.Machine

/-! ### Bits as numbers -/

/-- Two bit strings side by side. -/
theorem toNat_append_mul {m n : Nat} (x : BitVec m) (y : BitVec n) : (x ++ y).toNat = x.toNat * 2 ^ n + y.toNat := by
  rw [BitVec.toNat_append, Nat.shiftLeft_eq, Nat.mul_comm, ← Nat.two_pow_add_eq_or_of_lt y.isLt]

/-- A field of a bit string. -/
theorem toNat_extract_div {w : Nat} (x : BitVec w) (start len : Nat) :
    (x.extractLsb' start len).toNat = x.toNat / 2 ^ start % 2 ^ len := by
  rw [BitVec.extractLsb'_toNat, Nat.shiftRight_eq_div_pow]

/-- The first row of R232 as numbers. -/
theorem inRange_ascii_iff {b : Byte} : inRange 0x00 0x7F b = true ↔ b.toNat ≤ 0x7F := by
  simp [inRange, BitVec.le_def]

/-- The second row of R232 as numbers. -/
theorem wellFormed2_iff {b1 b2 : Byte} : wellFormed2 b1 b2 = true ↔
    (0xC2 ≤ b1.toNat ∧ b1.toNat ≤ 0xDF) ∧ 0x80 ≤ b2.toNat ∧ b2.toNat ≤ 0xBF := by
  simp [wellFormed2, inRange, BitVec.le_def]

/-- The three-byte rows of R232 as numbers. -/
theorem wellFormed3_iff {b1 b2 b3 : Byte} : wellFormed3 b1 b2 b3 = true ↔
    ((b1.toNat = 0xE0 ∧ 0xA0 ≤ b2.toNat ∧ b2.toNat ≤ 0xBF) ∨
      (0xE1 ≤ b1.toNat ∧ b1.toNat ≤ 0xEC ∧ 0x80 ≤ b2.toNat ∧ b2.toNat ≤ 0xBF) ∨
      (b1.toNat = 0xED ∧ 0x80 ≤ b2.toNat ∧ b2.toNat ≤ 0x9F) ∨
      (0xEE ≤ b1.toNat ∧ b1.toNat ≤ 0xEF ∧ 0x80 ≤ b2.toNat ∧ b2.toNat ≤ 0xBF)) ∧
    0x80 ≤ b3.toNat ∧ b3.toNat ≤ 0xBF := by
  simp [wellFormed3, inRange, BitVec.le_def, ← BitVec.toNat_inj, and_assoc, or_assoc]

/-- The four-byte rows of R232 as numbers. -/
theorem wellFormed4_iff {b1 b2 b3 b4 : Byte} : wellFormed4 b1 b2 b3 b4 = true ↔
    ((b1.toNat = 0xF0 ∧ 0x90 ≤ b2.toNat ∧ b2.toNat ≤ 0xBF) ∨
      (0xF1 ≤ b1.toNat ∧ b1.toNat ≤ 0xF3 ∧ 0x80 ≤ b2.toNat ∧ b2.toNat ≤ 0xBF) ∨
      (b1.toNat = 0xF4 ∧ 0x80 ≤ b2.toNat ∧ b2.toNat ≤ 0x8F)) ∧
    (0x80 ≤ b3.toNat ∧ b3.toNat ≤ 0xBF) ∧ 0x80 ≤ b4.toNat ∧ b4.toNat ≤ 0xBF := by
  simp [wellFormed4, inRange, BitVec.le_def, ← BitVec.toNat_inj, and_assoc, or_assoc]

/-- A scalar value as a number (R230). -/
theorem scalar_iff {c : Word} : scalar c = true ↔ c.toNat ≤ 0xD7FF ∨ (0xE000 ≤ c.toNat ∧ c.toNat ≤ 0x10FFFF) := by
  simp [scalar, BitVec.le_def]

/-! ### The scalar value of each row -/

theorem scalar1_toNat (b1 : Byte) : (scalar1 b1).toNat = b1.toNat % 128 := by
  have := b1.isLt
  rw [scalar1, BitVec.toNat_setWidth, toNat_extract_div]
  omega

theorem scalar2_toNat (b1 b2 : Byte) : (scalar2 b1 b2).toNat = b1.toNat % 32 * 64 + b2.toNat % 64 := by
  have := b1.isLt
  have := b2.isLt
  rw [scalar2, BitVec.toNat_setWidth, toNat_append_mul, toNat_extract_div, toNat_extract_div]
  omega

theorem scalar3_toNat (b1 b2 b3 : Byte) :
    (scalar3 b1 b2 b3).toNat = b1.toNat % 16 * 4096 + b2.toNat % 64 * 64 + b3.toNat % 64 := by
  have := b1.isLt
  have := b2.isLt
  have := b3.isLt
  rw [scalar3, BitVec.toNat_setWidth, toNat_append_mul, toNat_append_mul, toNat_extract_div, toNat_extract_div,
    toNat_extract_div]
  omega

theorem scalar4_toNat (b1 b2 b3 b4 : Byte) :
    (scalar4 b1 b2 b3 b4).toNat =
      b1.toNat % 8 * 262144 + b2.toNat % 64 * 4096 + b3.toNat % 64 * 64 + b4.toNat % 64 := by
  have := b1.isLt
  have := b2.isLt
  have := b3.isLt
  have := b4.isLt
  rw [scalar4, BitVec.toNat_setWidth, toNat_append_mul, toNat_append_mul, toNat_append_mul, toNat_extract_div,
    toNat_extract_div, toNat_extract_div, toNat_extract_div]
  omega

/-! ### The bytes of a scalar value -/

/-- `utf8` with its bytes as numbers (R231). -/
theorem utf8_eq (c : Word) : utf8 c =
    if c.toNat ≤ 0x7F then [BitVec.ofNat 8 c.toNat]
    else if c.toNat ≤ 0x7FF then [BitVec.ofNat 8 (192 + c.toNat / 64 % 32), BitVec.ofNat 8 (128 + c.toNat % 64)]
    else if c.toNat ≤ 0xFFFF then
      [BitVec.ofNat 8 (224 + c.toNat / 4096 % 16), BitVec.ofNat 8 (128 + c.toNat / 64 % 64), BitVec.ofNat 8 (128 + c.toNat % 64)]
    else
      [BitVec.ofNat 8 (240 + c.toNat / 262144 % 8), BitVec.ofNat 8 (128 + c.toNat / 4096 % 64),
       BitVec.ofNat 8 (128 + c.toNat / 64 % 64), BitVec.ofNat 8 (128 + c.toNat % 64)] := by
  have e0 : c.toNat ≤ 0x7F → (0b0#1 ++ c.extractLsb' 0 7 : BitVec 8) = BitVec.ofNat 8 c.toNat := fun h => by
    apply BitVec.eq_of_toNat_eq
    rw [toNat_append_mul, toNat_extract_div, BitVec.toNat_ofNat, BitVec.toNat_ofNat]
    omega
  have e1 : (0b110#3 ++ c.extractLsb' 6 5 : BitVec 8) = BitVec.ofNat 8 (192 + c.toNat / 64 % 32) := by
    apply BitVec.eq_of_toNat_eq
    rw [toNat_append_mul, toNat_extract_div, BitVec.toNat_ofNat, BitVec.toNat_ofNat]
    omega
  have e2 : (0b1110#4 ++ c.extractLsb' 12 4 : BitVec 8) = BitVec.ofNat 8 (224 + c.toNat / 4096 % 16) := by
    apply BitVec.eq_of_toNat_eq
    rw [toNat_append_mul, toNat_extract_div, BitVec.toNat_ofNat, BitVec.toNat_ofNat]
    omega
  have e3 : (0b11110#5 ++ c.extractLsb' 18 3 : BitVec 8) = BitVec.ofNat 8 (240 + c.toNat / 262144 % 8) := by
    apply BitVec.eq_of_toNat_eq
    rw [toNat_append_mul, toNat_extract_div, BitVec.toNat_ofNat, BitVec.toNat_ofNat]
    omega
  have ec : ∀ k, contByte (c.extractLsb' k 6) = BitVec.ofNat 8 (128 + c.toNat / 2 ^ k % 64) := fun k => by
    apply BitVec.eq_of_toNat_eq
    rw [contByte, toNat_append_mul, toNat_extract_div, BitVec.toNat_ofNat, BitVec.toNat_ofNat]
    omega
  unfold utf8
  simp only [BitVec.le_def, e1, e2, e3, ec, BitVec.toNat_ofNat, Nat.reduceMod, Nat.reducePow, Nat.pow_zero, Nat.div_one]
  split
  · rw [e0 ‹_›]
  · rfl

/-! ### The rows of R232, both ways -/

/-- A one-byte row is the encoding of its scalar value. -/
theorem utf8_scalar1 {b1 : Byte} (h : inRange 0x00 0x7F b1 = true) : utf8 (scalar1 b1) = [b1] ∧ scalar (scalar1 b1) = true := by
  rw [inRange_ascii_iff] at h
  rw [scalar_iff, utf8_eq, scalar1_toNat, if_pos (by omega)]
  refine ⟨?_, by omega⟩
  rw [Nat.mod_eq_of_lt (by omega)]
  simp

/-- A two-byte row is the encoding of its scalar value. -/
theorem utf8_scalar2 {b1 b2 : Byte} (h : wellFormed2 b1 b2 = true) :
    utf8 (scalar2 b1 b2) = [b1, b2] ∧ scalar (scalar2 b1 b2) = true := by
  rw [wellFormed2_iff] at h
  have e1 : BitVec.ofNat 8 (192 + (b1.toNat % 32 * 64 + b2.toNat % 64) / 64 % 32) = b1 := by
    apply BitVec.eq_of_toNat_eq
    rw [BitVec.toNat_ofNat]
    omega
  have e2 : BitVec.ofNat 8 (128 + (b1.toNat % 32 * 64 + b2.toNat % 64) % 64) = b2 := by
    apply BitVec.eq_of_toNat_eq
    rw [BitVec.toNat_ofNat]
    omega
  rw [scalar_iff, utf8_eq, scalar2_toNat, if_neg (by omega), if_pos (by omega), e1, e2]
  exact ⟨rfl, by omega⟩

/-- A three-byte row is the encoding of its scalar value. -/
theorem utf8_scalar3 {b1 b2 b3 : Byte} (h : wellFormed3 b1 b2 b3 = true) :
    utf8 (scalar3 b1 b2 b3) = [b1, b2, b3] ∧ scalar (scalar3 b1 b2 b3) = true := by
  rw [wellFormed3_iff] at h
  have e1 : BitVec.ofNat 8 (224 + (b1.toNat % 16 * 4096 + b2.toNat % 64 * 64 + b3.toNat % 64) / 4096 % 16) = b1 := by
    apply BitVec.eq_of_toNat_eq
    rw [BitVec.toNat_ofNat]
    omega
  have e2 : BitVec.ofNat 8 (128 + (b1.toNat % 16 * 4096 + b2.toNat % 64 * 64 + b3.toNat % 64) / 64 % 64) = b2 := by
    apply BitVec.eq_of_toNat_eq
    rw [BitVec.toNat_ofNat]
    omega
  have e3 : BitVec.ofNat 8 (128 + (b1.toNat % 16 * 4096 + b2.toNat % 64 * 64 + b3.toNat % 64) % 64) = b3 := by
    apply BitVec.eq_of_toNat_eq
    rw [BitVec.toNat_ofNat]
    omega
  rw [scalar_iff, utf8_eq, scalar3_toNat, if_neg (by omega), if_neg (by omega), if_pos (by omega), e1, e2, e3]
  exact ⟨rfl, by omega⟩

/-- A four-byte row is the encoding of its scalar value. -/
theorem utf8_scalar4 {b1 b2 b3 b4 : Byte} (h : wellFormed4 b1 b2 b3 b4 = true) :
    utf8 (scalar4 b1 b2 b3 b4) = [b1, b2, b3, b4] ∧ scalar (scalar4 b1 b2 b3 b4) = true := by
  rw [wellFormed4_iff] at h
  have e1 : BitVec.ofNat 8
      (240 + (b1.toNat % 8 * 262144 + b2.toNat % 64 * 4096 + b3.toNat % 64 * 64 + b4.toNat % 64) / 262144 % 8) = b1 := by
    apply BitVec.eq_of_toNat_eq
    rw [BitVec.toNat_ofNat]
    omega
  have e2 : BitVec.ofNat 8
      (128 + (b1.toNat % 8 * 262144 + b2.toNat % 64 * 4096 + b3.toNat % 64 * 64 + b4.toNat % 64) / 4096 % 64) = b2 := by
    apply BitVec.eq_of_toNat_eq
    rw [BitVec.toNat_ofNat]
    omega
  have e3 : BitVec.ofNat 8
      (128 + (b1.toNat % 8 * 262144 + b2.toNat % 64 * 4096 + b3.toNat % 64 * 64 + b4.toNat % 64) / 64 % 64) = b3 := by
    apply BitVec.eq_of_toNat_eq
    rw [BitVec.toNat_ofNat]
    omega
  have e4 : BitVec.ofNat 8
      (128 + (b1.toNat % 8 * 262144 + b2.toNat % 64 * 4096 + b3.toNat % 64 * 64 + b4.toNat % 64) % 64) = b4 := by
    apply BitVec.eq_of_toNat_eq
    rw [BitVec.toNat_ofNat]
    omega
  rw [scalar_iff, utf8_eq, scalar4_toNat, if_neg (by omega), if_neg (by omega), if_neg (by omega), e1, e2, e3, e4]
  exact ⟨rfl, by omega⟩

/-- `unutf8` by one step: it takes the row that the bytes match. -/
theorem unutf8_row1 {b1 : Byte} (rest : List Byte) (h : inRange 0x00 0x7F b1 = true) :
    unutf8 (b1 :: rest) = (unutf8 rest).map (fun l => scalar1 b1 :: l) := by
  rw [unutf8.eq_def]
  simp only [h, if_true]

theorem unutf8_row2 {b1 b2 : Byte} (rest : List Byte) (h : wellFormed2 b1 b2 = true) :
    unutf8 (b1 :: b2 :: rest) = (unutf8 rest).map (fun l => scalar2 b1 b2 :: l) := by
  have h1 : inRange 0x00 0x7F b1 = false := by
    rw [← Bool.not_eq_true, inRange_ascii_iff]
    rw [wellFormed2_iff] at h
    omega
  rw [unutf8.eq_def]
  simp only [h, h1, if_true, Bool.false_eq_true, if_false]

theorem unutf8_row3 {b1 b2 b3 : Byte} (rest : List Byte) (h : wellFormed3 b1 b2 b3 = true) :
    unutf8 (b1 :: b2 :: b3 :: rest) = (unutf8 rest).map (fun l => scalar3 b1 b2 b3 :: l) := by
  have hs := wellFormed3_iff.1 h
  have h1 : inRange 0x00 0x7F b1 = false := by
    rw [← Bool.not_eq_true, inRange_ascii_iff]
    omega
  have h2 : wellFormed2 b1 b2 = false := by
    rw [← Bool.not_eq_true, wellFormed2_iff]
    omega
  rw [unutf8.eq_def]
  simp only [h, h1, h2, if_true, Bool.false_eq_true, if_false]

theorem unutf8_row4 {b1 b2 b3 b4 : Byte} (rest : List Byte) (h : wellFormed4 b1 b2 b3 b4 = true) :
    unutf8 (b1 :: b2 :: b3 :: b4 :: rest) = (unutf8 rest).map (fun l => scalar4 b1 b2 b3 b4 :: l) := by
  have hs := wellFormed4_iff.1 h
  have h1 : inRange 0x00 0x7F b1 = false := by
    rw [← Bool.not_eq_true, inRange_ascii_iff]
    omega
  have h2 : wellFormed2 b1 b2 = false := by
    rw [← Bool.not_eq_true, wellFormed2_iff]
    omega
  have h3 : wellFormed3 b1 b2 b3 = false := by
    rw [← Bool.not_eq_true, wellFormed3_iff]
    omega
  rw [unutf8.eq_def]
  simp only [h, h1, h2, h3, if_true, Bool.false_eq_true, if_false]

/-- The rest of a byte sequence after the encoding of a scalar value decodes on its own. -/
theorem unutf8_utf8_append {c : Word} (h : scalar c = true) (rest : List Byte) :
    unutf8 (utf8 c ++ rest) = (unutf8 rest).map (fun l => c :: l) := by
  rw [scalar_iff] at h
  rw [utf8_eq]
  split
  · have hr : inRange 0x00 0x7F (BitVec.ofNat 8 c.toNat) = true := by
      rw [inRange_ascii_iff, BitVec.toNat_ofNat]
      omega
    have hv : scalar1 (BitVec.ofNat 8 c.toNat) = c := by
      apply BitVec.eq_of_toNat_eq
      rw [scalar1_toNat, BitVec.toNat_ofNat]
      omega
    rw [List.singleton_append, unutf8_row1 rest hr, hv]
  · split
    · have hr : wellFormed2 (BitVec.ofNat 8 (192 + c.toNat / 64 % 32)) (BitVec.ofNat 8 (128 + c.toNat % 64)) = true := by
        simp only [wellFormed2_iff, BitVec.toNat_ofNat]
        omega
      have hv : scalar2 (BitVec.ofNat 8 (192 + c.toNat / 64 % 32)) (BitVec.ofNat 8 (128 + c.toNat % 64)) = c := by
        apply BitVec.eq_of_toNat_eq
        rw [scalar2_toNat, BitVec.toNat_ofNat, BitVec.toNat_ofNat]
        omega
      rw [List.cons_append, List.singleton_append, unutf8_row2 rest hr, hv]
    · split
      · have hr : wellFormed3 (BitVec.ofNat 8 (224 + c.toNat / 4096 % 16)) (BitVec.ofNat 8 (128 + c.toNat / 64 % 64))
            (BitVec.ofNat 8 (128 + c.toNat % 64)) = true := by
          simp only [wellFormed3_iff, BitVec.toNat_ofNat]
          omega
        have hv : scalar3 (BitVec.ofNat 8 (224 + c.toNat / 4096 % 16)) (BitVec.ofNat 8 (128 + c.toNat / 64 % 64))
            (BitVec.ofNat 8 (128 + c.toNat % 64)) = c := by
          apply BitVec.eq_of_toNat_eq
          rw [scalar3_toNat, BitVec.toNat_ofNat, BitVec.toNat_ofNat, BitVec.toNat_ofNat]
          omega
        rw [List.cons_append, List.cons_append, List.singleton_append, unutf8_row3 rest hr, hv]
      · have hr : wellFormed4 (BitVec.ofNat 8 (240 + c.toNat / 262144 % 8)) (BitVec.ofNat 8 (128 + c.toNat / 4096 % 64))
            (BitVec.ofNat 8 (128 + c.toNat / 64 % 64)) (BitVec.ofNat 8 (128 + c.toNat % 64)) = true := by
          simp only [wellFormed4_iff, BitVec.toNat_ofNat]
          omega
        have hv : scalar4 (BitVec.ofNat 8 (240 + c.toNat / 262144 % 8)) (BitVec.ofNat 8 (128 + c.toNat / 4096 % 64))
            (BitVec.ofNat 8 (128 + c.toNat / 64 % 64)) (BitVec.ofNat 8 (128 + c.toNat % 64)) = c := by
          apply BitVec.eq_of_toNat_eq
          rw [scalar4_toNat, BitVec.toNat_ofNat, BitVec.toNat_ofNat, BitVec.toNat_ofNat, BitVec.toNat_ofNat]
          omega
        rw [List.cons_append, List.cons_append, List.cons_append, List.singleton_append, unutf8_row4 rest hr, hv]

/-! ### Float elements -/

/-- An element as a number, by the order of its bytes (R240, R241). -/
theorem fword_toNat (b0 b1 b2 b3 : Byte) :
    (fword .little b0 b1 b2 b3).toNat = b3.toNat * 16777216 + b2.toNat * 65536 + b1.toNat * 256 + b0.toNat ∧
    (fword .big b0 b1 b2 b3).toNat = b0.toNat * 16777216 + b1.toNat * 65536 + b2.toNat * 256 + b3.toNat := by
  constructor <;> (simp only [fword, toNat_append_mul]; omega)

/-- `fbytes` with its bytes as numbers. -/
theorem fbytes_little_eq (w : Word) : fbytes .little w =
    [BitVec.ofNat 8 w.toNat, BitVec.ofNat 8 (w.toNat / 256), BitVec.ofNat 8 (w.toNat / 65536),
     BitVec.ofNat 8 (w.toNat / 16777216)] := by
  have e : ∀ k, w.extractLsb' k 8 = BitVec.ofNat 8 (w.toNat / 2 ^ k) := fun k => by
    apply BitVec.eq_of_toNat_eq
    rw [toNat_extract_div, BitVec.toNat_ofNat]
  simp only [fbytes, e, Nat.reducePow, Nat.pow_zero, Nat.div_one]

end Sys2Proof.Machine
end

