-- ==== Sys2Proof/Laws/Frame.lean ====
section
/-! SUPPORT. The bit layout of the command frame, both ways: each packed byte gives its fields back, and each byte is rebuilt from
its fields (30_encoding.md R96 to R102). -/

namespace Sys2Proof

/-- The high byte of two. -/
theorem append_extract_high (h l : Byte) : (h ++ l : BitVec 16).extractLsb' 8 8 = h := by
  apply BitVec.eq_of_toNat_eq
  have := h.isLt
  have := l.isLt
  rw [BitVec.extractLsb'_toNat, BitVec.toNat_append, Nat.shiftLeft_eq, Nat.shiftRight_eq_div_pow]
  rw [Nat.mul_comm, ← Nat.two_pow_add_eq_or_of_lt l.isLt]
  omega

/-- The low byte of two. -/
theorem append_extract_low (h l : Byte) : (h ++ l : BitVec 16).extractLsb' 0 8 = l := by
  apply BitVec.eq_of_toNat_eq
  have := h.isLt
  have := l.isLt
  rw [BitVec.extractLsb'_toNat, BitVec.toNat_append, Nat.shiftLeft_eq, Nat.shiftRight_eq_div_pow]
  rw [Nat.mul_comm, ← Nat.two_pow_add_eq_or_of_lt l.isLt]
  omega

/-- The number of two bytes, the high one first. -/
theorem append_toNat (h l : Byte) : (h ++ l : BitVec 16).toNat = h.toNat * 256 + l.toNat := by
  rw [BitVec.toNat_append, Nat.shiftLeft_eq, Nat.mul_comm, ← Nat.two_pow_add_eq_or_of_lt l.isLt]

/-- The high byte of a half word as a number. -/
theorem extract_high_eq (a : Half) : a.extractLsb' 8 8 = BitVec.ofNat 8 (a.toNat / 256) := by
  apply BitVec.eq_of_toNat_eq
  rw [BitVec.extractLsb'_toNat, Nat.shiftRight_eq_div_pow, BitVec.toNat_ofNat]

/-- The low byte of a half word as a number. -/
theorem extract_low_eq (a : Half) : a.extractLsb' 0 8 = BitVec.ofNat 8 a.toNat := by
  apply BitVec.eq_of_toNat_eq
  rw [BitVec.extractLsb'_toNat, Nat.shiftRight_eq_div_pow, BitVec.toNat_ofNat]
  simp

/-- A half word is its two bytes. -/
theorem extract_append (a : Half) : (a.extractLsb' 8 8 ++ a.extractLsb' 0 8 : BitVec 16) = a := by
  apply BitVec.eq_of_toNat_eq
  have := a.isLt
  rw [append_toNat, extract_high_eq, extract_low_eq, BitVec.toNat_ofNat, BitVec.toNat_ofNat]
  omega

/-- reg6 gives its three codes back (R98). -/
theorem reg6_fields : ∀ (b : BitVec 3) (p : BitVec 2) (a : BitVec 3),
    (b ++ p ++ a : BitVec 8).extractLsb' 5 3 = b ∧ (b ++ p ++ a : BitVec 8).extractLsb' 3 2 = p ∧
    (b ++ p ++ a : BitVec 8).extractLsb' 0 3 = a := by decide +kernel

/-- reg7 gives its three fields back, and its reserved bits are zero (R99). -/
theorem reg7_fields : ∀ (l : BitVec 2) (m : BitVec 1) (t : BitVec 2),
    (l ++ m ++ 0#3 ++ t : BitVec 8).extractLsb' 6 2 = l ∧ (l ++ m ++ 0#3 ++ t : BitVec 8).extractLsb' 5 1 = m ∧
    (l ++ m ++ 0#3 ++ t : BitVec 8).extractLsb' 0 2 = t ∧ reg7Reserved (l ++ m ++ 0#3 ++ t : BitVec 8) = 0#3 := by
  decide +kernel

/-- reg9 gives its six fields back (R101). -/
theorem reg9_fields : ∀ (r x y q w : BitVec 1) (d : BitVec 3),
    (r ++ x ++ y ++ q ++ w ++ d : BitVec 8).extractLsb' 7 1 = r ∧ (r ++ x ++ y ++ q ++ w ++ d : BitVec 8).extractLsb' 6 1 = x ∧
    (r ++ x ++ y ++ q ++ w ++ d : BitVec 8).extractLsb' 5 1 = y ∧ (r ++ x ++ y ++ q ++ w ++ d : BitVec 8).extractLsb' 4 1 = q ∧
    (r ++ x ++ y ++ q ++ w ++ d : BitVec 8).extractLsb' 3 1 = w ∧ (r ++ x ++ y ++ q ++ w ++ d : BitVec 8).extractLsb' 0 3 = d := by
  decide +kernel

/-- reg6 is rebuilt from its codes. -/
theorem reg6_rebuild : ∀ r : Byte, (r.extractLsb' 5 3 ++ r.extractLsb' 3 2 ++ r.extractLsb' 0 3 : BitVec 8) = r := by
  decide +kernel

/-- reg7 with zero reserved bits is rebuilt from its fields. -/
theorem reg7_rebuild : ∀ r : Byte, reg7Reserved r = 0#3 →
    (r.extractLsb' 6 2 ++ r.extractLsb' 5 1 ++ 0#3 ++ r.extractLsb' 0 2 : BitVec 8) = r := by
  decide +kernel

/-- reg9 is rebuilt from its fields. -/
theorem reg9_rebuild : ∀ r : Byte,
    (r.extractLsb' 7 1 ++ r.extractLsb' 6 1 ++ r.extractLsb' 5 1 ++ r.extractLsb' 4 1 ++ r.extractLsb' 3 1
      ++ r.extractLsb' 0 3 : BitVec 8) = r := by
  decide +kernel

/-- The fields of a packed frame are the fields that were packed. -/
theorem unpack_pack (f : FrameFields) :
    unpackFields (f.address.extractLsb' 8 8) (f.address.extractLsb' 0 8) f.netId (f.baud ++ f.parity ++ f.air)
      (f.packet ++ f.noise ++ 0#3 ++ f.power) f.channel
      (f.rssi ++ f.p2p ++ f.relay ++ f.lbt ++ f.worMode ++ f.wor) (f.key.extractLsb' 8 8) (f.key.extractLsb' 0 8) = f := by
  obtain ⟨h1, h2, h3⟩ := reg6_fields f.baud f.parity f.air
  obtain ⟨h4, h5, h6, -⟩ := reg7_fields f.packet f.noise f.power
  obtain ⟨h7, h8, h9, h10, h11, h12⟩ := reg9_fields f.rssi f.p2p f.relay f.lbt f.worMode f.wor
  simp only [unpackFields, extract_append, h1, h2, h3, h4, h5, h6, h7, h8, h9, h10, h11, h12]

/-- A frame with zero reserved bits is rebuilt from its fields. -/
theorem pack_unpack (h ah al n r6 r7 c r9 kh kl : Byte) (h7 : reg7Reserved r7 = 0#3) :
    packFields h (unpackFields ah al n r6 r7 c r9 kh kl) = [h, 0x00#8, 0x09#8, ah, al, n, r6, r7, c, r9, kh, kl] := by
  simp only [packFields, unpackFields, append_extract_high, append_extract_low, reg6_rebuild, reg7_rebuild r7 h7,
    reg9_rebuild]

/-- A packed frame has twelve bytes (R93). -/
@[simp] theorem packFields_length (h : Byte) (f : FrameFields) : (packFields h f).length = 12 := rfl

/-- A packed message has three bytes more than its content (R104). -/
@[simp] theorem packMessage_length (t : Byte) (s : Half) (c : List Byte) : (packMessage t s c).length = c.length + 3 := rfl

end Sys2Proof
end

