-- ==== Sys2Proof/Laws/Memory.lean ====
section
/-! SUPPORT. The laws of the buffer primitives (20_memory.md R61): a read after a write, what a write leaves alone, that every
write keeps the canonical form, and that writing the same elements again changes nothing. Later proofs cite these and do not
unfold the primitives. -/

namespace Sys2Proof.Machine

variable {α : Type}

@[simp] theorem Memory.read_nil (a : Nat) : Memory.read ([] : List (Nat × α)) a = none := rfl

/-- A read after a write of one element. -/
theorem Memory.read_write (m : List (Nat × α)) (a b : Nat) (v : α) :
    Memory.read (Memory.write m a v) b = if b = a then some v else Memory.read m b := by
  induction m with
  | nil => simp [Memory.write, Memory.read]
  | cons c m ih =>
    obtain ⟨k, w⟩ := c
    by_cases h1 : a < k
    · simp [Memory.write, Memory.read, h1]
    · by_cases h2 : a = k
      · subst h2
        by_cases hb : b = a <;> simp [Memory.write, Memory.read, hb]
      · by_cases hb : b = k
        · subst hb
          have hne : ¬ b = a := fun h => h2 h.symm
          simp [Memory.write, Memory.read, h1, h2, hne]
        · simp [Memory.write, Memory.read, h1, h2, hb, ih]

/-- An element of a written buffer is the one written or was there before. -/
theorem Memory.mem_write {m : List (Nat × α)} {a : Nat} {v : α} {c : Nat × α} (h : c ∈ Memory.write m a v) :
    c = (a, v) ∨ c ∈ m := by
  induction m with
  | nil => simpa [Memory.write] using h
  | cons d m ih =>
    obtain ⟨k, w⟩ := d
    unfold Memory.write at h
    split at h
    · simpa using h
    · split at h
      · rcases List.mem_cons.1 h with h | h
        · exact Or.inl h
        · exact Or.inr (List.mem_cons_of_mem _ h)
      · rcases List.mem_cons.1 h with h | h
        · exact Or.inr (h ▸ List.mem_cons_self ..)
        · exact (ih h).imp id (List.mem_cons_of_mem _)

/-- A write of one element keeps the canonical form. -/
theorem Memory.write_wf {m : List (Nat × α)} (a : Nat) (v : α) (h : Memory.wf m) : Memory.wf (Memory.write m a v) := by
  induction m with
  | nil => simp [Memory.write, Memory.wf]
  | cons d m ih =>
    obtain ⟨k, w⟩ := d
    simp only [Memory.wf, List.map_cons, List.pairwise_cons] at h
    obtain ⟨hk, hm⟩ := h
    unfold Memory.write
    split
    · rename_i hlt
      simp only [Memory.wf, List.map_cons, List.pairwise_cons, List.mem_cons]
      refine ⟨?_, hk, hm⟩
      rintro b (rfl | hb)
      · exact hlt
      · exact Nat.lt_trans hlt (hk b hb)
    · split
      · rename_i heq
        subst heq
        simp only [Memory.wf, List.map_cons, List.pairwise_cons]
        exact ⟨hk, hm⟩
      · rename_i h1 h2
        simp only [Memory.wf, List.map_cons, List.pairwise_cons]
        refine ⟨?_, ih hm⟩
        intro b hb
        obtain ⟨c, hc, rfl⟩ := List.mem_map.1 hb
        rcases Memory.mem_write hc with rfl | hc
        · exact Nat.lt_of_le_of_ne (Nat.le_of_not_lt h1) (fun e => h2 e.symm)
        · exact hk _ (List.mem_map.2 ⟨c, hc, rfl⟩)

/-- A write of a list keeps the canonical form. -/
theorem Memory.writeList_wf {m : List (Nat × α)} (a : Nat) (l : List α) (h : Memory.wf m) :
    Memory.wf (Memory.writeList m a l) := by
  induction l generalizing m a with
  | nil => exact h
  | cons v l ih => exact ih (a + 1) (Memory.write_wf a v h)

/-- An element of a buffer after a write of a list lies in the written range or was there before. -/
theorem Memory.mem_writeList {m : List (Nat × α)} {a : Nat} {l : List α} {c : Nat × α}
    (h : c ∈ Memory.writeList m a l) : (a ≤ c.1 ∧ c.1 < a + l.length) ∨ c ∈ m := by
  induction l generalizing m a with
  | nil => exact Or.inr h
  | cons v l ih =>
    rcases ih h with h | h
    · refine Or.inl ⟨by omega, ?_⟩
      simp only [List.length_cons]
      omega
    · rcases Memory.mem_write h with rfl | h
      · exact Or.inl ⟨Nat.le_refl _, by simp⟩
      · exact Or.inr h

/-- A read after a write of a list. -/
theorem Memory.read_writeList (m : List (Nat × α)) (a b : Nat) (l : List α) :
    Memory.read (Memory.writeList m a l) b = if a ≤ b ∧ b < a + l.length then l[b - a]? else Memory.read m b := by
  induction l generalizing m a with
  | nil =>
    have : ¬ (a ≤ b ∧ b < a + ([] : List α).length) := by simp
    simp only [this, if_false, Memory.writeList]
  | cons v l ih =>
    simp only [Memory.writeList, ih, Memory.read_write, List.length_cons]
    by_cases hb : b = a
    · subst hb
      have h1 : ¬ (b + 1 ≤ b ∧ b < b + 1 + l.length) := by omega
      have h2 : b ≤ b ∧ b < b + (l.length + 1) := by omega
      simp only [h1, h2, if_true, if_false, Nat.sub_self]
      simp
    · by_cases hr : a + 1 ≤ b ∧ b < a + 1 + l.length
      · have h2 : a ≤ b ∧ b < a + (l.length + 1) := by omega
        have h3 : b - a = (b - (a + 1)) + 1 := by omega
        simp only [hr, h2, if_true, and_self]
        rw [h3, List.getElem?_cons_succ]
      · have h2 : ¬ (a ≤ b ∧ b < a + (l.length + 1)) := by omega
        simp only [hr, h2, hb, if_false]

/-- A read of a list is the reads of its elements. -/
theorem Memory.readList_eq_some_iff {m : List (Nat × α)} {a n : Nat} {l : List α} :
    Memory.readList m a n = some l ↔ l.length = n ∧ ∀ i, i < n → Memory.read m (a + i) = l[i]? := by
  induction n generalizing a l with
  | zero =>
    constructor
    · intro h
      cases h
      exact ⟨rfl, fun i hi => absurd hi (Nat.not_lt_zero i)⟩
    · rintro ⟨h, -⟩
      rw [List.length_eq_zero_iff.1 h]
      rfl
  | succ n ih =>
    constructor
    · intro h
      simp only [Memory.readList] at h
      split at h
      · rename_i v l' hv hl'
        cases h
        obtain ⟨hlen, hread⟩ := ih.1 hl'
        refine ⟨by simp [hlen], fun i hi => ?_⟩
        cases i with
        | zero => simpa using hv
        | succ i =>
          have := hread i (by omega)
          rw [List.getElem?_cons_succ, ← this]
          congr 1
          omega
      · cases h
    · rintro ⟨hlen, hread⟩
      cases l with
      | nil => simp at hlen
      | cons v l' =>
        have h0 : Memory.read m a = some v := by simpa using hread 0 (by omega)
        have ht : Memory.readList m (a + 1) n = some l' := by
          refine ih.2 ⟨by simpa using hlen, fun i hi => ?_⟩
          have := hread (i + 1) (by omega)
          rw [List.getElem?_cons_succ] at this
          rw [← this]
          congr 1
          omega
        simp only [Memory.readList, h0, ht]

/-- A list that was read has the length asked for. -/
theorem Memory.readList_length {m : List (Nat × α)} {a n : Nat} {l : List α} (h : Memory.readList m a n = some l) :
    l.length = n := (Memory.readList_eq_some_iff.1 h).1

/-- Reading back a list that was written. -/
theorem Memory.readList_writeList (m : List (Nat × α)) (a : Nat) (l : List α) :
    Memory.readList (Memory.writeList m a l) a l.length = some l := by
  refine Memory.readList_eq_some_iff.2 ⟨rfl, fun i hi => ?_⟩
  have h : a ≤ a + i ∧ a + i < a + l.length := by omega
  rw [Memory.read_writeList]
  simp only [h, and_self, if_true]
  congr 1
  omega

/-- A write of a list leaves every element outside its range. -/
theorem Memory.read_writeList_outside (m : List (Nat × α)) (a b : Nat) (l : List α) (h : b < a ∨ a + l.length ≤ b) :
    Memory.read (Memory.writeList m a l) b = Memory.read m b := by
  have hn : ¬ (a ≤ b ∧ b < a + l.length) := by omega
  rw [Memory.read_writeList]
  simp only [hn, if_false]

/-- Two buffers that agree on every element read alike. -/
theorem Memory.readList_congr {m m' : List (Nat × α)} (a n : Nat) (h : ∀ i, i < n → Memory.read m (a + i) = Memory.read m' (a + i)) :
    Memory.readList m a n = Memory.readList m' a n := by
  induction n generalizing a with
  | zero => rfl
  | succ n ih =>
    have h0 : Memory.read m a = Memory.read m' a := by simpa using h 0 (by omega)
    have ht : Memory.readList m (a + 1) n = Memory.readList m' (a + 1) n := by
      refine ih (a + 1) (fun i hi => ?_)
      have := h (i + 1) (by omega)
      have e : a + 1 + i = a + (i + 1) := by omega
      rw [e]
      exact this
    simp only [Memory.readList, h0, ht]

/-- Writing back what a buffer holds changes no element. -/
theorem Memory.read_writeList_self {m : List (Nat × α)} {a n : Nat} {l : List α} (h : Memory.readList m a n = some l) (b : Nat) :
    Memory.read (Memory.writeList m a l) b = Memory.read m b := by
  obtain ⟨hlen, hread⟩ := Memory.readList_eq_some_iff.1 h
  rw [Memory.read_writeList]
  split
  · rename_i hb
    have := hread (b - a) (by omega)
    rw [← this]
    congr 1
    omega
  · rfl

/-- A write never makes a written element unwritten. -/
theorem Memory.read_write_isSome {m : List (Nat × α)} {a b : Nat} {v : α} (h : (Memory.read m b).isSome = true) :
    (Memory.read (Memory.write m a v) b).isSome = true := by
  rw [Memory.read_write]
  split
  · rfl
  · exact h

/-- A write of a list never makes a written element unwritten. -/
theorem Memory.read_writeList_isSome {m : List (Nat × α)} {a b : Nat} {l : List α} (h : (Memory.read m b).isSome = true) :
    (Memory.read (Memory.writeList m a l) b).isSome = true := by
  induction l generalizing m a with
  | nil => exact h
  | cons v l ih => exact ih (Memory.read_write_isSome h)

/-- Writing an element again right after it was written changes nothing. -/
theorem Memory.write_write_self (m : List (Nat × α)) (a : Nat) (v : α) :
    Memory.write (Memory.write m a v) a v = Memory.write m a v := by
  induction m with
  | nil => simp [Memory.write]
  | cons d m ih =>
    obtain ⟨k, w⟩ := d
    by_cases h1 : a < k
    · simp [Memory.write, h1]
    · by_cases h2 : a = k
      · subst h2
        simp [Memory.write]
      · simp [Memory.write, h1, h2, ih]

/-- Two writes to different elements commute when the first has its place already. -/
theorem Memory.write_comm (m : List (Nat × α)) (a b : Nat) (v w : α) (hab : a < b) :
    Memory.write (Memory.write m b w) a v = Memory.write (Memory.write m a v) b w := by
  induction m with
  | nil =>
    have h1 : ¬ b < a := by omega
    have h2 : ¬ b = a := by omega
    simp [Memory.write, hab, h1, h2]
  | cons d m ih =>
    obtain ⟨k, u⟩ := d
    have nba : ¬ b < a := by omega
    have neq : ¬ b = a := by omega
    by_cases hbk : b < k
    · have hak : a < k := by omega
      simp [Memory.write, hbk, hak, hab, nba, neq]
    · by_cases hbe : b = k
      · subst hbe
        simp [Memory.write, hab, nba, neq]
      · by_cases hak : a < k
        · simp [Memory.write, hbk, hbe, hak, nba, neq]
        · by_cases hae : a = k
          · subst hae
            simp [Memory.write, nba, neq]
          · simp [Memory.write, hbk, hbe, hak, hae, ih]

/-- A write below the range of a list write commutes with it. -/
theorem Memory.write_writeList_comm (m : List (Nat × α)) (a b : Nat) (v : α) (l : List α) (hab : a < b) :
    Memory.write (Memory.writeList m b l) a v = Memory.writeList (Memory.write m a v) b l := by
  induction l generalizing m b with
  | nil => rfl
  | cons w l ih =>
    simp only [Memory.writeList]
    rw [ih (Memory.write m b w) (b + 1) (by omega), Memory.write_comm m a b v w hab]

/-- Writing a list again right after it was written changes nothing. -/
theorem Memory.writeList_writeList_self (m : List (Nat × α)) (a : Nat) (l : List α) :
    Memory.writeList (Memory.writeList m a l) a l = Memory.writeList m a l := by
  induction l generalizing m a with
  | nil => rfl
  | cons v l ih =>
    simp only [Memory.writeList]
    rw [Memory.write_writeList_comm _ _ _ _ _ (Nat.lt_succ_self a), Memory.write_write_self, ih]

end Sys2Proof.Machine
end

