-- ==== Sys2Proof/Laws/State.lean ====
section
/-! SUPPORT. What each named update of the state does to each field, so that no later proof unfolds a record update; and the
registers of the configuration file after a write of one. -/

namespace Sys2Proof.Machine

@[simp] theorem Reg.of_value {w : Nat} (v : BitVec w) : (Reg.of v).value = v := rfl
@[simp] theorem Reg.of_written {w : Nat} (v : BitVec w) : (Reg.of v).written = true := rfl
@[simp] theorem Reg.unwritten_written (w : Nat) : (Reg.unwritten w).written = false := rfl

/-- A written register is its value with the flag set. -/
theorem Reg.eq_of_written {w : Nat} {r : Reg w} (h : r.written = true) : r = Reg.of r.value := by
  cases r
  cases h
  rfl

/-- A write of one configuration register is read back. -/
@[simp] theorem RegFile.get_set_self (x : RegFile) (f : Field) (v : Word) : (x.set f v).get f = Reg.of v := by
  cases f <;> rfl

/-- A write of one configuration register leaves the others. -/
theorem RegFile.get_set_of_ne {x : RegFile} {f g : Field} {v : Word} (h : g ≠ f) : (x.set f v).get g = x.get g := by
  cases f <;> cases g <;> first | rfl | exact absurd rfl h

/-- Two configuration files with the same registers are the same. -/
theorem RegFile.ext_get {x y : RegFile} (h : ∀ f, x.get f = y.get f) : x = y := by
  cases x
  cases y
  simp only [RegFile.mk.injEq]
  exact ⟨h .moduleAddress, h .netId, h .baudRate, h .parity, h .airSpeed, h .packetLen, h .enableAmbientNoise,
    h .transmitPower, h .channel, h .enableRssiByte, h .enablePointToPointMode, h .enableRelayFunction, h .enableLbt,
    h .worMode, h .worPeriod, h .key⟩

@[simp] theorem RegFile.unwritten_get (f : Field) : RegFile.unwritten.get f = Reg.unwritten 32 := by
  cases f <;> rfl

/-- Every field is in the list of all fields. -/
@[simp] theorem mem_allFields (f : Field) : f ∈ allFields := by
  cases f <;> decide

@[simp] theorem putMessage_x (bytes : List Byte) (s : State) : (putMessage bytes s).x = s.x := rfl
@[simp] theorem putMessage_cmd (bytes : List Byte) (s : State) : (putMessage bytes s).cmd = s.cmd := rfl
@[simp] theorem putMessage_sreg (bytes : List Byte) (s : State) : (putMessage bytes s).sreg = s.sreg := rfl
@[simp] theorem putMessage_dlen (bytes : List Byte) (s : State) : (putMessage bytes s).dlen = s.dlen := rfl
@[simp] theorem putMessage_fb (bytes : List Byte) (s : State) : (putMessage bytes s).fb = s.fb := rfl
@[simp] theorem putMessage_flen (bytes : List Byte) (s : State) : (putMessage bytes s).flen = s.flen := rfl
@[simp] theorem putMessage_lv (bytes : List Byte) (s : State) : (putMessage bytes s).lv = s.lv := rfl
@[simp] theorem putMessage_lc (bytes : List Byte) (s : State) : (putMessage bytes s).lc = s.lc := rfl
@[simp] theorem putMessage_topic (bytes : List Byte) (s : State) : (putMessage bytes s).topic = s.topic := rfl
@[simp] theorem putMessage_sender (bytes : List Byte) (s : State) : (putMessage bytes s).sender = s.sender := rfl
@[simp] theorem putMessage_nexp (bytes : List Byte) (s : State) : (putMessage bytes s).nexp = s.nexp := rfl
@[simp] theorem putMessage_mb (bytes : List Byte) (s : State) : (putMessage bytes s).mb = Memory.writeList s.mb 0 bytes := rfl
@[simp] theorem putMessage_mlen (bytes : List Byte) (s : State) : (putMessage bytes s).mlen = bytes.length := rfl
@[simp] theorem putMessage_bb (bytes : List Byte) (s : State) : (putMessage bytes s).bb = s.bb := rfl
@[simp] theorem putMessage_blen (bytes : List Byte) (s : State) : (putMessage bytes s).blen = s.blen := rfl
@[simp] theorem putMessage_wb (bytes : List Byte) (s : State) : (putMessage bytes s).wb = s.wb := rfl
@[simp] theorem putMessage_wlen (bytes : List Byte) (s : State) : (putMessage bytes s).wlen = s.wlen := rfl
@[simp] theorem putMessage_status (bytes : List Byte) (s : State) : (putMessage bytes s).status = s.status := rfl
@[simp] theorem putMessage_einfo (bytes : List Byte) (s : State) : (putMessage bytes s).einfo = s.einfo := rfl
@[simp] theorem putMessage_pending (bytes : List Byte) (s : State) : (putMessage bytes s).pending = s.pending := rfl

@[simp] theorem putWords_x (e : Envelope) (ws : List Word) (s : State) : (putWords e ws s).x = s.x := rfl
@[simp] theorem putWords_cmd (e : Envelope) (ws : List Word) (s : State) : (putWords e ws s).cmd = s.cmd := rfl
@[simp] theorem putWords_sreg (e : Envelope) (ws : List Word) (s : State) : (putWords e ws s).sreg = s.sreg := rfl
@[simp] theorem putWords_dlen (e : Envelope) (ws : List Word) (s : State) : (putWords e ws s).dlen = s.dlen := rfl
@[simp] theorem putWords_fb (e : Envelope) (ws : List Word) (s : State) : (putWords e ws s).fb = s.fb := rfl
@[simp] theorem putWords_flen (e : Envelope) (ws : List Word) (s : State) : (putWords e ws s).flen = s.flen := rfl
@[simp] theorem putWords_lv (e : Envelope) (ws : List Word) (s : State) : (putWords e ws s).lv = s.lv := rfl
@[simp] theorem putWords_lc (e : Envelope) (ws : List Word) (s : State) : (putWords e ws s).lc = s.lc := rfl
@[simp] theorem putWords_topic (e : Envelope) (ws : List Word) (s : State) : (putWords e ws s).topic = Reg.of e.topic := rfl
@[simp] theorem putWords_sender (e : Envelope) (ws : List Word) (s : State) : (putWords e ws s).sender = Reg.of e.sender := rfl
@[simp] theorem putWords_nexp (e : Envelope) (ws : List Word) (s : State) : (putWords e ws s).nexp = s.nexp := rfl
@[simp] theorem putWords_mb (e : Envelope) (ws : List Word) (s : State) : (putWords e ws s).mb = s.mb := rfl
@[simp] theorem putWords_mlen (e : Envelope) (ws : List Word) (s : State) : (putWords e ws s).mlen = s.mlen := rfl
@[simp] theorem putWords_bb (e : Envelope) (ws : List Word) (s : State) : (putWords e ws s).bb = s.bb := rfl
@[simp] theorem putWords_blen (e : Envelope) (ws : List Word) (s : State) : (putWords e ws s).blen = s.blen := rfl
@[simp] theorem putWords_wb (e : Envelope) (ws : List Word) (s : State) : (putWords e ws s).wb = Memory.writeList s.wb 0 ws := rfl
@[simp] theorem putWords_wlen (e : Envelope) (ws : List Word) (s : State) : (putWords e ws s).wlen = ws.length := rfl
@[simp] theorem putWords_status (e : Envelope) (ws : List Word) (s : State) : (putWords e ws s).status = s.status := rfl
@[simp] theorem putWords_einfo (e : Envelope) (ws : List Word) (s : State) : (putWords e ws s).einfo = s.einfo := rfl
@[simp] theorem putWords_pending (e : Envelope) (ws : List Word) (s : State) : (putWords e ws s).pending = s.pending := rfl

@[simp] theorem withFetchWord_x (s : State) (nbits w : Nat) : (s.withFetchWord nbits w).x = s.x := rfl
@[simp] theorem withFetchWord_cmd (s : State) (nbits w : Nat) : (s.withFetchWord nbits w).cmd = s.cmd := rfl
@[simp] theorem withFetchWord_sreg (s : State) (nbits w : Nat) : (s.withFetchWord nbits w).sreg = s.sreg := rfl
@[simp] theorem withFetchWord_dlen (s : State) (nbits w : Nat) : (s.withFetchWord nbits w).dlen = s.dlen := rfl
@[simp] theorem withFetchWord_fb (s : State) (nbits w : Nat) : (s.withFetchWord nbits w).fb = s.fb := rfl
@[simp] theorem withFetchWord_flen (s : State) (nbits w : Nat) : (s.withFetchWord nbits w).flen = s.flen := rfl
@[simp] theorem withFetchWord_lv (s : State) (nbits w : Nat) : (s.withFetchWord nbits w).lv = s.lv := rfl
@[simp] theorem withFetchWord_lc (s : State) (nbits w : Nat) : (s.withFetchWord nbits w).lc = s.lc := rfl
@[simp] theorem withFetchWord_topic (s : State) (nbits w : Nat) : (s.withFetchWord nbits w).topic = s.topic := rfl
@[simp] theorem withFetchWord_sender (s : State) (nbits w : Nat) : (s.withFetchWord nbits w).sender = s.sender := rfl
@[simp] theorem withFetchWord_nexp (s : State) (nbits w : Nat) : (s.withFetchWord nbits w).nexp = s.nexp := rfl
@[simp] theorem withFetchWord_mb (s : State) (nbits w : Nat) : (s.withFetchWord nbits w).mb = s.mb := rfl
@[simp] theorem withFetchWord_mlen (s : State) (nbits w : Nat) : (s.withFetchWord nbits w).mlen = s.mlen := rfl
@[simp] theorem withFetchWord_bb (s : State) (nbits w : Nat) : (s.withFetchWord nbits w).bb = s.bb := rfl
@[simp] theorem withFetchWord_blen (s : State) (nbits w : Nat) : (s.withFetchWord nbits w).blen = s.blen := rfl
@[simp] theorem withFetchWord_wb (s : State) (nbits w : Nat) : (s.withFetchWord nbits w).wb = s.wb := rfl
@[simp] theorem withFetchWord_wlen (s : State) (nbits w : Nat) : (s.withFetchWord nbits w).wlen = s.wlen := rfl
@[simp] theorem withFetchWord_status (s : State) (nbits w : Nat) : (s.withFetchWord nbits w).status = s.status := rfl
@[simp] theorem withFetchWord_einfo (s : State) (nbits w : Nat) : (s.withFetchWord nbits w).einfo = s.einfo := rfl
@[simp] theorem withFetchWord_pending (s : State) (nbits w : Nat) : (s.withFetchWord nbits w).pending = tableRequest nbits w :: s.pending := rfl

end Sys2Proof.Machine
end

