-- ==== Sys2Proof/Laws/Ops.lean ====
section
/-! SUPPORT. One lemma for each shared operation that says everything it can do: how an operation ends (`settle`), how checks
follow one another, reading a register, reading a buffer, the two scans of the configuration registers. -/

namespace Sys2Proof.Machine

/-! ### Ends -/

@[simp] theorem settle_ok (s u : State) :
    settle s (.ok u) = .next { u with status := statusOk, einfo := infoNone } := rfl

@[simp] theorem settle_raise (s : State) (k : ErrorKind) (info : Byte) :
    settle s (.error (.raise k info)) = .next { s with status := k.code, einfo := info } := rfl

@[simp] theorem settle_refuse (s : State) (r : Refusal) : settle s (.error (.refuse r)) = .refused r := rfl

/-- If an operation answers a next state, its results stand in it and it is `OK`, or it failed and only `STATUS` and `EINFO` are
new. -/
theorem settle_next {s t : State} {r : Check State} (h : settle s r = .next t) :
    (∃ u, r = .ok u ∧ t = { u with status := statusOk, einfo := infoNone }) ∨
    (∃ k info, r = .error (.raise k info) ∧ t = { s with status := k.code, einfo := info }) := by
  match r, h with
  | .ok u, h => exact .inl ⟨u, rfl, by cases h; rfl⟩
  | .error (.raise k info), h => exact .inr ⟨k, info, rfl, by cases h; rfl⟩
  | .error (.refuse why), h => cases h

/-- An operation is refused exactly when a check refuses it. -/
theorem settle_refused_iff {s : State} {r : Check State} {why : Refusal} :
    settle s r = .refused why ↔ r = .error (.refuse why) := by
  match r with
  | .ok u => simp
  | .error (.raise k info) => simp
  | .error (.refuse w) => simp

/-- The status code of an error kind is not that of a success. -/
@[simp] theorem ErrorKind.code_ne_ok (k : ErrorKind) : k.code ≠ statusOk := by
  cases k <;> decide

/-! ### Checks in sequence -/

@[simp] theorem Check.bind_ok {α β : Type} (a : α) (f : α → Check β) : ((Except.ok a : Check α) >>= f) = f a := rfl

@[simp] theorem Check.bind_error {α β : Type} (e : Stop) (f : α → Check β) :
    ((Except.error e : Check α) >>= f) = .error e := rfl

/-- Two checks in sequence succeed when both do. -/
theorem Check.bind_eq_ok {α β : Type} {x : Check α} {f : α → Check β} {b : β} :
    (x >>= f) = .ok b ↔ ∃ a, x = .ok a ∧ f a = .ok b := by
  cases x <;> simp

/-- Two checks in sequence stop when the first does, or the second after it. -/
theorem Check.bind_eq_error {α β : Type} {x : Check α} {f : α → Check β} {e : Stop} :
    (x >>= f) = .error e ↔ x = .error e ∨ ∃ a, x = .ok a ∧ f a = .error e := by
  cases x <;> simp

/-! ### Operands -/

/-- Reading a register gives its value exactly when it is written. -/
theorem Reg.read_eq_ok {w : Nat} {n : RegName} {r : Reg w} {v : BitVec w} :
    Reg.read n r = .ok v ↔ r.written = true ∧ r.value = v := by
  unfold Reg.read
  split <;> simp [*]

/-- Reading a register stops only by a refusal, while it is unwritten. -/
theorem Reg.read_eq_error {w : Nat} {n : RegName} {r : Reg w} {e : Stop} :
    Reg.read n r = .error e ↔ r.written = false ∧ e = .refuse (.unwrittenRegister n) := by
  unfold Reg.read
  split <;> simp [*, eq_comm]

@[simp] theorem Reg.read_written {w : Nat} {n : RegName} {r : Reg w} (h : r.written = true) : Reg.read n r = .ok r.value :=
  Reg.read_eq_ok.2 ⟨h, rfl⟩

@[simp] theorem Reg.read_unwritten {w : Nat} {n : RegName} {r : Reg w} (h : r.written = false) :
    Reg.read n r = .error (.refuse (.unwrittenRegister n)) := Reg.read_eq_error.2 ⟨h, rfl⟩

/-- Reading a buffer gives its elements exactly when all of them are written. -/
theorem readBuffer_eq_ok {α : Type} {n : BufName} {m : List (Nat × α)} {len : Nat} {l : List α} :
    readBuffer n m len = .ok l ↔ Memory.readList m 0 len = some l := by
  unfold readBuffer
  split <;> simp [*]

/-- Reading a buffer stops only by a refusal, while an element is unwritten. -/
theorem readBuffer_eq_error {α : Type} {n : BufName} {m : List (Nat × α)} {len : Nat} {e : Stop} :
    readBuffer n m len = .error e ↔ Memory.readList m 0 len = none ∧ e = .refuse (.unwrittenBuffer n) := by
  unfold readBuffer
  split <;> simp [*, eq_comm]

/-- The scan for an unwritten configuration register passes exactly when all sixteen are written. -/
theorem checkWritten_eq_ok {x : RegFile} : checkWritten x = .ok () ↔ ∀ f, (x.get f).written = true := by
  unfold checkWritten
  split
  · rename_i f hf
    have := List.find?_some hf
    constructor
    · intro h
      cases h
    · intro h
      simp [h f] at this
  · rename_i hf
    rw [List.find?_eq_none] at hf
    exact ⟨fun _ f => by simpa using hf f (mem_allFields f), fun _ => rfl⟩

/-- The scan for an unwritten configuration register stops only by a refusal that names one. -/
theorem checkWritten_eq_error {x : RegFile} {e : Stop} (h : checkWritten x = .error e) :
    ∃ f, (x.get f).written = false ∧ e = .refuse (.unwrittenRegister (.x f)) := by
  unfold checkWritten at h
  split at h
  · rename_i f hf
    have := List.find?_some hf
    cases h
    exact ⟨f, by simpa using this, rfl⟩
  · cases h

/-- The scan for an invalid configuration register passes exactly when all sixteen are valid. -/
theorem checkValid_eq_ok {x : RegFile} : checkValid x = .ok () ↔ ∀ f, valid f (x.get f).value = true := by
  unfold checkValid
  split
  · rename_i f hf
    have := List.find?_some hf
    constructor
    · intro h
      cases h
    · intro h
      simp [h f] at this
  · rename_i hf
    rw [List.find?_eq_none] at hf
    exact ⟨fun _ f => by simpa using hf f (mem_allFields f), fun _ => rfl⟩

/-- The scan for an invalid configuration register stops only by `InvalidField` of one that is invalid. -/
theorem checkValid_eq_error {x : RegFile} {e : Stop} (h : checkValid x = .error e) :
    ∃ f, valid f (x.get f).value = false ∧ e = .raise .invalidField (fieldInfo f) := by
  unfold checkValid at h
  split at h
  · rename_i f hf
    have := List.find?_some hf
    cases h
    exact ⟨f, by simpa using this, rfl⟩
  · cases h

end Sys2Proof.Machine
end

