-- ==== Sys2Proof/Laws/PerInstr.lean ====
section
/-! SUPPORT. A statement for each instruction: the word that `encode` gives has the shape of its format (30_encoding.md R90, R91,
R93 to R95, R99, R104). -/

namespace Sys2Proof.Laws.WireShape

/-- The shape of the word: an `OP` word is a code below 0x4C; a frame has twelve bytes, a known header, bytes 1 and 2 as R95 fixes
them and zero reserved bits; a message has at least its three head bytes. -/
def Statement (i : Instr) : Prop :=
  match encode i with
  | .op code => code.toNat < 0x4C ∧ decodeOp code = .ok i
  | .frame bytes =>
    bytes.length = 12 ∧ (bytes[0]? = some 0xC2#8 ∨ bytes[0]? = some 0xC1#8 ∨ bytes[0]? = some 0xC0#8) ∧
    bytes[1]? = some 0x00#8 ∧ bytes[2]? = some 0x09#8 ∧ bytes[7]?.map reg7Reserved = some 0#3
  | .msg bytes => 3 ≤ bytes.length
  | _ => False

/-- A packed frame has the shape, whatever its fields. -/
theorem frame_shape (h : Byte) (f : FrameFields) (hh : h = 0xC2#8 ∨ h = 0xC1#8 ∨ h = 0xC0#8) :
    (packFields h f).length = 12 ∧
    ((packFields h f)[0]? = some 0xC2#8 ∨ (packFields h f)[0]? = some 0xC1#8 ∨ (packFields h f)[0]? = some 0xC0#8) ∧
    (packFields h f)[1]? = some 0x00#8 ∧ (packFields h f)[2]? = some 0x09#8 ∧
    (packFields h f)[7]?.map reg7Reserved = some 0#3 := by
  refine ⟨rfl, ?_, rfl, rfl, congrArg some (reg7_fields f.packet f.noise f.power).2.2.2⟩
  rcases hh with rfl | rfl | rfl
  · exact .inl rfl
  · exact .inr (.inl rfl)
  · exact .inr (.inr rfl)

theorem rencSet : Statement .rencSet := ⟨by decide, rfl⟩

theorem rencAns : Statement .rencAns := ⟨by decide, rfl⟩

theorem rdec : Statement .rdec := ⟨by decide, rfl⟩

theorem elutV2cBaudRate : Statement .elutV2cBaudRate := ⟨by decide, rfl⟩

theorem elutV2cParity : Statement .elutV2cParity := ⟨by decide, rfl⟩

theorem elutV2cAirSpeed : Statement .elutV2cAirSpeed := ⟨by decide, rfl⟩

theorem elutV2cPacketLen : Statement .elutV2cPacketLen := ⟨by decide, rfl⟩

theorem elutV2cTransmitPower : Statement .elutV2cTransmitPower := ⟨by decide, rfl⟩

theorem elutV2cWorPeriod : Statement .elutV2cWorPeriod := ⟨by decide, rfl⟩

theorem elutC2vBaudRate : Statement .elutC2vBaudRate := ⟨by decide, rfl⟩

theorem elutC2vParity : Statement .elutC2vParity := ⟨by decide, rfl⟩

theorem elutC2vAirSpeed : Statement .elutC2vAirSpeed := ⟨by decide, rfl⟩

theorem elutC2vPacketLen : Statement .elutC2vPacketLen := ⟨by decide, rfl⟩

theorem elutC2vTransmitPower : Statement .elutC2vTransmitPower := ⟨by decide, rfl⟩

theorem elutC2vWorPeriod : Statement .elutC2vWorPeriod := ⟨by decide, rfl⟩

theorem mencT : Statement .mencT := ⟨by decide, rfl⟩

theorem mencB : Statement .mencB := ⟨by decide, rfl⟩

theorem mencV : Statement .mencV := ⟨by decide, rfl⟩

theorem mdecT : Statement .mdecT := ⟨by decide, rfl⟩

theorem mdecB : Statement .mdecB := ⟨by decide, rfl⟩

theorem mdecV : Statement .mdecV := ⟨by decide, rfl⟩

theorem mdecVn : Statement .mdecVn := ⟨by decide, rfl⟩

theorem cfSet (f : FrameFields) : Statement (.cfSet f) := frame_shape 0xC2#8 f (.inl rfl)

theorem cfAns (f : FrameFields) : Statement (.cfAns f) := frame_shape 0xC1#8 f (.inr (.inl rfl))

theorem cfPset (f : FrameFields) : Statement (.cfPset f) := frame_shape 0xC0#8 f (.inr (.inr rfl))

theorem me (topic : Byte) (sender : Half) (content : List Byte) : Statement (.me topic sender content) := by
  simp only [Statement, encode, packMessage_length]
  omega

end Sys2Proof.Laws.WireShape
end

