-- ==== Sys2Proof/Laws/Step.lean ====
section
/-! SUPPORT. What one step can do, said once: it serves nothing, an operation or a host request; what serving each of them is;
and every operation as its checks and results (`opBody`) with one end (`settle`). -/

namespace Sys2Proof.Machine

/-! ### Bytes of a wire format are the host action that brings them -/

/-- A decoded frame is brought by the host action FRAME, whichever of the three rows it is. -/
theorem exec_of_decodeFrameBytes {bytes : List Byte} {i : Instr} (h : decodeFrameBytes bytes = .ok i) (s : State) :
    exec i s = hostFrame Config.params bytes s := by
  have hd : ∀ (hd : Byte) (g : FrameFields) (j : Instr), frameInstr hd g = some j →
      exec j s = hostFrame Config.params (packFields hd g) s := by
    intro hd g j hj
    unfold frameInstr at hj
    split at hj
    · rename_i e
      cases hj
      subst e
      rfl
    · split at hj
      · rename_i e
        cases hj
        subst e
        rfl
      · split at hj
        · rename_i e
          cases hj
          subst e
          rfl
        · cases hj
  unfold decodeFrameBytes at h
  split at h
  · split at h
    · cases h
    · rename_i j hj
      split at h
      · cases h
      · split at h
        · cases h
        · split at h
          · cases h
          · rename_i h1 h2 h3
            cases h
            simp only [not_or, ne_eq, Decidable.not_not] at h1 h2
            rw [hd _ _ _ hj, pack_unpack _ _ _ _ _ _ _ _ _ _ h2, h1.1, h1.2]
  · cases h

/-- A decoded message is brought by the host action MSG. -/
theorem exec_of_decodeMessageBytes {bytes : List Byte} {i : Instr}
    (h : decodeMessageBytes Config.params.topicCount bytes = .ok i) (s : State) :
    exec i s = hostMessage Config.params bytes s := by
  unfold decodeMessageBytes at h
  split at h
  · split at h
    · cases h
      simp only [exec, execMe, packMessage, append_extract_high, append_extract_low]
    · cases h
  · cases h

/-- Serving a request that is no operation code is the host action. -/
theorem serve_of_not_op {r : Request} (h : ∀ code, r ≠ .op code) (s : State) :
    serve r s = hostRequest Config.params r s := by
  unfold serve
  split
  · rename_i i hi
    cases r with
    | op code => exact absurd rfl (h code)
    | frame bytes => exact exec_of_decodeFrameBytes hi s
    | msg bytes => exact exec_of_decodeMessageBytes hi s
    | _ => cases hi
  · rfl

/-- A decoded operation code is one of the 22 operations. -/
theorem mem_operations_of_decodeOp {code : Byte} {i : Instr} (h : decodeOp code = .ok i) : i ∈ operations := by
  unfold decodeOp at h
  split at h <;> cases h <;> decide

/-- If serving an operation code answers a next state, an operation did. -/
theorem serve_op_next {code : Byte} {s t : State} (h : serve (.op code) s = .next t) :
    ∃ i, i ∈ operations ∧ decodeOp code = .ok i ∧ exec i s = .next t := by
  unfold serve at h
  split at h
  · rename_i i hi
    exact ⟨i, mem_operations_of_decodeOp hi, hi, h⟩
  · cases h

/-- Everything a step that answers a next state has done: nothing; or an operation; or a host request. -/
theorem step_next {s t : State} (h : step s = .next t) :
    (s.pending = [] ∧ t = s) ∨
    (∃ code rest i, s.pending = .op code :: rest ∧ i ∈ operations ∧ decodeOp code = .ok i ∧
      exec i { s with pending := rest } = .next t) ∨
    (∃ r rest, s.pending = r :: rest ∧ (∀ code, r ≠ .op code) ∧
      hostRequest Config.params r { s with pending := rest } = .next t) := by
  unfold step fetch at h
  cases hp : s.pending with
  | nil =>
    rw [hp] at h
    cases h
    exact .inl ⟨rfl, rfl⟩
  | cons r rest =>
    rw [hp] at h
    refine .inr ?_
    by_cases hr : ∃ code, r = .op code
    · obtain ⟨code, rfl⟩ := hr
      obtain ⟨i, hi, hd, he⟩ := serve_op_next h
      exact .inl ⟨code, rest, i, rfl, hi, hd, he⟩
    · have hn : ∀ code, r ≠ .op code := fun code e => hr ⟨code, e⟩
      refine .inr ⟨r, rest, rfl, hn, ?_⟩
      rw [← serve_of_not_op hn]
      exact h

/-! ### Every operation as checks and results -/

/-- The checks and results of an operation; of a wire format, nothing. -/
def opBody (i : Instr) (s : State) : Check State :=
  match i with
  | .rencSet => encodeConfig 0xC2#8 s
  | .rencAns => encodeConfig 0xC1#8 s
  | .rdec => readBuffer .fb s.fb s.flen >>= fun bytes => decodeConfig bytes s
  | .elutV2cBaudRate => lookupCodeBody .baudRate s
  | .elutV2cParity => lookupCodeBody .parity s
  | .elutV2cAirSpeed => lookupCodeBody .airSpeed s
  | .elutV2cPacketLen => lookupCodeBody .packetLen s
  | .elutV2cTransmitPower => lookupCodeBody .transmitPower s
  | .elutV2cWorPeriod => lookupCodeBody .worPeriod s
  | .elutC2vBaudRate => lookupWordBody .baudRate s
  | .elutC2vParity => lookupWordBody .parity s
  | .elutC2vAirSpeed => lookupWordBody .airSpeed s
  | .elutC2vPacketLen => lookupWordBody .packetLen s
  | .elutC2vTransmitPower => lookupWordBody .transmitPower s
  | .elutC2vWorPeriod => lookupWordBody .worPeriod s
  | .mencT => encodeText Config.params s
  | .mencB => encodeBlob Config.params s
  | .mencV => encodeVector Config.params s
  | .mdecT => decodeText Config.params s
  | .mdecB => decodeBlob Config.params s
  | .mdecV => decodeVector Config.params s
  | .mdecVn => decodeVectorN Config.params s
  | .cfSet _ => .ok s
  | .cfAns _ => .ok s
  | .cfPset _ => .ok s
  | .me _ _ _ => .ok s

/-- Every operation has one end. -/
theorem exec_eq_settle {i : Instr} (h : i ∈ operations) (s : State) : exec i s = settle s (opBody i s) := by
  cases i with
  | cfSet f => simp [operations] at h
  | cfAns f => simp [operations] at h
  | cfPset f => simp [operations] at h
  | me t sn c => simp [operations] at h
  | _ => rfl

/-- A property of the 22 operations is proved by twelve cases: the lookups are one family each. -/
theorem operations_cases {P : Instr → Prop} {i : Instr} (h : i ∈ operations)
    (encSet : P .rencSet) (encAns : P .rencAns) (dec : P .rdec) (codes : ∀ f, P (elutV2c f)) (words : ∀ f, P (elutC2v f))
    (mencT : P .mencT) (mencB : P .mencB) (mencV : P .mencV)
    (mdecT : P .mdecT) (mdecB : P .mdecB) (mdecV : P .mdecV) (mdecVn : P .mdecVn) : P i := by
  cases i with
  | cfSet f => simp [operations] at h
  | cfAns f => simp [operations] at h
  | cfPset f => simp [operations] at h
  | me t sn c => simp [operations] at h
  | elutV2cBaudRate => exact codes .baudRate
  | elutV2cParity => exact codes .parity
  | elutV2cAirSpeed => exact codes .airSpeed
  | elutV2cPacketLen => exact codes .packetLen
  | elutV2cTransmitPower => exact codes .transmitPower
  | elutV2cWorPeriod => exact codes .worPeriod
  | elutC2vBaudRate => exact words .baudRate
  | elutC2vParity => exact words .parity
  | elutC2vAirSpeed => exact words .airSpeed
  | elutC2vPacketLen => exact words .packetLen
  | elutC2vTransmitPower => exact words .transmitPower
  | elutC2vWorPeriod => exact words .worPeriod
  | _ => assumption

@[simp] theorem opBody_elutV2c (f : TableField) (s : State) : opBody (elutV2c f) s = lookupCodeBody f s := by
  cases f <;> rfl

@[simp] theorem opBody_elutC2v (f : TableField) (s : State) : opBody (elutC2v f) s = lookupWordBody f s := by
  cases f <;> rfl

@[simp] theorem ready_elutV2c (f : TableField) (s : State) : Ready (elutV2c f) s = s.lv.written := by
  cases f <;> rfl

@[simp] theorem ready_elutC2v (f : TableField) (s : State) : Ready (elutC2v f) s = s.lc.written := by
  cases f <;> rfl

end Sys2Proof.Machine
end

