-- ==== Sys2Proof/Laws/Text.lean ====
section
/-! SUPPORT. Decimal numbers of the text syntax (30_encoding.md R118), both ways: what a value word is printed as reads back as that
word. -/

namespace Sys2Proof.Machine

/-! ### Digits -/

/-- A decimal digit has its value. -/
theorem decDigit_of_isDigit {c : Char} (h : c.isDigit = true) : decDigit c = some (c.toNat - 48) := by
  simp only [Char.isDigit, Bool.and_eq_true, decide_eq_true_eq] at h
  exact if_pos ⟨h.1, h.2⟩

/-- A string of digits spells the number that the library reads from it. -/
theorem digitsValue_of_digits {l : Text} (h : ∀ c ∈ l, c.isDigit = true) (acc : Nat) :
    digitsValue 10 decDigit acc l = some (Nat.ofDigitChars 10 l acc) := by
  induction l generalizing acc with
  | nil => rfl
  | cons c cs ih =>
    obtain ⟨hc, hcs⟩ := List.forall_mem_cons.1 h
    rw [digitsValue, decDigit_of_isDigit hc, Option.bind_some, ih hcs, Nat.ofDigitChars_cons, Nat.mul_comm acc 10]
    rfl

/-- One or more digits are a number, and never a hexadecimal one. -/
theorem number_of_digits {l : Text} (hne : l ≠ []) (h : ∀ c ∈ l, c.isDigit = true) :
    number l = some (Nat.ofDigitChars 10 l 0) := by
  have hd : digits1 10 decDigit l = some (Nat.ofDigitChars 10 l 0) := by
    rw [digits1, if_neg (by simpa using hne), digitsValue_of_digits h]
  unfold number
  split
  · exact absurd (h 'x' (by simp)) (by decide)
  · exact hd

/-! ### Labels -/

/-- In a table without two rows of one label, the label of a word is a literal for it. -/
theorem ofLabel_of_labelOf {ls : List (Text × Word)} {w : Word} {t : Text} (hn : ∀ a ∈ ls, ∀ b ∈ ls, a.1 = b.1 → a = b)
    (h : labelOf ls w = some t) : ofLabel ls t = some w := by
  obtain ⟨a, ha, rfl⟩ := Option.map_eq_some_iff.1 h
  have hm := List.mem_of_find?_eq_some ha
  have hw : a.2 = w := by simpa using List.find?_some ha
  unfold ofLabel
  cases hf : ls.find? (fun l => decide (l.1 = a.1)) with
  | none =>
    rw [List.find?_eq_none] at hf
    exact absurd (by simp) (hf a hm)
  | some b =>
    have hb : b.1 = a.1 := by simpa using List.find?_some hf
    rw [hn b (List.mem_of_find?_eq_some hf) a hm hb, ← hw]
    rfl

/-! ### Printed numbers -/

/-- A printed number is all digits. -/
theorem isDigit_of_mem_decimal {w : Word} {c : Char} (h : c ∈ decimal w) : c.isDigit = true :=
  Nat.isDigit_of_mem_toDigits (by decide) (by decide) h

/-- A printed number has a digit. -/
theorem decimal_ne_nil (w : Word) : decimal w ≠ [] := Nat.toDigits_ne_nil

/-- The digits of a printed number spell its value. -/
theorem ofDigitChars_decimal (w : Word) : Nat.ofDigitChars 10 (decimal w) 0 = w.toNat :=
  Nat.ofDigitChars_toDigits (by decide) (by decide)

/-- A printed number reads back as its word. -/
@[simp] theorem numberOf_decimal (w : Word) : numberOf 32 (decimal w) = some w := by
  rw [numberOf, number_of_digits (decimal_ne_nil w) (fun _ => isDigit_of_mem_decimal), ofDigitChars_decimal,
    Option.bind_some, if_pos w.isLt, BitVec.ofNat_toNat, BitVec.setWidth_eq]

/-- No printed number starts like a `raw:` literal, whatever follows it. -/
@[simp] theorem afterPrefix_raw_decimal (w : Word) (t : Text) : afterPrefix "raw:".toList (decimal w ++ t) = none := by
  cases hl : decimal w with
  | nil => exact absurd hl (decimal_ne_nil w)
  | cons c cs =>
    have hc : c.isDigit = true := isDigit_of_mem_decimal (by rw [hl]; simp)
    have hr : ¬ 'r' = c := by
      rintro rfl
      exact absurd hc (by decide)
    show afterPrefix ('r' :: ['a', 'w', ':']) (c :: (cs ++ t)) = none
    rw [afterPrefix, if_neg hr]

/-- Before the letters of a transmit-power literal stands everything that was put there. -/
theorem beforeDbm_append (l : Text) : beforeDbm (l ++ "dBm".toList) = some l := by
  induction l with
  | nil => rfl
  | cons c cs ih =>
    have hthree : ∀ d b m : Char, c :: (cs ++ "dBm".toList) ≠ [d, b, m] := fun d b m h => by
      have := congrArg List.length h
      have hl : "dBm".toList.length = 3 := rfl
      simp only [List.length_cons, List.length_append, List.length_nil, hl] at this
      omega
    rw [List.cons_append, beforeDbm, ih]
    · rfl
    · exact fun b m h => hthree c b m (by rw [h])

/-- A printed transmit power reads back as its word. -/
@[simp] theorem powerLiteral_decimal (w : Word) : powerLiteral (decimal w ++ "dBm".toList) = some w := by
  have hd : digits1 10 decDigit (decimal w) = some w.toNat := by
    rw [digits1, if_neg (by simpa using decimal_ne_nil w), digitsValue_of_digits (fun _ => isDigit_of_mem_decimal),
      ofDigitChars_decimal]
  rw [powerLiteral, beforeDbm_append, Option.bind_some, hd, Option.bind_some, if_pos w.isLt, BitVec.ofNat_toNat,
    BitVec.setWidth_eq]

end Sys2Proof.Machine
end

