-- ==== Sys2Proof/Laws/Units.lean ====
section
/-! SUPPORT. For each procedure of the two units, exactly when it succeeds and what it then gives, and how it can stop. Later proofs
cite these and do not unfold the procedures. -/

namespace Sys2Proof.Machine

/-! ### Register command unit -/

/-- An encoder succeeds exactly when every configuration register is written and valid. -/
theorem encodeConfig_eq_ok {h : Byte} {s u : State} :
    encodeConfig h s = .ok u ↔
      (∀ f, (s.x.get f).written = true) ∧ (∀ f, valid f (s.x.get f).value = true) ∧
      u = { s with fb := Memory.writeList s.fb 0 (packFields h (frameOf s.x)), flen := 12 } := by
  simp only [encodeConfig, Check.bind_eq_ok, Except.ok.injEq]
  constructor
  · rintro ⟨⟨⟩, hw, ⟨⟩, hv, rfl⟩
    exact ⟨checkWritten_eq_ok.1 hw, checkValid_eq_ok.1 hv, rfl⟩
  · rintro ⟨hw, hv, rfl⟩
    exact ⟨(), checkWritten_eq_ok.2 hw, (), checkValid_eq_ok.2 hv, rfl⟩

/-- An encoder stops by a refusal that names an unwritten register, or by `InvalidField` of a register. -/
theorem encodeConfig_eq_error {h : Byte} {s : State} {e : Stop} (he : encodeConfig h s = .error e) :
    (∃ f, (s.x.get f).written = false ∧ e = .refuse (.unwrittenRegister (.x f))) ∨
    (∃ f, valid f (s.x.get f).value = false ∧ e = .raise .invalidField (fieldInfo f)) := by
  simp only [encodeConfig, Check.bind_eq_error] at he
  rcases he with he | ⟨⟨⟩, -, he | ⟨⟨⟩, -, he⟩⟩
  · exact .inl (checkWritten_eq_error he)
  · exact .inr (checkValid_eq_error he)
  · cases he

/-- The three headers that `RDEC` accepts. -/
theorem isHeader_iff {h : Byte} : isHeader h = true ↔ h = 0xC2#8 ∨ h = 0xC1#8 ∨ h = 0xC0#8 := by
  simp [isHeader]

/-- `RDEC` succeeds exactly on twelve bytes with a known header, zero reserved bits and a channel of at most 83. -/
theorem decodeConfig_eq_ok {bytes : List Byte} {s u : State} :
    decodeConfig bytes s = .ok u ↔
      ∃ h sr rc ah al n r6 r7 c r9 kh kl, bytes = [h, sr, rc, ah, al, n, r6, r7, c, r9, kh, kl] ∧
        isHeader h = true ∧ reg7Reserved r7 = 0#3 ∧ c ≤ 83#8 ∧
        u = { s with
          x := configOf (unpackFields ah al n r6 r7 c r9 kh kl)
          cmd := Reg.of h
          sreg := Reg.of sr
          dlen := Reg.of rc } := by
  constructor
  · intro hu
    unfold decodeConfig at hu
    split at hu
    · split at hu
      · cases hu
      · split at hu
        · cases hu
        · split at hu
          · cases hu
          · rename_i h1 h2 h3
            cases hu
            exact ⟨_, _, _, _, _, _, _, _, _, _, _, _, rfl, by simpa using h1, by simpa using h2, BitVec.not_lt.1 h3, rfl⟩
    · cases hu
  · rintro ⟨h, sr, rc, ah, al, n, r6, r7, c, r9, kh, kl, rfl, h1, h2, h3, rfl⟩
    have h3' : ¬ 83#8 < c := BitVec.not_lt.2 h3
    simp [decodeConfig, h1, h2, h3']

/-- How `RDEC` fails on the bytes below `FLEN`. -/
theorem decodeConfig_eq_error {bytes : List Byte} {s : State} {e : Stop} (he : decodeConfig bytes s = .error e) :
    (bytes.length ≠ 12 ∧ e = .raise .malformedFrame (infoLength bytes.length)) ∨
    (∃ h, isHeader h = false ∧ e = .raise .unknownHeader h) ∨
    e = .raise .invalidField infoReservedBits ∨ e = .raise .invalidField (fieldInfo .channel) := by
  unfold decodeConfig at he
  split at he
  · split at he
    · rename_i h1
      cases he
      exact .inr (.inl ⟨_, by simpa using h1, rfl⟩)
    · split at he
      · cases he
        exact .inr (.inr (.inl rfl))
      · split at he
        · cases he
          exact .inr (.inr (.inr rfl))
        · cases he
  · rename_i hb
    cases he
    refine .inl ⟨fun hl => ?_, rfl⟩
    match bytes, hl with
    | [a0, a1, a2, a3, a4, a5, a6, a7, a8, a9, a10, a11], _ => exact hb a0 a1 a2 a3 a4 a5 a6 a7 a8 a9 a10 a11 rfl

/-- A list of other than twelve bytes is a malformed frame. -/
theorem decodeConfig_malformed {bytes : List Byte} (s : State) (h : bytes.length ≠ 12) :
    decodeConfig bytes s = .error (.raise .malformedFrame (infoLength bytes.length)) := by
  unfold decodeConfig
  split
  · exact absurd rfl h
  · rfl

/-! ### Lookups -/

/-- A lookup of a code succeeds exactly when `LV` is written and has a code. -/
theorem lookupCodeBody_eq_ok {f : TableField} {s u : State} :
    lookupCodeBody f s = .ok u ↔ s.lv.written = true ∧ ∃ c, v2c f s.lv.value = some c ∧ u = { s with lc := Reg.of c } := by
  simp only [lookupCodeBody, Check.bind_eq_ok, Reg.read_eq_ok]
  constructor
  · rintro ⟨w, ⟨hw, rfl⟩, h⟩
    split at h
    · rename_i c hc
      cases h
      exact ⟨hw, c, hc, rfl⟩
    · cases h
  · rintro ⟨hw, c, hc, rfl⟩
    exact ⟨_, ⟨hw, rfl⟩, by simp [hc]⟩

/-- How a lookup of a code stops. -/
theorem lookupCodeBody_eq_error {f : TableField} {s : State} {e : Stop} (he : lookupCodeBody f s = .error e) :
    (s.lv.written = false ∧ e = .refuse (.unwrittenRegister .lv)) ∨ e = .raise .invalidField (fieldInfo (tableField f)) := by
  simp only [lookupCodeBody, Check.bind_eq_error, Reg.read_eq_error] at he
  rcases he with he | ⟨w, -, he⟩
  · exact .inl he
  · split at he <;> cases he
    exact .inr rfl

/-- A lookup of a word succeeds exactly when `LC` is written and has a word. -/
theorem lookupWordBody_eq_ok {f : TableField} {s u : State} :
    lookupWordBody f s = .ok u ↔ s.lc.written = true ∧ ∃ w, c2v f s.lc.value = some w ∧ u = { s with lv := Reg.of w } := by
  simp only [lookupWordBody, Check.bind_eq_ok, Reg.read_eq_ok]
  constructor
  · rintro ⟨w, ⟨hw, rfl⟩, h⟩
    split at h
    · rename_i c hc
      cases h
      exact ⟨hw, c, hc, rfl⟩
    · cases h
  · rintro ⟨hw, c, hc, rfl⟩
    exact ⟨_, ⟨hw, rfl⟩, by simp [hc]⟩

/-- How a lookup of a word stops. -/
theorem lookupWordBody_eq_error {f : TableField} {s : State} {e : Stop} (he : lookupWordBody f s = .error e) :
    (s.lc.written = false ∧ e = .refuse (.unwrittenRegister .lc)) ∨ e = .raise .invalidField (fieldInfo (tableField f)) := by
  simp only [lookupWordBody, Check.bind_eq_error, Reg.read_eq_error] at he
  rcases he with he | ⟨w, -, he⟩
  · exact .inl he
  · split at he <;> cases he
    exact .inr rfl

/-! ### Message envelope unit: heads -/

/-- The enumerated topics as a range. -/
theorem isTopic_iff {p : Params} {t : Byte} : isTopic p t = true ↔ 1 ≤ t.toNat ∧ t.toNat ≤ p.topicCount := by
  have h0 : t = 0#8 ↔ t.toNat = 0 := by
    constructor
    · rintro rfl
      rfl
    · intro h
      exact BitVec.eq_of_toNat_eq h
  simp only [isTopic, Bool.not_eq_true', Bool.or_eq_false_iff, decide_eq_false_iff_not, h0]
  omega

/-- `ENC_HEAD` succeeds exactly on written operands with an enumerated topic. -/
theorem encHead_eq_ok {p : Params} {s : State} {l : List Byte} :
    encHead p s = .ok l ↔ s.topic.written = true ∧ s.sender.written = true ∧ isTopic p s.topic.value = true ∧
      l = [s.topic.value, s.sender.value.extractLsb' 0 8, s.sender.value.extractLsb' 8 8] := by
  simp only [encHead, Check.bind_eq_ok, Reg.read_eq_ok]
  constructor
  · rintro ⟨t, ⟨ht, rfl⟩, n, ⟨hn, rfl⟩, h⟩
    split at h
    · cases h
    · rename_i hb
      cases h
      exact ⟨ht, hn, by simpa using hb, rfl⟩
  · rintro ⟨ht, hn, hb, rfl⟩
    exact ⟨_, ⟨ht, rfl⟩, _, ⟨hn, rfl⟩, by simp [hb]⟩

/-- How `ENC_HEAD` stops. -/
theorem encHead_eq_error {p : Params} {s : State} {e : Stop} (he : encHead p s = .error e) :
    (∃ r, e = .refuse (.unwrittenRegister r) ∧ (s.topic.written = false ∨ s.sender.written = false)) ∨
    (s.topic.written = true ∧ s.sender.written = true ∧ isTopic p s.topic.value = false ∧
      e = .raise .invalidField infoTopic) := by
  simp only [encHead, Check.bind_eq_error, Reg.read_eq_error, Reg.read_eq_ok] at he
  rcases he with ⟨h, rfl⟩ | ⟨t, ⟨ht, rfl⟩, ⟨h, rfl⟩ | ⟨n, ⟨hn, rfl⟩, he⟩⟩
  · exact .inl ⟨_, rfl, .inl h⟩
  · exact .inl ⟨_, rfl, .inr h⟩
  · split at he
    · rename_i hb
      cases he
      exact .inr ⟨ht, hn, by simpa using hb, rfl⟩
    · cases he

/-- `DEC_HEAD` succeeds exactly on a written message of three or more bytes with an enumerated topic. -/
theorem decHead_eq_ok {p : Params} {s : State} {e : Envelope} :
    decHead p s = .ok e ↔ ∃ t lo hi rest, Memory.readList s.mb 0 s.mlen = some (t :: lo :: hi :: rest) ∧
      isTopic p t = true ∧ e = { topic := t, sender := hi ++ lo, rest := rest } := by
  simp only [decHead, Check.bind_eq_ok, readBuffer_eq_ok]
  constructor
  · rintro ⟨bytes, hb, h⟩
    unfold splitHead at h
    split at h
    · split at h
      · cases h
      · rename_i ht
        cases h
        exact ⟨_, _, _, _, hb, by simpa using ht, rfl⟩
    · cases h
  · rintro ⟨t, lo, hi, rest, hb, ht, rfl⟩
    exact ⟨_, hb, by simp [splitHead, ht]⟩

/-- How `DEC_HEAD` stops. -/
theorem decHead_eq_error {p : Params} {s : State} {e : Stop} (he : decHead p s = .error e) :
    (Memory.readList s.mb 0 s.mlen = none ∧ e = .refuse (.unwrittenBuffer .mb)) ∨
    e = .raise .deserializeError infoShort ∨ e = .raise .deserializeError infoUnknownTopic := by
  simp only [decHead, Check.bind_eq_error, readBuffer_eq_error] at he
  rcases he with he | ⟨bytes, -, he⟩
  · exact .inl he
  · unfold splitHead at he
    split at he
    · split at he
      · cases he
        exact .inr (.inr rfl)
      · cases he
    · cases he
      exact .inr (.inl rfl)

/-! ### Message envelope unit: content -/

/-- Text is encoded exactly when every element is a scalar value, to the encodings in order. -/
theorem textBytes_eq_ok {cps : List Word} {l : List Byte} :
    textBytes cps = .ok l ↔ (∀ c ∈ cps, scalar c = true) ∧ l = cps.flatMap utf8 := by
  induction cps generalizing l with
  | nil =>
    constructor
    · intro h
      cases h
      exact ⟨fun c hc => absurd hc (List.not_mem_nil), rfl⟩
    · rintro ⟨-, rfl⟩
      rfl
  | cons c cs ih =>
    unfold textBytes
    by_cases hc : scalar c = true
    · simp only [hc, Bool.not_true, Bool.false_eq_true, if_false]
      cases ht : textBytes cs with
      | ok m =>
        obtain ⟨h1, rfl⟩ := ih.1 ht
        simp only [Except.map, Except.ok.injEq, List.forall_mem_cons, hc, List.flatMap_cons, true_and]
        constructor
        · rintro rfl
          exact ⟨h1, rfl⟩
        · rintro ⟨-, rfl⟩
          rfl
      | error e =>
        have hn : ¬ ∀ c ∈ cs, scalar c = true := fun h => by
          rw [ih.2 ⟨h, rfl⟩] at ht
          cases ht
        simp only [Except.map, List.forall_mem_cons, hn, and_false, false_and, reduceCtorEq]
    · simp [hc]

/-- Text stops only at an element that is no scalar value. -/
theorem textBytes_eq_error {cps : List Word} {e : Stop} (h : textBytes cps = .error e) :
    e = .raise .invalidField infoNonScalar := by
  induction cps with
  | nil => cases h
  | cons c cs ih =>
    unfold textBytes at h
    split at h
    · cases h
      rfl
    · cases ht : textBytes cs with
      | ok m =>
        rw [ht] at h
        cases h
      | error e' =>
        rw [ht] at h
        cases h
        exact ih ht

/-- The bytes of a vector are those of its elements in order. -/
theorem vectorBytes_eq_flatMap (o : ByteOrder) (ws : List Word) : vectorBytes o ws = ws.flatMap (fbytes o) := by
  induction ws with
  | nil => rfl
  | cons w ws ih => simp [vectorBytes, ih]

@[simp] theorem fbytes_length (o : ByteOrder) (w : Word) : (fbytes o w).length = 4 := by
  cases o <;> rfl

/-- A vector's content is four bytes an element. -/
@[simp] theorem vectorBytes_length (o : ByteOrder) (ws : List Word) : (vectorBytes o ws).length = 4 * ws.length := by
  induction ws with
  | nil => rfl
  | cons w ws ih =>
    simp only [vectorBytes, List.length_append, fbytes_length, ih, List.length_cons]
    omega

/-- A content of bytes holds a quarter as many elements. -/
theorem vectorWords_length (o : ByteOrder) : ∀ l : List Byte, (vectorWords o l).length = l.length / 4
  | [] => rfl
  | [_] => by simp [vectorWords]
  | [_, _] => by simp [vectorWords]
  | [_, _, _] => by simp [vectorWords]
  | _ :: _ :: _ :: _ :: rest => by
    simp only [vectorWords, List.length_cons, vectorWords_length o rest]
    omega

/-! ### Message envelope unit: operations -/

/-- `MENC.T` succeeds exactly on a ready head, scalar values and a body that fits. -/
theorem encodeText_eq_ok {p : Params} {s u : State} :
    encodeText p s = .ok u ↔ ∃ head cps, encHead p s = .ok head ∧ Memory.readList s.wb 0 s.wlen = some cps ∧
      (∀ c ∈ cps, scalar c = true) ∧ p.content.fits (cps.flatMap utf8).length = true ∧
      u = putMessage (head ++ cps.flatMap utf8) s := by
  simp only [encodeText, Check.bind_eq_ok, readBuffer_eq_ok, textBytes_eq_ok]
  constructor
  · rintro ⟨head, hh, cps, hc, body, ⟨hs, rfl⟩, h⟩
    split at h
    · cases h
    · rename_i hf
      cases h
      exact ⟨head, cps, hh, hc, hs, by simpa using hf, rfl⟩
  · rintro ⟨head, cps, hh, hc, hs, hf, rfl⟩
    exact ⟨head, hh, cps, hc, _, ⟨hs, rfl⟩, if_neg (by rw [hf]; decide)⟩

/-- How `MENC.T` stops. Above the capacity it stops only after every other check. -/
theorem encodeText_eq_error {p : Params} {s : State} {e : Stop} (he : encodeText p s = .error e) :
    encHead p s = .error e ∨ (Memory.readList s.wb 0 s.wlen = none ∧ e = .refuse (.unwrittenBuffer .wb)) ∨
    e = .raise .invalidField infoNonScalar ∨
    ((∃ head cps, encHead p s = .ok head ∧ Memory.readList s.wb 0 s.wlen = some cps ∧ (∀ c ∈ cps, scalar c = true) ∧
      p.content.fits (cps.flatMap utf8).length = false) ∧ e = .refuse (.overCapacity .mb)) := by
  simp only [encodeText, Check.bind_eq_error, readBuffer_eq_error, readBuffer_eq_ok, textBytes_eq_ok] at he
  rcases he with he | ⟨head, hh, he | ⟨cps, hc, he | ⟨body, ⟨hs, rfl⟩, he⟩⟩⟩
  · exact .inl he
  · exact .inr (.inl he)
  · exact .inr (.inr (.inl (textBytes_eq_error he)))
  · split at he <;> cases he
    rename_i hf
    exact .inr (.inr (.inr ⟨⟨head, cps, hh, hc, hs, by simpa using hf⟩, rfl⟩))

/-- `MENC.B` succeeds exactly on a ready head and a written blob. -/
theorem encodeBlob_eq_ok {p : Params} {s u : State} :
    encodeBlob p s = .ok u ↔ ∃ head body, encHead p s = .ok head ∧ Memory.readList s.bb 0 s.blen = some body ∧
      u = putMessage (head ++ body) s := by
  simp only [encodeBlob, Check.bind_eq_ok, readBuffer_eq_ok, Except.ok.injEq]
  constructor
  · rintro ⟨head, hh, body, hb, rfl⟩
    exact ⟨head, body, hh, hb, rfl⟩
  · rintro ⟨head, body, hh, hb, rfl⟩
    exact ⟨head, hh, body, hb, rfl⟩

/-- How `MENC.B` stops. -/
theorem encodeBlob_eq_error {p : Params} {s : State} {e : Stop} (he : encodeBlob p s = .error e) :
    encHead p s = .error e ∨ (Memory.readList s.bb 0 s.blen = none ∧ e = .refuse (.unwrittenBuffer .bb)) := by
  simp only [encodeBlob, Check.bind_eq_error, readBuffer_eq_error] at he
  rcases he with he | ⟨head, -, he | ⟨body, -, he⟩⟩
  · exact .inl he
  · exact .inr he
  · cases he

/-- `MENC.V` succeeds exactly on a ready head, a written vector and a content that fits. -/
theorem encodeVector_eq_ok {p : Params} {s u : State} :
    encodeVector p s = .ok u ↔ ∃ head ws, encHead p s = .ok head ∧ Memory.readList s.wb 0 s.wlen = some ws ∧
      p.content.fits (4 * s.wlen) = true ∧ u = putMessage (head ++ vectorBytes p.nativeOrder ws) s := by
  simp only [encodeVector, Check.bind_eq_ok, readBuffer_eq_ok]
  constructor
  · rintro ⟨head, hh, ws, hw, h⟩
    split at h
    · cases h
    · rename_i hf
      cases h
      exact ⟨head, ws, hh, hw, by simpa using hf, rfl⟩
  · rintro ⟨head, ws, hh, hw, hf, rfl⟩
    exact ⟨head, hh, ws, hw, by simp [hf]⟩

/-- How `MENC.V` stops. Above the capacity it stops only after every other check. -/
theorem encodeVector_eq_error {p : Params} {s : State} {e : Stop} (he : encodeVector p s = .error e) :
    encHead p s = .error e ∨ (Memory.readList s.wb 0 s.wlen = none ∧ e = .refuse (.unwrittenBuffer .wb)) ∨
    ((∃ head, encHead p s = .ok head ∧ p.content.fits (4 * s.wlen) = false) ∧ e = .refuse (.overCapacity .mb)) := by
  simp only [encodeVector, Check.bind_eq_error, readBuffer_eq_error] at he
  rcases he with he | ⟨head, hh, he | ⟨ws, -, he⟩⟩
  · exact .inl he
  · exact .inr (.inl he)
  · split at he <;> cases he
    rename_i hf
    exact .inr (.inr ⟨⟨head, hh, by simpa using hf⟩, rfl⟩)

/-- `MDEC.T` succeeds exactly on a good head and well-formed UTF-8. -/
theorem decodeText_eq_ok {p : Params} {s u : State} :
    decodeText p s = .ok u ↔ ∃ e cps, decHead p s = .ok e ∧ unutf8 e.rest = some cps ∧ u = putWords e cps s := by
  simp only [decodeText, Check.bind_eq_ok]
  constructor
  · rintro ⟨e, he, h⟩
    split at h
    · cases h
    · rename_i cps hc
      cases h
      exact ⟨e, cps, he, hc, rfl⟩
  · rintro ⟨e, cps, he, hc, rfl⟩
    exact ⟨e, he, by simp [hc]⟩

/-- How `MDEC.T` stops. -/
theorem decodeText_eq_error {p : Params} {s : State} {e : Stop} (he : decodeText p s = .error e) :
    decHead p s = .error e ∨ e = .raise .deserializeError infoContent := by
  simp only [decodeText, Check.bind_eq_error] at he
  rcases he with he | ⟨v, -, he⟩
  · exact .inl he
  · split at he <;> cases he
    exact .inr rfl

/-- `MDEC.B` succeeds exactly on a good head. -/
theorem decodeBlob_eq_ok {p : Params} {s u : State} :
    decodeBlob p s = .ok u ↔ ∃ e, decHead p s = .ok e ∧
      u = { s with
        topic := Reg.of e.topic
        sender := Reg.of e.sender
        bb := Memory.writeList s.bb 0 e.rest
        blen := e.rest.length } := by
  simp only [decodeBlob, Check.bind_eq_ok, Except.ok.injEq, @eq_comm _ _ u]

/-- How `MDEC.B` stops. -/
theorem decodeBlob_eq_error {p : Params} {s : State} {e : Stop} (he : decodeBlob p s = .error e) :
    decHead p s = .error e := by
  simp only [decodeBlob, Check.bind_eq_error] at he
  rcases he with he | ⟨v, -, he⟩
  · exact he
  · cases he

/-- `MDEC.V` succeeds exactly on a good head and a remainder whose length is a multiple of four. -/
theorem decodeVector_eq_ok {p : Params} {s u : State} :
    decodeVector p s = .ok u ↔ ∃ e, decHead p s = .ok e ∧ e.rest.length % 4 = 0 ∧
      u = putWords e (vectorWords p.nativeOrder e.rest) s := by
  simp only [decodeVector, Check.bind_eq_ok]
  constructor
  · rintro ⟨e, he, h⟩
    split at h
    · cases h
    · rename_i hl
      cases h
      exact ⟨e, he, by simpa using hl, rfl⟩
  · rintro ⟨e, he, hl, rfl⟩
    exact ⟨e, he, by simp [hl]⟩

/-- How `MDEC.V` stops. -/
theorem decodeVector_eq_error {p : Params} {s : State} {e : Stop} (he : decodeVector p s = .error e) :
    decHead p s = .error e ∨ e = .raise .deserializeError infoContent := by
  simp only [decodeVector, Check.bind_eq_error] at he
  rcases he with he | ⟨v, -, he⟩
  · exact .inl he
  · split at he <;> cases he
    exact .inr rfl

/-- `MDEC.VN` succeeds exactly when `NEXP` is written, the head is good and there are `NEXP` elements. -/
theorem decodeVectorN_eq_ok {p : Params} {s u : State} :
    decodeVectorN p s = .ok u ↔ s.nexp.written = true ∧ ∃ e, decHead p s = .ok e ∧
      e.rest.length = 4 * s.nexp.value.toNat ∧ u = putWords e (vectorWords p.nativeOrder e.rest) s := by
  simp only [decodeVectorN, Check.bind_eq_ok, Reg.read_eq_ok]
  constructor
  · rintro ⟨n, ⟨hn, rfl⟩, e, he, h⟩
    split at h
    · cases h
    · rename_i hl
      cases h
      exact ⟨hn, e, he, by simpa using hl, rfl⟩
  · rintro ⟨hn, e, he, hl, rfl⟩
    exact ⟨_, ⟨hn, rfl⟩, e, he, by simp [hl]⟩

/-- How `MDEC.VN` stops. -/
theorem decodeVectorN_eq_error {p : Params} {s : State} {e : Stop} (he : decodeVectorN p s = .error e) :
    (s.nexp.written = false ∧ e = .refuse (.unwrittenRegister .nexp)) ∨ decHead p s = .error e ∨
    e = .raise .deserializeError infoContent := by
  simp only [decodeVectorN, Check.bind_eq_error, Reg.read_eq_error] at he
  rcases he with he | ⟨n, -, he | ⟨v, -, he⟩⟩
  · exact .inl he
  · exact .inr (.inl he)
  · split at he <;> cases he
    exact .inr (.inr rfl)

/-! ### The capacity -/

/-- `ENC_HEAD` never stops at a capacity. -/
theorem encHead_ne_overCapacity {p : Params} {s : State} {b : BufName} : encHead p s ≠ .error (.refuse (.overCapacity b)) := by
  intro h
  rcases encHead_eq_error h with ⟨r, h, -⟩ | ⟨-, -, -, h⟩ <;> cases h

/-- `DEC_HEAD` never stops at a capacity. -/
theorem decHead_ne_overCapacity {p : Params} {s : State} {b : BufName} : decHead p s ≠ .error (.refuse (.overCapacity b)) := by
  intro h
  rcases decHead_eq_error h with ⟨-, h⟩ | h | h <;> cases h

/-- The only operations that are refused for a capacity are `MENC.T` and `MENC.V`, whose content does not fit (60_exceptions.md
R272, third row). -/
theorem opBody_overCapacity {i : Instr} (hi : i ∈ operations) {s : State} {b : BufName} :
    opBody i s = .error (.refuse (.overCapacity b)) → b = .mb ∧
      ((i = .mencT ∧ ∃ head cps, encHead Config.params s = .ok head ∧ Memory.readList s.wb 0 s.wlen = some cps ∧
          (∀ c ∈ cps, scalar c = true) ∧ Config.params.content.fits (cps.flatMap utf8).length = false) ∨
       (i = .mencV ∧ ∃ head, encHead Config.params s = .ok head ∧ Config.params.content.fits (4 * s.wlen) = false)) := by
  have enc : ∀ hd : Byte, encodeConfig hd s ≠ .error (.refuse (.overCapacity b)) := fun hd h => by
    rcases encodeConfig_eq_error h with ⟨f, -, h⟩ | ⟨f, -, h⟩ <;> cases h
  refine operations_cases (P := fun i => opBody i s = .error (.refuse (.overCapacity b)) → b = .mb ∧
      ((i = .mencT ∧ ∃ head cps, encHead Config.params s = .ok head ∧ Memory.readList s.wb 0 s.wlen = some cps ∧
          (∀ c ∈ cps, scalar c = true) ∧ Config.params.content.fits (cps.flatMap utf8).length = false) ∨
       (i = .mencV ∧ ∃ head, encHead Config.params s = .ok head ∧ Config.params.content.fits (4 * s.wlen) = false))) hi
    ?_ ?_ ?_ ?_ ?_ ?_ ?_ ?_ ?_ ?_ ?_ ?_
  · exact fun h => absurd h (enc _)
  · exact fun h => absurd h (enc _)
  · intro h
    rcases Check.bind_eq_error.1 h with h | ⟨bytes, -, h⟩
    · cases (readBuffer_eq_error.1 h).2
    · rcases decodeConfig_eq_error h with ⟨-, h⟩ | ⟨hdr, -, h⟩ | h | h <;> cases h
  · intro f h
    rw [opBody_elutV2c] at h
    rcases lookupCodeBody_eq_error h with ⟨-, h⟩ | h <;> cases h
  · intro f h
    rw [opBody_elutC2v] at h
    rcases lookupWordBody_eq_error h with ⟨-, h⟩ | h <;> cases h
  · intro h
    rcases encodeText_eq_error h with h | ⟨-, h⟩ | h | ⟨hx, h⟩
    · exact absurd h encHead_ne_overCapacity
    · cases h
    · cases h
    · cases h
      exact ⟨rfl, .inl ⟨rfl, hx⟩⟩
  · intro h
    rcases encodeBlob_eq_error h with h | ⟨-, h⟩
    · exact absurd h encHead_ne_overCapacity
    · cases h
  · intro h
    rcases encodeVector_eq_error h with h | ⟨-, h⟩ | ⟨hx, h⟩
    · exact absurd h encHead_ne_overCapacity
    · cases h
    · cases h
      exact ⟨rfl, .inr ⟨rfl, hx⟩⟩
  · intro h
    rcases decodeText_eq_error h with h | h
    · exact absurd h decHead_ne_overCapacity
    · cases h
  · exact fun h => absurd (decodeBlob_eq_error h) decHead_ne_overCapacity
  · intro h
    rcases decodeVector_eq_error h with h | h
    · exact absurd h decHead_ne_overCapacity
    · cases h
  · intro h
    rcases decodeVectorN_eq_error h with ⟨-, h⟩ | h | h
    · cases h
    · exact absurd h decHead_ne_overCapacity
    · cases h

end Sys2Proof.Machine
end

