-- ==== Sys2Proof/Tests/Slice0.lean ====
section
/-! SUPPORT. The model's own tests. Expected values are those of spec/95_test_vectors.md (the vector is named) or are written out
from the encoding tables of 30_encoding.md; none is the model's own answer. `Params.vectors` are the parameters those vectors
use. The witness theorems give, for each obligation with hypotheses, a concrete case that meets them. -/

-- One theorem at a time: elaborated side by side they wait for each other, each on a thread of its own.
set_option Elab.async false

namespace Sys2Proof.Tests

open Sys2Proof Sys2Proof.Machine

/-! ### Helpers -/

/-- Sixteen written configuration registers, in index order. -/
def config (v : Field → Word) : RegFile :=
  { moduleAddress := Reg.of (v .moduleAddress), netId := Reg.of (v .netId), baudRate := Reg.of (v .baudRate)
    parity := Reg.of (v .parity), airSpeed := Reg.of (v .airSpeed), packetLen := Reg.of (v .packetLen)
    enableAmbientNoise := Reg.of (v .enableAmbientNoise), transmitPower := Reg.of (v .transmitPower)
    channel := Reg.of (v .channel), enableRssiByte := Reg.of (v .enableRssiByte)
    enablePointToPointMode := Reg.of (v .enablePointToPointMode)
    enableRelayFunction := Reg.of (v .enableRelayFunction), enableLbt := Reg.of (v .enableLbt)
    worMode := Reg.of (v .worMode), worPeriod := Reg.of (v .worPeriod), key := Reg.of (v .key) }

/-- The words of a configuration given as a list of 16. -/
def ofList (l : List Word) (f : Field) : Word := l.getD (fieldInfo f).toNat 0

/-- `CFG-A`. -/
def cfgA : List Word := [258, 3, 9600, 0x00384E31, 24, 240, 0, 22, 18, 0, 0, 0, 0, 0, 2000, 0]

/-- The maxima of vector E4. -/
def cfgMax : List Word := [65535, 255, 115200, 0x00384531, 625, 32, 1, 10, 83, 1, 1, 1, 1, 1, 4000, 65535]

/-- `CFG-B` of vector E6. -/
def cfgB : List Word := [0x1234, 0x56, 1200, 0x00384F31, 3, 64, 1, 17, 0, 1, 0, 1, 0, 1, 1500, 0xBEEF]

/-- The reset state with a configuration written. -/
def withConfig (l : List Word) : State := { State.reset with x := config (ofList l) }

/-- The reset state with a frame candidate in `FB`. -/
def withFrame (bytes : List Byte) : State :=
  { State.reset with fb := Memory.writeList [] 0 bytes, flen := bytes.length }

/-- The reset state with a message in `MB`. -/
def withMessage (bytes : List Byte) : State :=
  { State.reset with mb := Memory.writeList [] 0 bytes, mlen := bytes.length }

/-- The reset state with `TOPIC`, `SENDER` and the elements of `WB` written. -/
def withWords (topic : Byte) (sender : Half) (words : List Word) : State :=
  { State.reset with
    topic := Reg.of topic, sender := Reg.of sender
    wb := Memory.writeList [] 0 words, wlen := words.length }

/-- The reset state with `TOPIC`, `SENDER` and the bytes of `BB` written. -/
def withBlob (topic : Byte) (sender : Half) (bytes : List Byte) : State :=
  { State.reset with
    topic := Reg.of topic, sender := Reg.of sender
    bb := Memory.writeList [] 0 bytes, blen := bytes.length }

/-- What is seen of a next state. -/
def seen {α : Type} (o : Outcome) (f : State → α) : Option α :=
  match o with
  | .next t => some (f t)
  | .fault _ => none
  | .refused _ => none

/-- The refusal, if the outcome is one. -/
def refusal (o : Outcome) : Option Refusal :=
  match o with
  | .next _ => none
  | .fault _ => none
  | .refused r => some r

/-- The whole message and the status. -/
def message (t : State) : Option (List Byte) × Nat × Byte := (Memory.readList t.mb 0 t.mlen, t.mlen, t.status)

/-- Status and detail. -/
def outcome (t : State) : Byte × Byte := (t.status, t.einfo)

/-- The sixteen words. -/
def words (t : State) : List Word := allFields.map (fun f => (t.x.get f).value)

/-! ### WellFormed refuses -/

/-- The frame of vector E1 with another channel. -/
def frameChannel (c : BitVec 8) : FrameFields := ⟨258, 3, 3, 0, 2, 0, 0, 0, c, 0, 0, 0, 0, 0, 3, 0⟩

theorem test_wf_cfSet : (Instr.cfSet (frameChannel 84)).wf = false ∧ (Instr.cfSet (frameChannel 83)).wf = true := by decide
theorem test_wf_cfAns : (Instr.cfAns (frameChannel 84)).wf = false ∧ (Instr.cfAns (frameChannel 83)).wf = true := by decide
theorem test_wf_cfPset : (Instr.cfPset (frameChannel 255)).wf = false ∧ (Instr.cfPset (frameChannel 0)).wf = true := by decide
theorem test_wf_me : (Instr.me 0 0x1234 []).wf = false ∧ topicOk 3 4 = false ∧ topicOk 3 3 = true ∧ topicOk 3 1 = true := by
  refine ⟨by simp [Instr.wf, topicOk], by decide, by decide, by decide⟩

/-! ### Decoding words written out from 30_encoding.md -/

/-- The codes of R91, bit by bit as the opcode table prints them. -/
theorem test_decode_register :
    decodeTableWord 8 0b00000001 = some .rencSet ∧
    decodeTableWord 8 0b00000010 = some .rencAns ∧
    decodeTableWord 8 0b00000011 = some .rdec := by
  decide

theorem test_decode_v2c :
    decodeTableWord 8 0b00100010 = some .elutV2cBaudRate ∧
    decodeTableWord 8 0b00100011 = some .elutV2cParity ∧
    decodeTableWord 8 0b00100100 = some .elutV2cAirSpeed ∧
    decodeTableWord 8 0b00100101 = some .elutV2cPacketLen ∧
    decodeTableWord 8 0b00100111 = some .elutV2cTransmitPower ∧
    decodeTableWord 8 0b00101110 = some .elutV2cWorPeriod := by
  decide

theorem test_decode_c2v :
    decodeTableWord 8 0b00110010 = some .elutC2vBaudRate ∧
    decodeTableWord 8 0b00110011 = some .elutC2vParity ∧
    decodeTableWord 8 0b00110100 = some .elutC2vAirSpeed ∧
    decodeTableWord 8 0b00110101 = some .elutC2vPacketLen ∧
    decodeTableWord 8 0b00110111 = some .elutC2vTransmitPower ∧
    decodeTableWord 8 0b00111110 = some .elutC2vWorPeriod := by
  decide

theorem test_decode_menc :
    decodeTableWord 8 0b01000000 = some .mencT ∧
    decodeTableWord 8 0b01000001 = some .mencB ∧
    decodeTableWord 8 0b01000010 = some .mencV := by
  decide

theorem test_decode_mdec :
    decodeTableWord 8 0b01001000 = some .mdecT ∧
    decodeTableWord 8 0b01001001 = some .mdecB ∧
    decodeTableWord 8 0b01001010 = some .mdecV ∧
    decodeTableWord 8 0b01001011 = some .mdecVn := by
  decide

/-- Vector E1 (`C2 00 09 01 02 03 62 00 12 03 00 00`) by the fields of R96: reg6 `011 00 010`, reg7 `00 0 000 00`, reg9
`0 0 0 0 0 011`. -/
theorem test_decode_cfSet : decodeTableWord 96 0xC20009010203620012030000 =
    some (.cfSet ⟨0x0102, 3, 0b011, 0b00, 0b010, 0b00, 0b0, 0b00, 18, 0b0, 0b0, 0b0, 0b0, 0b0, 0b011, 0⟩) := by decide

/-- Vector E6: reg6 `000 01 000`, reg7 `10 1 000 01`, reg9 `1 0 1 0 1 010`. -/
theorem test_decode_cfAns : decodeTableWord 96 0xC1000912345608A100AABEEF =
    some (.cfAns ⟨0x1234, 0x56, 0b000, 0b01, 0b000, 0b10, 0b1, 0b01, 0, 0b1, 0b0, 0b1, 0b0, 0b1, 0b010, 0xBEEF⟩) := by decide

/-- Vector D4: reg6 `111 10 111`, reg7 `11 1 000 11`, reg9 `1 1 1 1 1 111`. -/
theorem test_decode_cfPset : decodeTableWord 96 0xC00009FFFFFFF7E353FFFFFF =
    some (.cfPset ⟨0xFFFF, 0xFF, 0b111, 0b10, 0b111, 0b11, 0b1, 0b11, 0x53, 0b1, 0b1, 0b1, 0b1, 0b1, 0b111, 0xFFFF⟩) := by decide

/-- Vector M1 (`02 34 12 68 69`), the first byte in bits 7..0, at three topics. -/
theorem test_decode_me : decodeMessageBytes 3 (bytesLow 0x6968123402 5) = .ok (.me 2 0x1234 [0x68, 0x69]) ∧
    decodeMessageBytes 3 [0x04, 0x34, 0x12] = .error .messageTopic ∧
    decodeMessageBytes 3 [0x02, 0x34] = .error .messageLength := by decide

/-- The rejections of `OP` and `CF` by name (vectors X6, D12, D15, D6, D9, and R95 for `00 0A`). -/
theorem test_decode_rejects :
    decode (.op 0x00) = .error .reservedCode ∧ decode (.op 0x26) = .error .reservedCode ∧
    decode (.op 0x4C) = .error .reservedCode ∧ decode (.op 0xFF) = .error .reservedCode ∧
    decode (.frame [0xC2, 0, 9, 1, 2, 3, 0x62, 0, 0x12, 3, 0]) = .error .frameLength ∧
    decode (.frame [0x99, 0, 9, 1, 2, 3, 0x62, 0, 0x12, 3, 0, 0]) = .error .frameHeader ∧
    decode (.frame [0xC2, 0, 10, 1, 2, 3, 0x62, 0, 0x12, 3, 0, 0]) = .error .frameFixedBytes ∧
    decode (.frame [0xC2, 0, 9, 1, 2, 3, 0x62, 4, 0x12, 3, 0, 0]) = .error .frameReservedBits ∧
    decode (.frame [0xC2, 0, 9, 1, 2, 3, 0x62, 0, 84, 3, 0, 0]) = .error .frameChannel := by decide

/-! ### The register command unit -/

/-- Vector E4. -/
theorem test_rencSet_maxima :
    seen (exec .rencSet (withConfig cfgMax)) (fun t => (Memory.readList t.fb 0 12, t.flen, t.status)) =
      some (some [0xC2, 0, 9, 0xFF, 0xFF, 0xFF, 0xF7, 0xE3, 0x53, 0xFF, 0xFF, 0xFF], 12, 0x00) := by decide +kernel

/-- Vector E24: `FB[12..]` is kept. -/
theorem test_rencSet_keeps_rest :
    seen (exec .rencSet { withConfig cfgA with fb := Memory.writeList [] 0 (List.replicate 16 0xAA), flen := 16 })
        (fun t => (Memory.readList t.fb 0 16, t.flen)) =
      some (some [0xC2, 0, 9, 1, 2, 3, 0x62, 0, 0x12, 3, 0, 0, 0xAA, 0xAA, 0xAA, 0xAA], 12) := by decide +kernel

/-- Vector E6. -/
theorem test_rencAns :
    seen (exec .rencAns (withConfig cfgB)) (fun t => Memory.readList t.fb 0 12) =
      some (some [0xC1, 0, 9, 0x12, 0x34, 0x56, 0x08, 0xA1, 0x00, 0xAA, 0xBE, 0xEF]) := by decide +kernel

/-- Vector E22: the lowest index wins. -/
theorem test_rencAns_invalid :
    seen (exec .rencAns (withConfig [258, 256, 9600, 0x00384E31, 24, 240, 0, 22, 200, 0, 0, 0, 0, 0, 2000, 0]))
      (fun t => (t.status, t.einfo, t.flen)) = some (0x01, 0x01, 0) := by decide +kernel

/-- Vector D3. -/
theorem test_rdec :
    seen (exec .rdec (withFrame [0xC1, 0, 9, 0x12, 0x34, 0x56, 0x08, 0xA1, 0x00, 0xAA, 0xBE, 0xEF]))
      (fun t => (words t, t.cmd, t.sreg, t.dlen, t.status)) =
      some (cfgB, Reg.of 0xC1, Reg.of 0x00, Reg.of 0x09, 0x00) := by decide +kernel

/-- Vectors D19, D18, D13, X9: which check comes first. -/
theorem test_rdec_order :
    seen (exec .rdec (withFrame [0xC2, 0, 9, 1, 2, 3, 0x62, 4, 0x54, 3, 0, 0])) outcome = some (0x01, 0x10) ∧
    seen (exec .rdec (withFrame [0xC3, 0, 9, 1, 2, 3, 0x62, 4, 0x54, 3, 0, 0])) outcome = some (0x03, 0xC3) ∧
    seen (exec .rdec (withFrame [0xC2, 0, 9, 1, 2, 3, 0x62, 0, 0x12, 3, 0, 0, 0])) outcome = some (0x02, 0x0D) ∧
    seen (exec .rdec State.reset) outcome = some (0x02, 0x00) := by decide +kernel

/-! ### The lookups, from the table of 95_test_vectors.md section 4 -/

/-- The reset state with `LV` written. -/
def withLv (w : Word) : State := { State.reset with lv := Reg.of w }

/-- The reset state with `LC` written. -/
def withLc (b : Byte) : State := { State.reset with lc := Reg.of b }

theorem test_elutV2cBaudRate :
    seen (exec .elutV2cBaudRate (withLv 115200)) (fun t => (t.lc, t.status)) = some (Reg.of 7, 0x00) ∧
    seen (exec .elutV2cBaudRate (withLv 1200)) (fun t => (t.lc, t.status)) = some (Reg.of 0, 0x00) ∧
    seen (exec .elutV2cBaudRate (withLv 9601)) (fun t => (t.lc.written, t.status, t.einfo)) = some (false, 0x01, 2) := by decide +kernel

theorem test_elutV2cParity :
    seen (exec .elutV2cParity (withLv 3687729)) (fun t => (t.lc, t.status)) = some (Reg.of 2, 0x00) ∧
    seen (exec .elutV2cParity (withLv 3698225)) (fun t => (t.lc.written, t.status, t.einfo)) = some (false, 0x01, 3) := by decide +kernel

theorem test_elutV2cAirSpeed :
    seen (exec .elutV2cAirSpeed (withLv 625)) (fun t => (t.lc, t.status)) = some (Reg.of 7, 0x00) ∧
    seen (exec .elutV2cAirSpeed (withLv 25)) (fun t => (t.lc.written, t.status, t.einfo)) = some (false, 0x01, 4) := by decide +kernel

theorem test_elutV2cPacketLen :
    seen (exec .elutV2cPacketLen (withLv 32)) (fun t => (t.lc, t.status)) = some (Reg.of 3, 0x00) ∧
    seen (exec .elutV2cPacketLen (withLv 239)) (fun t => (t.lc.written, t.status, t.einfo)) = some (false, 0x01, 5) := by decide +kernel

theorem test_elutV2cTransmitPower :
    seen (exec .elutV2cTransmitPower (withLv 17)) (fun t => (t.lc, t.status)) = some (Reg.of 1, 0x00) ∧
    seen (exec .elutV2cTransmitPower (withLv 20)) (fun t => (t.lc.written, t.status, t.einfo)) = some (false, 0x01, 7) := by decide +kernel

theorem test_elutV2cWorPeriod :
    seen (exec .elutV2cWorPeriod (withLv 2000)) (fun t => (t.lc, t.status)) = some (Reg.of 3, 0x00) ∧
    seen (exec .elutV2cWorPeriod (withLv 4500)) (fun t => (t.lc.written, t.status, t.einfo)) = some (false, 0x01, 14) := by decide +kernel

theorem test_elutC2vBaudRate :
    seen (exec .elutC2vBaudRate (withLc 4)) (fun t => (t.lv, t.status)) = some (Reg.of 19200, 0x00) ∧
    seen (exec .elutC2vBaudRate (withLc 8)) (fun t => (t.lv.written, t.status, t.einfo)) = some (false, 0x01, 2) := by decide +kernel

theorem test_elutC2vParity :
    seen (exec .elutC2vParity (withLc 3)) (fun t => (t.lv, t.status)) = some (Reg.of 3690033, 0x00) ∧
    seen (exec .elutC2vParity (withLc 2)) (fun t => (t.lv, t.status)) = some (Reg.of 3687729, 0x00) ∧
    seen (exec .elutC2vParity (withLc 4)) (fun t => (t.lv.written, t.status, t.einfo)) = some (false, 0x01, 3) := by decide +kernel

theorem test_elutC2vAirSpeed :
    seen (exec .elutC2vAirSpeed (withLc 1)) (fun t => (t.lv, t.status)) = some (Reg.of 12, 0x00) ∧
    seen (exec .elutC2vAirSpeed (withLc 128)) (fun t => (t.lv.written, t.status, t.einfo)) = some (false, 0x01, 4) := by decide +kernel

theorem test_elutC2vPacketLen :
    seen (exec .elutC2vPacketLen (withLc 3)) (fun t => (t.lv, t.status)) = some (Reg.of 32, 0x00) ∧
    seen (exec .elutC2vPacketLen (withLc 4)) (fun t => (t.lv.written, t.status, t.einfo)) = some (false, 0x01, 5) := by decide +kernel

theorem test_elutC2vTransmitPower :
    seen (exec .elutC2vTransmitPower (withLc 3)) (fun t => (t.lv, t.status)) = some (Reg.of 10, 0x00) ∧
    seen (exec .elutC2vTransmitPower (withLc 4)) (fun t => (t.lv.written, t.status, t.einfo)) = some (false, 0x01, 7) := by decide +kernel

theorem test_elutC2vWorPeriod :
    seen (exec .elutC2vWorPeriod (withLc 0)) (fun t => (t.lv, t.status)) = some (Reg.of 500, 0x00) ∧
    seen (exec .elutC2vWorPeriod (withLc 255)) (fun t => (t.lv.written, t.status, t.einfo)) = some (false, 0x01, 14) := by decide +kernel

/-! ### The message envelope unit, with the parameters of the vectors -/

/-- Vectors M2 and M3. -/
theorem test_mencT :
    seen (settle (withWords 1 0xFFFF [0xE9, 0x20AC, 0x1F600]) (encodeText Params.vectors (withWords 1 0xFFFF [0xE9, 0x20AC, 0x1F600])))
      message = some (some [0x01, 0xFF, 0xFF, 0xC3, 0xA9, 0xE2, 0x82, 0xAC, 0xF0, 0x9F, 0x98, 0x80], 12, 0x00) ∧
    seen (settle (withWords 3 1 [0x61, 0, 0x62]) (encodeText Params.vectors (withWords 3 1 [0x61, 0, 0x62])))
      message = some (some [0x03, 0x01, 0x00, 0x61, 0x00, 0x62], 6, 0x00) := by decide +kernel

/-- Vectors M20, M22, X8. -/
theorem test_mencT_stops :
    seen (settle (withWords 1 0 [0x41, 0xD800]) (encodeText Params.vectors (withWords 1 0 [0x41, 0xD800]))) outcome =
      some (0x01, 0x12) ∧
    seen (settle (withWords 0 0 [0xD800]) (encodeText Params.vectors (withWords 0 0 [0xD800]))) outcome = some (0x01, 0x11) ∧
    refusal (settle (withWords 1 0 (List.replicate 17 0x1F600)) (encodeText Params.vectors (withWords 1 0 (List.replicate 17 0x1F600)))) =
      some (.overCapacity .mb) := by decide +kernel

/-- Vector M5. -/
theorem test_mencB :
    seen (settle (withBlob 1 0 [0xDE, 0xAD, 0xBE, 0xEF]) (encodeBlob Params.vectors (withBlob 1 0 [0xDE, 0xAD, 0xBE, 0xEF])))
      message = some (some [0x01, 0x00, 0x00, 0xDE, 0xAD, 0xBE, 0xEF], 7, 0x00) := by decide +kernel

/-- Vector M19: `TOPIC` = 4 with `TOPIC_COUNT` = 3; vector X4. -/
theorem test_mencB_stops :
    seen (settle (withBlob 4 0 []) (encodeBlob Params.vectors (withBlob 4 0 []))) outcome = some (0x01, 0x11) ∧
    refusal (exec .mencB State.reset) = some (.unwrittenRegister .topic) := by decide +kernel

/-- Vector M6 in both byte orders. -/
theorem test_mencV :
    seen (settle (withWords 3 0xFF [0x3F800000, 0xBF800000]) (encodeVector Params.vectors (withWords 3 0xFF [0x3F800000, 0xBF800000])))
      message = some (some [0x03, 0xFF, 0x00, 0x00, 0x00, 0x80, 0x3F, 0x00, 0x00, 0x80, 0xBF], 11, 0x00) ∧
    seen (settle (withWords 3 0xFF [0x3F800000, 0xBF800000])
        (encodeVector { Params.vectors with nativeOrder := .big } (withWords 3 0xFF [0x3F800000, 0xBF800000])))
      message = some (some [0x03, 0xFF, 0x00, 0x3F, 0x80, 0x00, 0x00, 0xBF, 0x80, 0x00, 0x00], 11, 0x00) := by decide +kernel

/-- Vector X7. -/
theorem test_mencV_capacity :
    refusal (settle (withWords 1 0 (List.replicate 17 0)) (encodeVector Params.vectors (withWords 1 0 (List.replicate 17 0)))) =
      some (.overCapacity .mb) ∧
    seen (settle (withWords 1 0 (List.replicate 16 0)) (encodeVector Params.vectors (withWords 1 0 (List.replicate 16 0))))
      (fun t => (t.mlen, t.status)) = some (67, 0x00) := by decide +kernel

/-- What a decoder gives of the head and of `WB`. -/
def decodedWords (t : State) : Reg 8 × Reg 16 × Option (List Word) × Nat × Byte :=
  (t.topic, t.sender, Memory.readList t.wb 0 t.wlen, t.wlen, t.status)

/-- Vector M1 backwards. -/
theorem test_mdecT :
    seen (settle (withMessage [0x02, 0x34, 0x12, 0x68, 0x69]) (decodeText Params.vectors (withMessage [0x02, 0x34, 0x12, 0x68, 0x69])))
      decodedWords = some (Reg.of 2, Reg.of 0x1234, some [0x68, 0x69], 2, 0x00) := by decide +kernel

/-- Vectors M15, M16, M17 and the content `41 C3 28`. -/
theorem test_mdecT_stops :
    seen (settle (withMessage [4, 0x34, 0x12]) (decodeText Params.vectors (withMessage [4, 0x34, 0x12]))) outcome = some (0x04, 0x02) ∧
    seen (exec .mdecT (withMessage [0xFF, 0x00])) outcome = some (0x04, 0x01) ∧
    seen (settle (withMessage [0, 0, 0, 0xC3]) (decodeText Params.vectors (withMessage [0, 0, 0, 0xC3]))) outcome = some (0x04, 0x02) ∧
    seen (settle (withMessage [1, 0, 0, 0x41, 0xC3, 0x28]) (decodeText Params.vectors (withMessage [1, 0, 0, 0x41, 0xC3, 0x28])))
      outcome = some (0x04, 0x03) := by decide +kernel

/-- Vector M23: a blob `68 69`. -/
theorem test_mdecB :
    seen (settle (withMessage [0x02, 0x34, 0x12, 0x68, 0x69]) (decodeBlob Params.vectors (withMessage [0x02, 0x34, 0x12, 0x68, 0x69])))
      (fun t => (t.topic, t.sender, Memory.readList t.bb 0 t.blen, t.blen)) =
      some (Reg.of 2, Reg.of 0x1234, some [0x68, 0x69], 2) := by decide +kernel

/-- Vectors M6 backwards and M11. -/
theorem test_mdecV :
    seen (settle (withMessage [3, 0xFF, 0, 0, 0, 0x80, 0x3F, 0, 0, 0x80, 0xBF])
        (decodeVector Params.vectors (withMessage [3, 0xFF, 0, 0, 0, 0x80, 0x3F, 0, 0, 0x80, 0xBF])))
      decodedWords = some (Reg.of 3, Reg.of 0xFF, some [0x3F800000, 0xBF800000], 2, 0x00) ∧
    seen (settle (withMessage [3, 0xFF, 0, 0, 0, 0x80, 0x3F, 0])
        (decodeVector Params.vectors (withMessage [3, 0xFF, 0, 0, 0, 0x80, 0x3F, 0]))) outcome = some (0x04, 0x03) := by decide +kernel

/-- `MDEC.VN` on one element, with `NEXP` = 1 and 2 (R210), and vector X5. -/
theorem test_mdecVn :
    seen (settle { withMessage [3, 0xCD, 0xAB, 0x78, 0x56, 0x34, 0x12] with nexp := Reg.of 1 }
        (decodeVectorN Params.vectors { withMessage [3, 0xCD, 0xAB, 0x78, 0x56, 0x34, 0x12] with nexp := Reg.of 1 }))
      decodedWords = some (Reg.of 3, Reg.of 0xABCD, some [0x12345678], 1, 0x00) ∧
    seen (settle { withMessage [3, 0xCD, 0xAB, 0x78, 0x56, 0x34, 0x12] with nexp := Reg.of 2 }
        (decodeVectorN Params.vectors { withMessage [3, 0xCD, 0xAB, 0x78, 0x56, 0x34, 0x12] with nexp := Reg.of 2 }))
      outcome = some (0x04, 0x03) ∧
    refusal (exec .mdecVn (withMessage [3, 0xCD, 0xAB])) = some (.unwrittenRegister .nexp) := by decide +kernel

/-- A count of 2^30 elements is 2^32 bytes, compared without a 32-bit wrap to 0 (R210). -/
theorem test_mdecVn_no_wrap :
    seen (settle { withMessage [3, 0xCD, 0xAB] with nexp := Reg.of 0x40000000 }
        (decodeVectorN Params.vectors { withMessage [3, 0xCD, 0xAB] with nexp := Reg.of 0x40000000 }))
      outcome = some (0x04, 0x03) := by decide +kernel

/-! ### Steps, reset, host -/

/-- The reset machine runs `RDEC` next; the wire formats reach their buffers (R120). -/
theorem test_steps :
    seen (step (State.reset.withFetchWord 8 0x03)) outcome = some (0x02, 0x00) ∧
    seen (hostFrame Params.vectors (packFields 0xC2#8 (frameChannel 18)) State.reset) (fun t => (Memory.readList t.fb 0 t.flen, t.flen)) =
      some (some [0xC2, 0, 9, 1, 2, 3, 0x62, 0, 0x12, 3, 0, 0], 12) ∧
    seen (hostMessage Params.vectors (packMessage 2 0x1234 [0x68, 0x69]) State.reset) (fun t => Memory.readList t.mb 0 t.mlen) =
      some (some [0x02, 0x34, 0x12, 0x68, 0x69]) := by decide +kernel

/-- Vectors X1, X3 and X6. -/
theorem test_refusals :
    refusal (exec .rencSet State.reset) = some (.unwrittenRegister (.x .moduleAddress)) ∧
    refusal (exec .elutV2cBaudRate State.reset) = some (.unwrittenRegister .lv) ∧
    refusal (step (State.reset.withFetchWord 8 0x43)) = some (.reservedCode 0x43) := by decide +kernel

/-! ### Witnesses: cases that meet the hypotheses of the obligations -/

theorem witness_DecodeOfEncode : (Instr.cfSet (frameChannel 83)).wf = true ∧ (Instr.me 1 0x1234 [0x68]).wf = true := by
  refine ⟨by decide, ?_⟩
  simp [Instr.wf, topicOk, Config.params]

theorem witness_EncodeOfDecode : decode (.op 0x4B) = .ok .mdecVn := by decide

theorem witness_ReservedCodeIsRefused : (0x00 : Byte) ∉ definedCodes ∧ (0x4C : Byte) ∉ definedCodes ∧ (0xFF : Byte) ∉ definedCodes := by
  decide

theorem witness_StepRunsDecodedInstr :
    ({ State.reset with pending := [.op 0x03, .expect] } : State).pending = .op 0x03 :: [.expect] ∧ decode (.op 0x03) = .ok .rdec := by
  decide

theorem witness_PresentedWordRunsNext : decodeTableWord 8 0x03 = some .rdec := by decide

theorem witness_StepServesHostActions :
    (({ State.reset with pending := [.expect] } : State).pending = .expect :: [] ∧ decode .expect = .error .hostAction) ∧
    State.reset.pending = [] := by decide

theorem witness_ResetLeaves : ∃ t, ({ withLc 3 with pending := [.reset] } : State).pending = .reset :: [] ∧
    step { withLc 3 with pending := [.reset] } = .next t := ⟨_, rfl, rfl⟩

theorem witness_CodeDefinedIffValid : v2c .parity 0x00384531 = some 2 := by decide

theorem witness_TablesUndoEachOther : v2c .worPeriod 4000 = some 7 ∧ c2v .parity 3 = some 0x00384E31 := by decide

theorem witness_FieldTableRows : (4000, 7) ∈ listedRows .worPeriod ∧ (0x00384531, 2) ∈ listedRows .parity ∧
    c2v .parity 3 = some 0x00384E31 := by decide

theorem witness_LookupCodeRule : State.reset.lv.written = false ∧
    ((withLv 625).lv.written = true ∧ valid (tableField .airSpeed) (withLv 625).lv.value = true) ∧
    ((withLv 626).lv.written = true ∧ valid (tableField .airSpeed) (withLv 626).lv.value = false) := by decide

theorem witness_LookupWordRule : State.reset.lc.written = false ∧
    ((withLc 3).lc.written = true ∧ (withLc 3).lc.value.toNat < 2 ^ codeWidth .parity) ∧
    ((withLc 4).lc.written = true ∧ 2 ^ codeWidth .parity ≤ (withLc 4).lc.value.toNat) := by decide

theorem witness_LookupRoundTrip :
    ((withLv 10).lv.written = true ∧ valid (tableField .transmitPower) (withLv 10).lv.value = true) ∧
    ((withLc 7).lc.written = true ∧ (withLc 7).lc.value.toNat < 2 ^ codeWidth .baudRate) := by decide

/-- A state whose sixteen registers are written and at the maxima of their domains. -/
theorem maxima_ready : (∀ f, ((withConfig cfgMax).x.get f).written = true) ∧
    (∀ f, valid f ((withConfig cfgMax).x.get f).value = true) := by
  constructor <;> intro f <;> cases f <;> decide

theorem witness_EncodeConfigWritesFrame : isEncoder .rencSet 0xC2 ∧ isEncoder .rencAns 0xC1 ∧
    (∀ f, ((withConfig cfgMax).x.get f).written = true) ∧ (∀ f, valid f ((withConfig cfgMax).x.get f).value = true) :=
  ⟨.inl ⟨rfl, rfl⟩, .inr ⟨rfl, rfl⟩, maxima_ready⟩

/-- Vector E9, and the last register: key. -/
theorem witness_EncodeConfigReportsLowestInvalidField : isEncoder .rencSet 0xC2 ∧
    ((∀ g, ((withConfig [258, 256]).x.get g).written = true) ∧
      valid .netId ((withConfig [258, 256]).x.get .netId).value = false ∧
      (∀ g, (fieldInfo g).toNat < (fieldInfo .netId).toNat → valid g ((withConfig [258, 256]).x.get g).value = true)) ∧
    seen (exec .rencSet (withConfig [258, 256])) (fun t => t.status) = some 0x01 := by
  refine ⟨.inl ⟨rfl, rfl⟩, ⟨?_, by decide, ?_⟩, by decide⟩ <;> intro g <;> cases g <;> decide

theorem witness_DecodeConfigReadsFrame : (withFrame [0xC0, 5, 3, 1, 2, 3, 0x7A, 0xE3, 83, 0xFF, 0, 1]).flen = 12 ∧
    Memory.readList (withFrame [0xC0, 5, 3, 1, 2, 3, 0x7A, 0xE3, 83, 0xFF, 0, 1]).fb 0 12 =
      some [0xC0, 5, 3, 1, 2, 3, 0x7A, 0xE3, 83, 0xFF, 0, 1] ∧
    ((0xE3 : Byte) >>> 2) &&& 7#8 = 0#8 ∧ (83 : Byte).toNat ≤ 83 := by decide

theorem witness_DecodeConfigFailures :
    (bufferWritten (withFrame [0xC2]).fb (withFrame [0xC2]).flen = true ∧ (withFrame [0xC2]).flen ≠ 12) ∧
    (bufferWritten State.reset.fb State.reset.flen = true ∧ State.reset.flen ≠ 12) ∧
    (Memory.readList (withFrame [0xC3, 0, 9, 1, 2, 3, 0x62, 4, 84, 3, 0, 0]).fb 0 12 =
        some [0xC3, 0, 9, 1, 2, 3, 0x62, 4, 84, 3, 0, 0] ∧
      (0xC3 : Byte) ≠ 0xC2 ∧ (0xC3 : Byte) ≠ 0xC1 ∧ (0xC3 : Byte) ≠ 0xC0) ∧
    (Memory.readList (withFrame [0xC2, 0, 9, 1, 2, 3, 0x62, 4, 84, 3, 0, 0]).fb 0 12 =
        some [0xC2, 0, 9, 1, 2, 3, 0x62, 4, 84, 3, 0, 0] ∧ ((4 : Byte) >>> 2) &&& 7#8 ≠ 0#8) ∧
    (Memory.readList (withFrame [0xC1, 0, 9, 1, 2, 3, 0x62, 0, 84, 3, 0, 0]).fb 0 12 =
        some [0xC1, 0, 9, 1, 2, 3, 0x62, 0, 84, 3, 0, 0] ∧ ((0 : Byte) >>> 2) &&& 7#8 = 0#8 ∧ 83 < (84 : Byte).toNat) := by decide

theorem witness_HeaderDoesNotChangeFields :
    Memory.readList (withFrame [0xC2, 0, 9, 1, 2, 3, 0x62, 0, 18, 3, 0, 0]).fb 0 12 = some (0xC2 :: [0, 9, 1, 2, 3, 0x62, 0, 18, 3, 0, 0]) ∧
    Memory.readList (withFrame [0xC0, 0, 9, 1, 2, 3, 0x62, 0, 18, 3, 0, 0]).fb 0 12 = some (0xC0 :: [0, 9, 1, 2, 3, 0x62, 0, 18, 3, 0, 0]) ∧
    seen (exec .rdec (withFrame [0xC2, 0, 9, 1, 2, 3, 0x62, 0, 18, 3, 0, 0])) (fun t => t.status) = some 0x00 ∧
    Memory.readList (withFrame [0x99, 0, 9, 1, 2, 3, 0x62, 0, 18, 3, 0, 0]).fb 0 12 = some (0x99 :: [0, 9, 1, 2, 3, 0x62, 0, 18, 3, 0, 0]) ∧
    (0x99 : Byte) ≠ 0xC2 ∧ (0x99 : Byte) ≠ 0xC1 ∧ (0x99 : Byte) ≠ 0xC0 := by decide

/-- Both clauses: the second with one state twice, which meets its hypotheses together with what the first clause gives. -/
theorem witness_EncodeThenDecodeConfig : isEncoder .rencAns 0xC1 ∧
    (∀ f, ((withConfig cfgMax).x.get f).written = true) ∧ (∀ f, valid f ((withConfig cfgMax).x.get f).value = true) ∧
    ∃ t, exec .rencAns (withConfig cfgMax) = .next t ∧ Memory.readList t.fb 0 12 = Memory.readList t.fb 0 12 :=
  ⟨.inr ⟨rfl, rfl⟩, maxima_ready.1, maxima_ready.2, _, rfl, rfl⟩

theorem witness_DecodeThenEncodeCanonicalFrame : isEncoder .rencAns 0xC1 ∧
    (withFrame [0xC1, 0, 9, 1, 2, 3, 0xF7, 0xE3, 83, 0xFF, 0, 1]).flen = 12 ∧
    Memory.readList (withFrame [0xC1, 0, 9, 1, 2, 3, 0xF7, 0xE3, 83, 0xFF, 0, 1]).fb 0 12 =
      some [0xC1, 0, 9, 1, 2, 3, 0xF7, 0xE3, 83, 0xFF, 0, 1] ∧
    ((0xF7 : Byte) >>> 3) &&& 3#8 ≠ 3#8 ∧ ((0xE3 : Byte) >>> 2) &&& 7#8 = 0#8 ∧ (83 : Byte).toNat ≤ 83 :=
  ⟨.inr ⟨rfl, rfl⟩, by decide, by decide, by decide, by decide, by decide⟩

/-- The frame of program P3: another header, odd bytes 1 and 2, parity code 3. -/
theorem witness_ReencodedAcceptedFrame :
    (withFrame [0xC0, 5, 3, 1, 2, 3, 0x7A, 0, 0x12, 3, 0, 0]).flen = 12 ∧
    Memory.readList (withFrame [0xC0, 5, 3, 1, 2, 3, 0x7A, 0, 0x12, 3, 0, 0]).fb 0 12 =
      some [0xC0, 5, 3, 1, 2, 3, 0x7A, 0, 0x12, 3, 0, 0] ∧
    seen (exec .rdec (withFrame [0xC0, 5, 3, 1, 2, 3, 0x7A, 0, 0x12, 3, 0, 0])) (fun t => t.status) = some 0x00 := by decide

theorem witness_DecodeEncodeDecodeIsDecode : isEncoder .rencSet 0xC2 ∧
    seen (exec .rdec (withFrame [0xC0, 5, 3, 1, 2, 3, 0x7A, 0, 0x12, 3, 0, 0])) (fun t => t.status) = some 0x00 :=
  ⟨.inl ⟨rfl, rfl⟩, by decide⟩

theorem witness_Utf8RoundTrip : (∀ c ∈ [0xD7FF#32, 0xE000#32, 0x10FFFF#32], scalar c = true) ∧
    unutf8 [0xF4, 0x8F, 0xBF, 0xBF] = some [0x10FFFF] := by
  refine ⟨?_, by decide⟩
  intro c hc
  simp only [List.mem_cons, List.not_mem_nil, or_false] at hc
  rcases hc with rfl | rfl | rfl <;> decide

/-- Topics 1 and 3 are enumerated whatever `TOPIC_COUNT` is. -/
theorem head_ready_low (s : State) (t : Byte) (n : Half) (ht : 1 ≤ t.toNat ∧ t.toNat ≤ 3)
    (h : s.topic = Reg.of t ∧ s.sender = Reg.of n) : HeadReady Config.params s := by
  refine ⟨by rw [h.1]; rfl, by rw [h.2]; rfl, by rw [h.1]; exact ht.1, ?_⟩
  rw [h.1]
  show t.toNat ≤ Config.topicCountDraw % 253 + 3
  omega

/-- Thirty-two elements always fit (`CONTENT_MAX` is at least 32, R7). -/
theorem fits_low {n : Nat} (h : n ≤ 32) : Config.params.content.fits n = true := by
  show (decide (n ≤ Config.contentMaxAbove + 32) || Config.contentInfinite) = true
  rw [decide_eq_true (by omega), Bool.true_or]

theorem witness_EncodeTextWritesMessage : HeadReady Config.params (withWords 1 0xFFFF [0x68, 0x10FFFF]) ∧
    Memory.readList (withWords 1 0xFFFF [0x68, 0x10FFFF]).wb 0 (withWords 1 0xFFFF [0x68, 0x10FFFF]).wlen = some [0x68, 0x10FFFF] ∧
    (∀ c ∈ [0x68#32, 0x10FFFF#32], scalar c = true) ∧
    Config.params.content.fits (([0x68#32, 0x10FFFF#32] : List Word).flatMap utf8).length = true := by
  refine ⟨head_ready_low _ 1 _ (by decide) ⟨rfl, rfl⟩, by decide, ?_, fits_low (by decide)⟩
  intro c hc
  simp only [List.mem_cons, List.not_mem_nil, or_false] at hc
  rcases hc with rfl | rfl <;> decide

theorem witness_EncodeBlobWritesMessage : HeadReady Config.params (withBlob 3 0 [0xDE]) ∧
    Memory.readList (withBlob 3 0 [0xDE]).bb 0 (withBlob 3 0 [0xDE]).blen = some [0xDE] :=
  ⟨head_ready_low _ 3 _ (by decide) ⟨rfl, rfl⟩, by decide⟩

theorem witness_EncodeVectorWritesMessage : HeadReady Config.params (withWords 3 0 [0x12345678]) ∧
    Memory.readList (withWords 3 0 [0x12345678]).wb 0 (withWords 3 0 [0x12345678]).wlen = some [0x12345678] ∧
    Config.params.content.fits (4 * (withWords 3 0 [0x12345678]).wlen) = true :=
  ⟨head_ready_low _ 3 _ (by decide) ⟨rfl, rfl⟩, by decide, fits_low (by decide)⟩

theorem witness_MessageEncoderFailures :
    ((withWords 0 0 []).topic.written = true ∧ (withWords 0 0 []).sender.written = true ∧ (withWords 0 0 []).topic.value = 0#8) ∧
    (HeadReady Config.params (withWords 1 0 [0xD800]) ∧
      Memory.readList (withWords 1 0 [0xD800]).wb 0 (withWords 1 0 [0xD800]).wlen = some [0xD800] ∧ scalar 0xD800 = false) :=
  ⟨by decide, head_ready_low _ 1 _ (by decide) ⟨rfl, rfl⟩, by decide, by decide⟩

/-- Vectors X8 and X7: one byte more than 64 cannot come from `MENC.V`, so the least excess is four. -/
theorem witness_OversizeMessageIsRefused :
    (HeadReady Params.vectors (withWords 1 0 (List.replicate 17 0x1F600)) ∧
      Memory.readList (withWords 1 0 (List.replicate 17 0x1F600)).wb 0 17 = some (List.replicate 17 0x1F600) ∧
      (∀ c ∈ List.replicate 17 (0x1F600 : Word), scalar c = true) ∧
      Params.vectors.content.fits ((List.replicate 17 (0x1F600 : Word)).flatMap utf8).length = false) ∧
    (HeadReady Params.vectors (withWords 3 0 (List.replicate 17 0)) ∧
      Memory.readList (withWords 3 0 (List.replicate 17 0)).wb 0 17 = some (List.replicate 17 0) ∧
      Params.vectors.content.fits (4 * (withWords 3 0 (List.replicate 17 0)).wlen) = false) := by
  refine ⟨⟨by unfold HeadReady; decide, by decide +kernel, ?_, by decide +kernel⟩, by unfold HeadReady; decide, by decide +kernel, by decide⟩
  intro c hc
  rw [(List.mem_replicate.1 hc).2]
  decide

/-- A message of the words given, held in `MB`, with topic 1 or 3. -/
theorem held_low (t lo hi : Byte) (rest : List Byte) (ht : 1 ≤ t.toNat ∧ t.toNat ≤ 3) :
    MessageHeld (withMessage (t :: lo :: hi :: rest)) t lo hi rest := by
  refine ⟨Memory.readList_writeList [] 0 (t :: lo :: hi :: rest), ht.1, ?_⟩
  show t.toNat ≤ Config.topicCountDraw % 253 + 3
  omega

/-- Text, and the byte FF, which no encoding holds. -/
theorem witness_DecodeTextRule :
    ((∀ c ∈ [0x68#32, 0x69#32], scalar c = true) ∧
      MessageHeld (withMessage [0x02, 0x34, 0x12, 0x68, 0x69]) 0x02 0x34 0x12 (([0x68#32, 0x69#32] : List Word).flatMap utf8)) ∧
    (MessageHeld (withMessage [0x01, 0, 0, 0xFF]) 0x01 0 0 [0xFF] ∧
      ∀ cps : List Word, (∀ c ∈ cps, scalar c = true) → cps.flatMap utf8 ≠ [0xFF]) := by
  refine ⟨⟨?_, held_low 2 0x34 0x12 [0x68, 0x69] (by decide)⟩, held_low 1 0 0 [0xFF] (by decide), ?_⟩
  · intro c hc
    simp only [List.mem_cons, List.not_mem_nil, or_false] at hc
    rcases hc with rfl | rfl <;> decide
  · intro cps hs h
    cases cps with
    | nil => cases h
    | cons c cs =>
      have hn : ∀ n, n < 255 → BitVec.ofNat 8 n ≠ 0xFF#8 := fun n hn e => by
        have := congrArg BitVec.toNat e
        simp only [BitVec.toNat_ofNat] at this
        omega
      rw [List.flatMap_cons, utf8_eq] at h
      split at h
      · exact hn _ (by omega) (List.cons.inj h).1
      · split at h
        · exact hn _ (by omega) (List.cons.inj h).1
        · split at h
          · exact hn _ (by omega) (List.cons.inj h).1
          · exact hn _ (by omega) (List.cons.inj h).1

theorem witness_DecodeBlobRule : MessageHeld (withMessage [0x03, 0xFF, 0x00]) 0x03 0xFF 0x00 [] := held_low 3 0xFF 0 [] (by decide)

theorem witness_DecodeVectorRule :
    MessageHeld (withMessage (1 :: 2 :: 3 :: ([0x3F800000#32] : List Word).flatMap (fbytes Config.params.nativeOrder))) 1 2 3
      (([0x3F800000#32] : List Word).flatMap (fbytes Config.params.nativeOrder)) ∧
    (MessageHeld (withMessage [1, 2, 3, 4]) 1 2 3 [4] ∧ [(4 : Byte)].length % 4 ≠ 0) ∧
    (MessageHeld (withMessage [1, 2, 3]) 1 2 3 [] ∧ ([] : List Byte).length % 4 = 0) :=
  ⟨held_low 1 2 3 _ (by decide), ⟨held_low 1 2 3 [4] (by decide), by decide⟩, held_low 1 2 3 [] (by decide), by decide⟩

theorem witness_DecodeVectorNRule : State.reset.nexp.written = false ∧
    (({ withMessage [1, 2, 3] with nexp := Reg.of 0 } : State).nexp.written = true ∧
      MessageHeld { withMessage [1, 2, 3] with nexp := Reg.of 0 } 1 2 3 (([] : List Word).flatMap (fbytes Config.params.nativeOrder)) ∧
      ([] : List Word).length = ({ withMessage [1, 2, 3] with nexp := Reg.of 0 } : State).nexp.value.toNat) ∧
    (MessageHeld { withMessage [1, 2, 3] with nexp := Reg.of 0x40000000 } 1 2 3 [] ∧
      ([] : List Byte).length ≠ 4 * ({ withMessage [1, 2, 3] with nexp := Reg.of 0x40000000 } : State).nexp.value.toNat) :=
  ⟨by decide, ⟨by decide, held_low 1 2 3 [] (by decide), by decide⟩, held_low 1 2 3 [] (by decide), by decide⟩

theorem witness_MessageHeadFailures :
    (Memory.readList (withMessage [0x02, 0x34]).mb 0 (withMessage [0x02, 0x34]).mlen = some [0x02, 0x34] ∧
      (withMessage [0x02, 0x34]).mlen < 3) ∧
    (Memory.readList (withMessage [0x00, 0x34, 0x12]).mb 0 (withMessage [0x00, 0x34, 0x12]).mlen = some [0x00, 0x34, 0x12] ∧
      3 ≤ (withMessage [0x00, 0x34, 0x12]).mlen ∧ [(0x00 : Byte), 0x34, 0x12].head? = some 0#8) ∧
    (Config.params.topicCount < 255 → Config.params.topicCount < (0xFF : Byte).toNat) := by
  refine ⟨by decide, by decide, fun h => h⟩

/-- An operation whose checks pass ends `OK`. -/
theorem settles_ok (s : State) {u : State} {r : Check State} (h : r = .ok u) : ∃ t, settle s r = .next t ∧ t.status = 0x00#8 :=
  ⟨_, by rw [h]; rfl, rfl⟩

/-- An encoder that ends `OK`, for each of the four pairs. -/
theorem witness_MessageRoundTrip :
    (matchingPair .mencT .mdecT (withWords 1 0 [0x68]) ∧ ∃ t, exec .mencT (withWords 1 0 [0x68]) = .next t ∧ t.status = 0x00#8) ∧
    (matchingPair .mencB .mdecB (withBlob 1 0 [0xDE]) ∧ ∃ t, exec .mencB (withBlob 1 0 [0xDE]) = .next t ∧ t.status = 0x00#8) ∧
    (matchingPair .mencV .mdecV (withWords 1 0 [7]) ∧ matchingPair .mencV .mdecVn { withWords 1 0 [7] with nexp := Reg.of 1 } ∧
      ∃ t, exec .mencV { withWords 1 0 [7] with nexp := Reg.of 1 } = .next t ∧ t.status = 0x00#8) := by
  have head : ∀ s : State, s.topic = Reg.of 1 → s.sender = Reg.of 0 → encHead Config.params s = .ok [1, 0, 0] := by
    intro s h1 h2
    refine encHead_eq_ok.2 ⟨by rw [h1]; rfl, by rw [h2]; rfl, isTopic_iff.2 ?_, by rw [h1, h2]; rfl⟩
    rw [h1]
    refine ⟨by decide, ?_⟩
    show 1 ≤ Config.topicCountDraw % 253 + 3
    omega
  refine ⟨⟨.inl ⟨rfl, rfl⟩, ?_⟩, ⟨.inr (.inl ⟨rfl, rfl⟩), ?_⟩, .inr (.inr (.inl ⟨rfl, rfl⟩)), .inr (.inr (.inr ⟨rfl, rfl, rfl, by decide⟩)), ?_⟩
  · have h := encodeText_eq_ok.2 ⟨_, [0x68], head (withWords 1 0 [0x68]) rfl rfl, by decide, by simp [scalar], fits_low (by decide), rfl⟩
    exact settles_ok (withWords 1 0 [0x68]) h
  · have h := encodeBlob_eq_ok.2 ⟨_, [0xDE], head (withBlob 1 0 [0xDE]) rfl rfl, by decide, rfl⟩
    exact settles_ok (withBlob 1 0 [0xDE]) h
  · have h := encodeVector_eq_ok.2 ⟨_, [7], head { withWords 1 0 [7] with nexp := Reg.of 1 } rfl rfl, by decide, fits_low (by decide), rfl⟩
    exact settles_ok { withWords 1 0 [7] with nexp := Reg.of 1 } h

/-- The message `01 00 00` is within the capacities, and each decoder accepts it. -/
theorem empty_accepted : ∃ e, decHead Config.params (withMessage [1, 0, 0]) = .ok e ∧ e.rest = [] := by
  have h := held_low 1 0 0 [] (by decide)
  exact ⟨_, decHead_eq_ok.2 ⟨_, _, _, _, h.1, isTopic_iff.2 h.2, rfl⟩, rfl⟩

theorem witness_MessageReverseRoundTrip : WithinCapacity Config.params (withMessage [1, 0, 0]) ∧
    (∃ t, exec .mdecT (withMessage [1, 0, 0]) = .next t ∧ t.status = 0x00#8) ∧
    (∃ t, exec .mdecB (withMessage [1, 0, 0]) = .next t ∧ t.status = 0x00#8) ∧
    (∃ t, exec .mdecV (withMessage [1, 0, 0]) = .next t ∧ t.status = 0x00#8) := by
  obtain ⟨e, he, hr⟩ := empty_accepted
  refine ⟨⟨⟨Nat.zero_le _, by simp [withMessage, State.reset]⟩, ⟨fits_low (by decide), ?_⟩, ⟨fits_low (by decide), by simp [withMessage, State.reset]⟩,
    ⟨fits_low (by decide), by simp [withMessage, State.reset]⟩⟩, ?_, ?_, ?_⟩
  · intro c hc
    have hm := Memory.mem_writeList hc
    simp only [List.not_mem_nil, or_false, List.length_cons, List.length_nil] at hm
    exact fits_low (by omega)
  · have h := decodeText_eq_ok.2 ⟨e, [], he, by rw [hr]; rfl, rfl⟩
    exact settles_ok (withMessage [1, 0, 0]) h
  · have h := decodeBlob_eq_ok.2 ⟨e, he, rfl⟩
    exact settles_ok (withMessage [1, 0, 0]) h
  · have h := decodeVector_eq_ok.2 ⟨e, he, by rw [hr]; rfl, rfl⟩
    exact settles_ok (withMessage [1, 0, 0]) h

theorem witness_BlobDecoderAcceptsMost :
    (∃ t, exec .mdecT (withMessage [1, 0, 0]) = .next t ∧ t.status = 0x00#8) ∧
    (∃ t, exec .mdecVn { withMessage [1, 0, 0] with nexp := Reg.of 0 } = .next t ∧ t.status = 0x00#8) := by
  obtain ⟨e, he, hr⟩ := empty_accepted
  refine ⟨witness_MessageReverseRoundTrip.2.1, ?_⟩
  have h := @decodeVectorN_eq_ok Config.params { withMessage [1, 0, 0] with nexp := Reg.of 0 } _ |>.2 ⟨rfl, e, he, by rw [hr]; rfl, rfl⟩
  exact settles_ok { withMessage [1, 0, 0] with nexp := Reg.of 0 } h

theorem witness_UnwrittenOperandIsRefused : Instr.rencSet ∈ operations ∧ Ready .rencSet State.reset = false ∧
    Instr.mencT ∈ operations ∧ Ready .mencT { withWords 0 0 [] with wlen := 1 } = false ∧
    Ready .mencT { withWords 1 0 [] with wlen := 1 } = false := by decide

/-- R267's order, both sides of it: with an unwritten content a bad topic is reported, and with a good topic the encoder is
refused. -/
theorem test_menc_unwritten_content :
    seen (settle { withWords 0 0 [] with wlen := 1 } (encodeText Params.vectors { withWords 0 0 [] with wlen := 1 })) outcome =
      some (0x01, 0x11) ∧
    refusal (settle { withWords 1 0 [] with wlen := 1 } (encodeText Params.vectors { withWords 1 0 [] with wlen := 1 })) =
      some (.unwrittenBuffer .wb) := by decide

theorem witness_ReadyInstructionCompletes : Ready .rdec State.reset = true ∧ Ready .mencV (withWords 1 0 [7]) = true := by decide

theorem witness_FailureWritesOnlyStatusAndInfo : Instr.rdec ∈ operations ∧
    ∃ t, exec .rdec State.reset = .next t ∧ t.status ≠ 0x00#8 := ⟨by decide, _, rfl, by decide⟩

theorem witness_StatusOfEachOperation : Instr.rdec ∈ operations ∧ ∃ t, exec .rdec State.reset = .next t := ⟨by decide, _, rfl⟩

theorem witness_StepKeepsStatusLegal : statusLegal State.reset.status State.reset.einfo = true ∧
    ∃ t, step (State.reset.withFetchWord 8 0x03) = .next t := ⟨by decide, _, rfl⟩

theorem witness_StepKeepsBuffers : BuffersCanonical State.reset ∧ WithinCapacity Config.params State.reset ∧
    ∃ t, step State.reset = .next t := by
  refine ⟨⟨by decide, by decide, by decide, by decide⟩, ?_, _, rfl⟩
  simp [WithinCapacity, State.reset, mbFits, Capacity.fits]

theorem witness_OnlyResetUnwrites : (State.reset.withFetchWord 8 0x03).pending.head? ≠ some .reset ∧
    ∃ t, step (State.reset.withFetchWord 8 0x03) = .next t := ⟨by decide, _, rfl⟩

theorem witness_RepeatedOperationChangesNothing :
    ∃ t, exec .rdec (withFrame [0xC2, 0, 9, 1, 2, 3, 0x62, 0, 18, 3, 0, 0]) = .next t := ⟨_, rfl⟩

theorem witness_UnitsAreIndependent :
    (Instr.mdecT ∈ messageOperations ∧ ∃ t, exec .mdecT (withMessage [2]) = .next t) ∧
    (Instr.rdec ∈ registerOperations ∧ ∃ t, exec .rdec (withFrame [0xC2]) = .next t) :=
  ⟨⟨by decide, _, rfl⟩, by decide, _, rfl⟩

/-- `FB_MAX` is at least 13, `MB` holds at least 35 bytes (R7, R60). -/
theorem witness_HostFillsBuffers : (List.replicate 13 (0xAA : Byte)).length ≤ Config.params.fbMax ∧
    mbFits Config.params (List.replicate 35 (0xAA : Byte)).length = true ∧
    Config.params.content.fits (List.replicate 32 (0xAA : Byte)).length = true := by
  refine ⟨?_, fits_low (by decide), fits_low (by decide)⟩
  simp [Config.params]

theorem witness_HostSetWritesOneRegister : (Field.netId ≠ .key) ∧ 13 ≤ Config.params.fbMax ∧ mbFits Config.params 35 = true ∧
    Config.params.content.fits 32 = true := by
  refine ⟨by decide, ?_, fits_low (by decide), fits_low (by decide)⟩
  simp [Config.params]

theorem witness_HostPokeWritesOneElement :
    (15 < Params.vectors.fbMax ∧ Params.vectors.fbMax ≤ 16) ∧
    (mbFits Params.vectors (66 + 1) = true ∧ mbFits Params.vectors (67 + 1) = false) ∧
    (Params.vectors.content.fits (63 + 1) = true ∧ Params.vectors.content.fits (64 + 1) = false) := by decide

theorem witness_ForbiddenHostWriteIsRefused : Params.vectors.fbMax < 17 ∧ mbFits Params.vectors 68 = false ∧
    Params.vectors.content.fits 65 = false ∧
    Params.vectors.fbMax < (List.replicate 17 (0xAA : Byte)).length ∧
    mbFits Params.vectors (List.replicate 68 (0xAA : Byte)).length = false ∧
    Params.vectors.content.fits (List.replicate 65 (0xAA : Byte)).length = false ∧
    Params.vectors.content.fits (List.replicate 65 (7 : Word)).length = false ∧
    (∀ code, Request.set (.status 0) ≠ .op code) ∧
    ({ State.reset with pending := [.set (.status 0)] } : State).pending = .set (.status 0) :: [] := by
  simp only [List.length_replicate]
  refine ⟨by decide, by decide, by decide, by decide, by decide, by decide, by decide, ?_, by decide⟩
  intro code h
  cases h

theorem witness_OnlyOperationsWriteStatus :
    (∀ code, ({ State.reset with pending := [.expect] } : State).pending.head? ≠ some (.op code)) ∧
    ({ State.reset with pending := [.expect] } : State).pending.head? ≠ some .reset ∧
    ∃ t, step { State.reset with pending := [.expect] } = .next t :=
  ⟨fun _ h => (by cases h), by decide, _, rfl⟩

theorem witness_WireFormatsReachTheirBuffer : (Instr.cfSet (frameChannel 83) = .cfSet (frameChannel 83) ∧ (0xC2#8) = 0xC2#8) ∧
    Config.params.content.fits (List.replicate 32 (0x68 : Byte)).length = true := ⟨⟨rfl, rfl⟩, fits_low (by decide)⟩

theorem witness_PrintedValueIsALiteral : printValue .transmitPower 22 = some "22dBm".toList ∧
    printValue .key 65535 = some "65535".toList ∧ valid .key 65535 = true ∧ valid .parity 0x00384531 = true := by
  decide +kernel

/-- Each row of R231 at its last scalar value, and a byte that does not decode. -/
theorem witness_Utf8BytesOfEachScalarValue : (∀ c ∈ [0x7F#32, 0x7FF#32, 0xFFFF#32, 0x10FFFF#32], scalar c = true) ∧
    (0x7F#32).toNat ≤ 0x7F ∧ (0x80 ≤ (0x7FF#32).toNat ∧ (0x7FF#32).toNat ≤ 0x7FF) ∧
    (0x800 ≤ (0xFFFF#32).toNat ∧ (0xFFFF#32).toNat ≤ 0xFFFF) ∧ 0x10000 ≤ (0x10FFFF#32).toNat ∧
    (0xF5 : Byte) ∈ [(0x41 : Byte), 0xF5] ∧ 0xF5 ≤ (0xF5 : Byte).toNat := by
  refine ⟨?_, by decide, by decide, by decide, by decide, by simp, by decide⟩
  intro c hc
  simp only [List.mem_cons, List.not_mem_nil, or_false] at hc
  rcases hc with rfl | rfl | rfl | rfl <;> decide

/-- The invariants hold at reset. -/
theorem test_reset_wf : Memory.wf State.reset.fb ∧ Memory.wf State.reset.mb ∧ Memory.wf State.reset.bb ∧ Memory.wf State.reset.wb := by
  decide

/-! ### The text syntax -/

/-- Literals of R118, among them vectors E19 and E23. -/
theorem test_literals :
    fieldLiteral .transmitPower "22DBM".toList = some 22 ∧ fieldLiteral .transmitPower "20dbm".toList = some 20 ∧
    fieldLiteral .parity "8N1".toList = some 0x00384E31 ∧ fieldLiteral .parity "8n1".toList = none ∧
    fieldLiteral .airSpeed "62.5K".toList = some 625 ∧ fieldLiteral .moduleAddress "0x0102".toList = some 258 ∧
    fieldLiteral .baudRate "raw:9601".toList = some 9601 ∧ fieldLiteral .enableLbt "true".toList = some 1 := by decide +kernel

/-- Lines of the programs P1, P4 and P5 (R119, R120). -/
theorem test_lines :
    parseLine "        SET net_id, 0 ; the host spoils one register".toList = some [.set (.x .netId 0)] ∧
    parseLine "VEC                   ; WLEN = 0".toList = some [.vec []] ∧
    parseLine "ELUT.V2C baud_rate        ; LC = 0x03".toList = some [.op 0x22] ∧
    parseLine "FRAME 99 00 0B".toList = some [.frame [0x99, 0x00, 0x0B]] ∧
    parseLine "MDEC vector(8)".toList = some [.set (.nexp 8), .op 0x4B] ∧
    parseLine "ROUNDTRIP".toList = some [.op 0x01, .op 0x03] := by decide +kernel

end Sys2Proof.Tests
end

section
/-! PROOFS. What one step can do to registers, buffers and lengths, said once (`Update`), and the invariants of 10_state.md that
follow from it. -/

namespace Sys2Proof.Machine

/-! ### Capacities -/

/-- Fewer elements than fit also fit. -/
theorem fits_of_le {c : Capacity} {m n : Nat} (hmn : m ≤ n) (h : c.fits n = true) : c.fits m = true := by
  simp only [Capacity.fits, Bool.or_eq_true, decide_eq_true_eq] at h ⊢
  exact h.imp_left hmn.trans

/-- The same for `MB`. -/
theorem mbFits_of_le {p : Params} {m n : Nat} (hmn : m ≤ n) (h : mbFits p n = true) : mbFits p m = true :=
  fits_of_le (Nat.sub_le_sub_right hmn 3) h

/-- A message of three head bytes fits when its content does. -/
theorem mbFits_head_append {p : Params} {a b c : Byte} {body : List Byte} (h : p.content.fits body.length = true) :
    mbFits p ([a, b, c] ++ body).length = true := h

/-- The block's `FB` has room for a frame. -/
theorem twelve_le_fbMax : 12 ≤ Config.params.fbMax := Nat.le_add_left_of_le (by decide)

/-! ### One buffer and its length -/

/-- What a request other than reset can do to a buffer and its length: nothing; set the length; write one element; or write
elements from offset 0 and their count. When `inside` holds, what it writes lies within the capacity `fits`. -/
inductive BufferUpdate {α : Type} (inside : Prop) (fits : Nat → Prop) (m : List (Nat × α)) (n : Nat) :
    List (Nat × α) → Nat → Prop where
  | same : BufferUpdate inside fits m n m n
  | resize (k : Nat) (h : inside → fits k) : BufferUpdate inside fits m n m k
  | poke (a : Nat) (v : α) (h : inside → fits (a + 1)) : BufferUpdate inside fits m n (Memory.write m a v) n
  | fill (l : List α) (h : inside → fits l.length) : BufferUpdate inside fits m n (Memory.writeList m 0 l) l.length

section BufferUpdate

variable {α : Type} {inside : Prop} {fits : Nat → Prop} {m m' : List (Nat × α)} {n n' : Nat}

theorem BufferUpdate.wf (h : BufferUpdate inside fits m n m' n') (hm : Memory.wf m) : Memory.wf m' := by
  cases h with
  | same => exact hm
  | resize => exact hm
  | poke a v => exact Memory.write_wf a v hm
  | fill l => exact Memory.writeList_wf 0 l hm

theorem BufferUpdate.read_isSome (h : BufferUpdate inside fits m n m' n') (a : Nat)
    (ha : (Memory.read m a).isSome = true) : (Memory.read m' a).isSome = true := by
  cases h with
  | same => exact ha
  | resize => exact ha
  | poke => exact Memory.read_write_isSome ha
  | fill => exact Memory.read_writeList_isSome ha

/-- A buffer within its capacity stays so. -/
theorem BufferUpdate.within (h : BufferUpdate inside fits m n m' n') (hi : inside)
    (mono : ∀ {j k}, j ≤ k → fits k → fits j) (hm : fits n ∧ ∀ c ∈ m, fits (c.1 + 1)) :
    fits n' ∧ ∀ c ∈ m', fits (c.1 + 1) := by
  obtain ⟨hn, hc⟩ := hm
  cases h with
  | same => exact ⟨hn, hc⟩
  | resize k hk => exact ⟨hk hi, hc⟩
  | poke a v ha =>
    refine ⟨hn, fun c h => ?_⟩
    rcases Memory.mem_write h with rfl | h
    · exact ha hi
    · exact hc c h
  | fill l hl =>
    refine ⟨hl hi, fun c h => ?_⟩
    rcases Memory.mem_writeList h with ⟨-, hlt⟩ | h
    · exact mono (by omega) (hl hi)
    · exact hc c h

end BufferUpdate

/-! ### The whole state -/

/-- What a request other than reset can do before `STATUS` and `EINFO` are written: no register is made unwritten, and each
buffer changes by a `BufferUpdate`, within the capacities when `s` is. -/
structure Update (p : Params) (s t : State) : Prop where
  x : ∀ f, (s.x.get f).written = true → (t.x.get f).written = true
  cmd : s.cmd.written = true → t.cmd.written = true
  sreg : s.sreg.written = true → t.sreg.written = true
  dlen : s.dlen.written = true → t.dlen.written = true
  lv : s.lv.written = true → t.lv.written = true
  lc : s.lc.written = true → t.lc.written = true
  topic : s.topic.written = true → t.topic.written = true
  sender : s.sender.written = true → t.sender.written = true
  nexp : s.nexp.written = true → t.nexp.written = true
  fb : BufferUpdate (WithinCapacity p s) (· ≤ p.fbMax) s.fb s.flen t.fb t.flen
  mb : BufferUpdate (WithinCapacity p s) (mbFits p · = true) s.mb s.mlen t.mb t.mlen
  bb : BufferUpdate (WithinCapacity p s) (p.content.fits · = true) s.bb s.blen t.bb t.blen
  wb : BufferUpdate (WithinCapacity p s) (p.content.fits · = true) s.wb s.wlen t.wb t.wlen
  status : t.status = s.status
  einfo : t.einfo = s.einfo

section Update

variable {p : Params} {s t : State}

theorem Update.refl (p : Params) (s : State) : Update p s s where
  x _ := id
  cmd := id
  sreg := id
  dlen := id
  lv := id
  lc := id
  topic := id
  sender := id
  nexp := id
  fb := .same
  mb := .same
  bb := .same
  wb := .same
  status := rfl
  einfo := rfl

/-- The host's list of requests plays no part. -/
theorem Update.of_pending {rest : List Request} (h : Update p { s with pending := rest } t) : Update p s t := { h with }

theorem Update.keepsWritten (h : Update p s t) : KeepsWritten s t :=
  ⟨h.x, h.cmd, h.sreg, h.dlen, h.lv, h.lc, h.topic, h.sender, h.nexp,
    h.fb.read_isSome, h.mb.read_isSome, h.bb.read_isSome, h.wb.read_isSome⟩

theorem Update.buffersCanonical (h : Update p s t) (hs : BuffersCanonical s) : BuffersCanonical t := by
  obtain ⟨hf, hm, hb, hw⟩ := hs
  exact ⟨h.fb.wf hf, h.mb.wf hm, h.bb.wf hb, h.wb.wf hw⟩

theorem Update.withinCapacity (h : Update p s t) (hs : WithinCapacity p s) : WithinCapacity p t := by
  obtain ⟨hf, hm, hb, hw⟩ := id hs
  exact ⟨h.fb.within hs Nat.le_trans hf, h.mb.within hs mbFits_of_le hm, h.bb.within hs fits_of_le hb,
    h.wb.within hs fits_of_le hw⟩

/-! ### Host requests -/

/-- A write of a configuration register leaves no register unwritten that was written. -/
theorem RegFile.get_set_written {x : RegFile} {f g : Field} {v : Word} (h : (x.get g).written = true) :
    ((x.set f v).get g).written = true := by
  by_cases hg : g = f
  · rw [hg, RegFile.get_set_self, Reg.of_written]
  · rwa [RegFile.get_set_of_ne hg]

/-- A write that is refused unless `c` holds has answered a next state only under `c`. -/
theorem guarded_next {c : Prop} [Decidable c] {u t : State} {why : Refusal}
    (h : (if c then .next u else .refused why : Outcome) = .next t) : c ∧ t = u := by
  split at h <;> cases h
  exact ⟨‹c›, rfl⟩

theorem hostFrame_update {bytes : List Byte} (h : hostFrame p bytes s = .next t) : Update p s t := by
  obtain ⟨hb, rfl⟩ := guarded_next h
  exact { Update.refl p s with fb := .fill bytes fun _ => hb }

theorem hostMessage_update {bytes : List Byte} (h : hostMessage p bytes s = .next t) : Update p s t := by
  obtain ⟨hb, rfl⟩ := guarded_next h
  exact { Update.refl p s with mb := .fill bytes fun _ => hb }

theorem hostBlob_update {bytes : List Byte} (h : hostBlob p bytes s = .next t) : Update p s t := by
  obtain ⟨hb, rfl⟩ := guarded_next h
  exact { Update.refl p s with bb := .fill bytes fun _ => hb }

theorem hostWords_update {words : List Word} (h : hostWords p words s = .next t) : Update p s t := by
  obtain ⟨hw, rfl⟩ := guarded_next h
  exact { Update.refl p s with wb := .fill words fun _ => hw }

theorem hostSet_update {w : RegWrite} (h : hostSet p w s = .next t) : Update p s t := by
  cases w with
  | x f v =>
    cases h
    exact { Update.refl p s with x := fun _ => RegFile.get_set_written }
  | cmd b =>
    cases h
    exact { Update.refl p s with cmd := fun _ => rfl }
  | sreg b =>
    cases h
    exact { Update.refl p s with sreg := fun _ => rfl }
  | dlen b =>
    cases h
    exact { Update.refl p s with dlen := fun _ => rfl }
  | lv v =>
    cases h
    exact { Update.refl p s with lv := fun _ => rfl }
  | lc b =>
    cases h
    exact { Update.refl p s with lc := fun _ => rfl }
  | topic b =>
    cases h
    exact { Update.refl p s with topic := fun _ => rfl }
  | sender v =>
    cases h
    exact { Update.refl p s with sender := fun _ => rfl }
  | nexp v =>
    cases h
    exact { Update.refl p s with nexp := fun _ => rfl }
  | flen n =>
    obtain ⟨hn, rfl⟩ := guarded_next h
    exact { Update.refl p s with fb := .resize n fun _ => hn }
  | mlen n =>
    obtain ⟨hn, rfl⟩ := guarded_next h
    exact { Update.refl p s with mb := .resize n fun _ => hn }
  | blen n =>
    obtain ⟨hn, rfl⟩ := guarded_next h
    exact { Update.refl p s with bb := .resize n fun _ => hn }
  | wlen n =>
    obtain ⟨hn, rfl⟩ := guarded_next h
    exact { Update.refl p s with wb := .resize n fun _ => hn }
  | status b => cases h
  | einfo b => cases h

theorem hostPoke_update {w : ElemWrite} (h : hostPoke p w s = .next t) : Update p s t := by
  cases w with
  | fb a b =>
    obtain ⟨ha, rfl⟩ := guarded_next h
    exact { Update.refl p s with fb := .poke a b fun _ => ha }
  | mb a b =>
    obtain ⟨ha, rfl⟩ := guarded_next h
    exact { Update.refl p s with mb := .poke a b fun _ => ha }
  | bb a b =>
    obtain ⟨ha, rfl⟩ := guarded_next h
    exact { Update.refl p s with bb := .poke a b fun _ => ha }
  | wb i v =>
    obtain ⟨hi, rfl⟩ := guarded_next h
    exact { Update.refl p s with wb := .poke i v fun _ => hi }

theorem hostRequest_update {r : Request} (hr : r ≠ .reset) (h : hostRequest p r s = .next t) : Update p s t := by
  cases r with
  | op code => cases h
  | set w => exact hostSet_update h
  | poke w => exact hostPoke_update h
  | frame bytes => exact hostFrame_update h
  | msg bytes => exact hostMessage_update h
  | blob bytes => exact hostBlob_update h
  | text cps => exact hostWords_update h
  | vec ws => exact hostWords_update h
  | expect =>
    cases h
    exact .refl p s
  | reset => exact absurd rfl hr

/-! ### Operations -/

/-- A decoded configuration is written in full. -/
theorem configOf_get_written (f : FrameFields) (g : Field) : ((configOf f).get g).written = true := by
  cases g <;> rfl

/-- One more scalar value from at least one more byte keeps the bound. -/
theorem length_le_of_map_cons {o : Option (List Word)} {n m : Nat} {c : Word} {cps : List Word}
    (ih : ∀ {l}, o = some l → l.length ≤ n) (hnm : n < m) (h : o.map (fun l => c :: l) = some cps) : cps.length ≤ m := by
  obtain ⟨l, hl, rfl⟩ := Option.map_eq_some_iff.1 h
  exact (ih hl).trans_lt hnm

/-- Text has no more scalar values than bytes. -/
theorem unutf8_length_le {bytes : List Byte} {cps : List Word} (h : unutf8 bytes = some cps) :
    cps.length ≤ bytes.length := by
  fun_induction unutf8 bytes generalizing cps with
  | case1 =>
    cases h
    rfl
  | case2 b1 r1 h1 ih => exact length_le_of_map_cons ih (by simp) h
  | case4 b1 h1 b2 r2 h2 ih => exact length_le_of_map_cons ih (by simp +arith) h
  | case6 b1 h1 b2 h2 b3 r3 h3 ih => exact length_le_of_map_cons ih (by simp +arith) h
  | case8 b1 h1 b2 h2 b3 h3 b4 r4 h4 ih => exact length_le_of_map_cons ih (by simp +arith) h
  | case3 => cases h
  | case5 => cases h
  | case7 => cases h
  | case9 => cases h

/-- A vector has no more elements than its content has bytes. -/
theorem vectorWords_length_le (o : ByteOrder) (bytes : List Byte) : (vectorWords o bytes).length ≤ bytes.length := by
  rw [vectorWords_length]
  exact Nat.div_le_self _ _

/-- The remainder of a message is three bytes shorter than the message, so it fits where the message does. -/
theorem decHead_rest_fits {e : Envelope} (he : decHead p s = .ok e) (hs : WithinCapacity p s) :
    p.content.fits e.rest.length = true := by
  obtain ⟨t, lo, hi, rest, hr, -, rfl⟩ := decHead_eq_ok.1 he
  obtain ⟨-, ⟨hm, -⟩, -, -⟩ := hs
  rwa [← Memory.readList_length hr] at hm

/-- An encoder's message: its content fits wherever the operands are within their capacities. -/
theorem putMessage_update {head body : List Byte} (hh : encHead p s = .ok head)
    (hb : WithinCapacity p s → p.content.fits body.length = true) : Update p s (putMessage (head ++ body) s) := by
  obtain ⟨-, -, -, rfl⟩ := encHead_eq_ok.1 hh
  exact { Update.refl p s with mb := .fill _ fun hs => mbFits_head_append (hb hs) }

/-- A decoder's elements: there are no more of them than bytes in the remainder. -/
theorem putWords_update {e : Envelope} {words : List Word} (he : decHead p s = .ok e)
    (hw : words.length ≤ e.rest.length) : Update p s (putWords e words s) :=
  { Update.refl p s with
    topic := fun _ => rfl
    sender := fun _ => rfl
    wb := .fill words fun hs => fits_of_le hw (decHead_rest_fits he hs) }

theorem encodeConfig_update {h : Byte} (hp : 12 ≤ p.fbMax) (hu : encodeConfig h s = .ok t) : Update p s t := by
  obtain ⟨-, -, rfl⟩ := encodeConfig_eq_ok.1 hu
  exact { Update.refl p s with fb := .fill (packFields h (frameOf s.x)) fun _ => hp }

theorem decodeConfig_update {bytes : List Byte} (hu : decodeConfig bytes s = .ok t) : Update p s t := by
  obtain ⟨h, sr, rc, ah, al, n, r6, r7, c, r9, kh, kl, -, -, -, -, rfl⟩ := decodeConfig_eq_ok.1 hu
  exact { Update.refl p s with
    x := fun g _ => configOf_get_written _ g
    cmd := fun _ => rfl
    sreg := fun _ => rfl
    dlen := fun _ => rfl }

theorem lookupCodeBody_update {f : TableField} (hu : lookupCodeBody f s = .ok t) : Update p s t := by
  obtain ⟨-, c, -, rfl⟩ := lookupCodeBody_eq_ok.1 hu
  exact { Update.refl p s with lc := fun _ => rfl }

theorem lookupWordBody_update {f : TableField} (hu : lookupWordBody f s = .ok t) : Update p s t := by
  obtain ⟨-, w, -, rfl⟩ := lookupWordBody_eq_ok.1 hu
  exact { Update.refl p s with lv := fun _ => rfl }

theorem encodeText_update (hu : encodeText p s = .ok t) : Update p s t := by
  obtain ⟨head, cps, hh, -, -, hf, rfl⟩ := encodeText_eq_ok.1 hu
  exact putMessage_update hh fun _ => hf

theorem encodeBlob_update (hu : encodeBlob p s = .ok t) : Update p s t := by
  obtain ⟨head, body, hh, hb, rfl⟩ := encodeBlob_eq_ok.1 hu
  refine putMessage_update hh fun ⟨_, _, ⟨hblen, _⟩, _⟩ => ?_
  rwa [Memory.readList_length hb]

theorem encodeVector_update (hu : encodeVector p s = .ok t) : Update p s t := by
  obtain ⟨head, ws, hh, hw, hf, rfl⟩ := encodeVector_eq_ok.1 hu
  refine putMessage_update hh fun _ => ?_
  rwa [vectorBytes_length, Memory.readList_length hw]

theorem decodeText_update (hu : decodeText p s = .ok t) : Update p s t := by
  obtain ⟨e, cps, he, hc, rfl⟩ := decodeText_eq_ok.1 hu
  exact putWords_update he (unutf8_length_le hc)

theorem decodeBlob_update (hu : decodeBlob p s = .ok t) : Update p s t := by
  obtain ⟨e, he, rfl⟩ := decodeBlob_eq_ok.1 hu
  exact { Update.refl p s with
    topic := fun _ => rfl
    sender := fun _ => rfl
    bb := .fill e.rest (decHead_rest_fits he) }

theorem decodeVector_update (hu : decodeVector p s = .ok t) : Update p s t := by
  obtain ⟨e, he, -, rfl⟩ := decodeVector_eq_ok.1 hu
  exact putWords_update he (vectorWords_length_le _ _)

theorem decodeVectorN_update (hu : decodeVectorN p s = .ok t) : Update p s t := by
  obtain ⟨-, e, he, -, rfl⟩ := decodeVectorN_eq_ok.1 hu
  exact putWords_update he (vectorWords_length_le _ _)

/-- The results of every operation are an update. -/
theorem opBody_update {i : Instr} (hi : i ∈ operations) : opBody i s = .ok t → Update Config.params s t :=
  operations_cases (P := fun i => opBody i s = .ok t → Update Config.params s t) hi
    (encSet := encodeConfig_update twelve_le_fbMax)
    (encAns := encodeConfig_update twelve_le_fbMax)
    (dec := fun h => by
      obtain ⟨bytes, -, h⟩ := Check.bind_eq_ok.1 h
      exact decodeConfig_update h)
    (codes := fun f h => lookupCodeBody_update (opBody_elutV2c f s ▸ h))
    (words := fun f h => lookupWordBody_update (opBody_elutC2v f s ▸ h))
    (mencT := encodeText_update) (mencB := encodeBlob_update) (mencV := encodeVector_update)
    (mdecT := decodeText_update) (mdecB := decodeBlob_update) (mdecV := decodeVector_update)
    (mdecVn := decodeVectorN_update)

/-! ### Steps -/

/-- A pending reset completes, with the other requests kept (70_reset_and_hazards.md R290; notes/assumptions/13.md). -/
theorem step_reset {rest : List Request} (hp : s.pending = .reset :: rest) :
    step s = .next { State.reset with pending := rest } := by
  simp only [step, fetch, hp]
  rfl

/-- Every step that serves no reset is an update, after which `STATUS`, `EINFO` and the list of requests may be new. -/
theorem step_update (h : step s = .next t) (hr : s.pending.head? ≠ some .reset) :
    ∃ (u : State) (status einfo : Byte) (rest : List Request), Update Config.params s u ∧
      t = { u with status := status, einfo := einfo, pending := rest } := by
  rcases step_next h with ⟨-, rfl⟩ | ⟨_, rest, i, -, hi, -, he⟩ | ⟨r, rest, hp, -, hq⟩
  · exact ⟨t, _, _, _, .refl _ t, rfl⟩
  · rw [exec_eq_settle hi] at he
    rcases settle_next he with ⟨u, hu, rfl⟩ | ⟨k, info, -, rfl⟩
    · exact ⟨u, _, _, _, (opBody_update hi hu).of_pending, rfl⟩
    · exact ⟨s, _, _, _, .refl _ s, rfl⟩
  · have hne : r ≠ .reset := by
      rintro rfl
      exact hr (by rw [hp]; rfl)
    exact ⟨t, _, _, _, (hostRequest_update hne hq).of_pending, rfl⟩

end Update

/-- The reset state is canonical, whatever the list of requests. -/
theorem buffersCanonical_reset (rest : List Request) : BuffersCanonical { State.reset with pending := rest } :=
  ⟨.nil, .nil, .nil, .nil⟩

/-- The reset state is within every capacity, whatever the list of requests. -/
theorem withinCapacity_reset (p : Params) (rest : List Request) :
    WithinCapacity p { State.reset with pending := rest } := by
  simp [WithinCapacity, State.reset, mbFits, Capacity.fits]

/-- Settles O46: an update keeps both invariants (`Update.buffersCanonical`, `Update.withinCapacity`), and reset meets them. -/
theorem stepKeepsBuffers : Obligations.StepKeepsBuffers := by
  intro s t hb hc h
  by_cases hr : s.pending.head? = some .reset
  · obtain ⟨rest, hp⟩ := List.head?_eq_some_iff.1 hr
    cases (step_reset hp).symm.trans h
    exact ⟨buffersCanonical_reset rest, withinCapacity_reset _ rest⟩
  · obtain ⟨u, status, einfo, rest, hu, rfl⟩ := step_update h hr
    exact ⟨hu.buffersCanonical hb, hu.withinCapacity hc⟩

/-- Settles O48: every step but reset is an update, and an update unwrites nothing. -/
theorem onlyResetUnwrites : Obligations.OnlyResetUnwrites := by
  intro s t hr h
  obtain ⟨u, status, einfo, rest, hu, rfl⟩ := step_update h hr
  exact hu.keepsWritten

/-- Settles O56: what is served is a host request, whose update leaves `STATUS` and `EINFO`. -/
theorem onlyOperationsWriteStatus : Obligations.OnlyOperationsWriteStatus := by
  intro s t hop hr h
  rcases step_next h with ⟨-, rfl⟩ | ⟨code, rest, i, hp, -⟩ | ⟨r, rest, hp, -, hq⟩
  · exact ⟨rfl, rfl⟩
  · exact absurd (by rw [hp]; rfl) (hop code)
  · have hne : r ≠ .reset := by
      rintro rfl
      exact hr (by rw [hp]; rfl)
    have hu := hostRequest_update hne hq
    exact ⟨hu.status, hu.einfo⟩

/-- Settles O47: `STATUS` and `EINFO` are 0 and nothing is written. -/
theorem resetMeetsInvariants : Obligations.ResetMeetsInvariants :=
  ⟨rfl, buffersCanonical_reset [], withinCapacity_reset _ []⟩

/-- Settles O8: both the reset state and the state after a reset are `State.reset` with some list of requests. -/
theorem resetLeaves : Obligations.ResetLeaves := by
  refine ⟨fun t ht => ?_, fun s rest hp => ⟨_, step_reset hp, rfl⟩⟩
  have hreset : ∃ rest, t = { State.reset with pending := rest } := by
    rcases ht with rfl | ⟨s, rest, hp, h⟩
    · exact ⟨[], rfl⟩
    · cases (step_reset hp).symm.trans h
      exact ⟨rest, rfl⟩
  obtain ⟨rest, rfl⟩ := hreset
  have hx : ∀ f, (State.reset.x.get f).written = false := fun f => by
    rw [State.reset, RegFile.unwritten_get, Reg.unwritten_written]
  exact ⟨rfl, rfl, rfl, rfl, rfl, rfl, hx, rfl, rfl, rfl, rfl, rfl, rfl, rfl, rfl,
    fun _ => rfl, fun _ => rfl, fun _ => rfl, fun _ => rfl⟩

end Sys2Proof.Machine
end

section
/-! PROOFS. How an operation stops: with a pair of `STATUS` and `EINFO` that 10_state.md R26 and R27 list, and refused while an
operand is unwritten (R25). -/

namespace Sys2Proof.Machine

/-! ### Failures write a legal pair -/

/-- The stop is a refusal, or a failure whose pair of `STATUS` and `EINFO` is legal. -/
def Stop.Legal : Stop → Prop
  | .raise kind info => statusLegal kind.code info = true
  | .refuse _ => True

section Legal

variable {p : Params} {s : State} {e : Stop}

/-- `InvalidField` names a field or one of the details 0x10 to 0x12. -/
theorem legal_invalidField {info : Byte} (h : info ≤ 0x12#8) : (Stop.raise .invalidField info).Legal := decide_eq_true h

/-- A frame of other than twelve bytes is never reported with the length 12. -/
theorem legal_malformedFrame {n : Nat} (h : n ≠ 12) : (Stop.raise .malformedFrame (infoLength n)).Legal := by
  refine decide_eq_true fun he => h ?_
  have := congrArg BitVec.toNat he
  simp only [infoLength, BitVec.toNat_ofNat] at this
  omega

/-- `UnknownHeader` never reports a header that is accepted. -/
theorem legal_unknownHeader {h : Byte} (hh : isHeader h = false) : (Stop.raise .unknownHeader h).Legal := by
  have hn : ¬ (h = 0xC2#8 ∨ h = 0xC1#8 ∨ h = 0xC0#8) := by rw [← isHeader_iff, hh]; decide
  simpa [Stop.Legal, statusLegal, ErrorKind.code, and_assoc] using hn

theorem fieldInfo_le (f : Field) : fieldInfo f ≤ 0x12#8 := by
  cases f <;> decide

theorem encodeConfig_legal {h : Byte} (he : encodeConfig h s = .error e) : e.Legal := by
  rcases encodeConfig_eq_error he with ⟨f, -, rfl⟩ | ⟨f, -, rfl⟩
  · trivial
  · exact legal_invalidField (fieldInfo_le f)

theorem decodeConfig_legal {bytes : List Byte} (he : decodeConfig bytes s = .error e) : e.Legal := by
  rcases decodeConfig_eq_error he with ⟨hl, rfl⟩ | ⟨h, hh, rfl⟩ | rfl | rfl
  · exact legal_malformedFrame hl
  · exact legal_unknownHeader hh
  · exact legal_invalidField (by decide)
  · exact legal_invalidField (fieldInfo_le _)

theorem readBuffer_legal {α : Type} {n : BufName} {m : List (Nat × α)} {len : Nat}
    (he : readBuffer n m len = .error e) : e.Legal := by
  obtain ⟨-, rfl⟩ := readBuffer_eq_error.1 he
  trivial

theorem lookupCodeBody_legal {f : TableField} (he : lookupCodeBody f s = .error e) : e.Legal := by
  rcases lookupCodeBody_eq_error he with ⟨-, rfl⟩ | rfl
  · trivial
  · exact legal_invalidField (fieldInfo_le _)

theorem lookupWordBody_legal {f : TableField} (he : lookupWordBody f s = .error e) : e.Legal := by
  rcases lookupWordBody_eq_error he with ⟨-, rfl⟩ | rfl
  · trivial
  · exact legal_invalidField (fieldInfo_le _)

theorem encHead_legal (he : encHead p s = .error e) : e.Legal := by
  rcases encHead_eq_error he with ⟨r, rfl, -⟩ | ⟨-, -, -, rfl⟩
  · trivial
  · exact legal_invalidField (by decide)

theorem decHead_legal (he : decHead p s = .error e) : e.Legal := by
  rcases decHead_eq_error he with ⟨-, rfl⟩ | rfl | rfl
  · trivial
  · rfl
  · rfl

theorem encodeText_legal (he : encodeText p s = .error e) : e.Legal := by
  rcases encodeText_eq_error he with h | ⟨-, rfl⟩ | rfl | ⟨-, rfl⟩
  · exact encHead_legal h
  · trivial
  · exact legal_invalidField (by decide)
  · trivial

theorem encodeBlob_legal (he : encodeBlob p s = .error e) : e.Legal := by
  rcases encodeBlob_eq_error he with h | ⟨-, rfl⟩
  · exact encHead_legal h
  · trivial

theorem encodeVector_legal (he : encodeVector p s = .error e) : e.Legal := by
  rcases encodeVector_eq_error he with h | ⟨-, rfl⟩ | ⟨-, rfl⟩
  · exact encHead_legal h
  · trivial
  · trivial

theorem decodeText_legal (he : decodeText p s = .error e) : e.Legal := by
  rcases decodeText_eq_error he with h | rfl
  · exact decHead_legal h
  · rfl

theorem decodeVector_legal (he : decodeVector p s = .error e) : e.Legal := by
  rcases decodeVector_eq_error he with h | rfl
  · exact decHead_legal h
  · rfl

theorem decodeVectorN_legal (he : decodeVectorN p s = .error e) : e.Legal := by
  rcases decodeVectorN_eq_error he with ⟨-, rfl⟩ | h | rfl
  · trivial
  · exact decHead_legal h
  · rfl

/-- Every operation stops with a refusal or a legal pair. -/
theorem opBody_legal {i : Instr} (hi : i ∈ operations) : opBody i s = .error e → e.Legal :=
  operations_cases (P := fun i => opBody i s = .error e → e.Legal) hi
    (encSet := encodeConfig_legal) (encAns := encodeConfig_legal)
    (dec := fun h => by
      rcases Check.bind_eq_error.1 h with h | ⟨bytes, -, h⟩
      · exact readBuffer_legal h
      · exact decodeConfig_legal h)
    (codes := fun f h => lookupCodeBody_legal (opBody_elutV2c f s ▸ h))
    (words := fun f h => lookupWordBody_legal (opBody_elutC2v f s ▸ h))
    (mencT := encodeText_legal) (mencB := encodeBlob_legal) (mencV := encodeVector_legal)
    (mdecT := decodeText_legal) (mdecB := fun h => decHead_legal (decodeBlob_eq_error h))
    (mdecV := decodeVector_legal) (mdecVn := decodeVectorN_legal)

/-- Whatever the state before, an operation that answers leaves a legal pair. -/
theorem exec_statusLegal {i : Instr} {t : State} (hi : i ∈ operations) (h : exec i s = .next t) :
    statusLegal t.status t.einfo = true := by
  rw [exec_eq_settle hi] at h
  rcases settle_next h with ⟨u, -, rfl⟩ | ⟨k, info, he, rfl⟩
  · rfl
  · exact opBody_legal hi he

end Legal

/-- Settles O45: an operation leaves a legal pair (`exec_statusLegal`), reset leaves 0 and 0, and every other request leaves the
pair that was there. -/
theorem stepKeepsStatusLegal : Obligations.StepKeepsStatusLegal := by
  intro s t hs h
  rcases step_next h with ⟨-, rfl⟩ | ⟨_, _, i, -, hi, -, he⟩ | ⟨r, rest, -, -, hq⟩
  · exact hs
  · exact exec_statusLegal hi he
  · by_cases hr : r = .reset
    · subst hr
      cases hq
      rfl
    · have hu := hostRequest_update hr hq
      rwa [hu.status, hu.einfo]

/-! ### Unwritten operands -/

/-- The check is refused for an unwritten register or buffer (10_state.md R25). -/
def Check.Unwritten {α : Type} (x : Check α) : Prop :=
  (∃ r, x = .error (.refuse (.unwrittenRegister r))) ∨ ∃ b, x = .error (.refuse (.unwrittenBuffer b))

section Unwritten

variable {α β : Type} {p : Params} {s : State}

/-- What follows a refused check is never reached. -/
theorem Check.Unwritten.bind {x : Check α} (h : Check.Unwritten x) (f : α → Check β) : Check.Unwritten (x >>= f) := by
  rcases h with ⟨r, rfl⟩ | ⟨b, rfl⟩
  · exact .inl ⟨r, rfl⟩
  · exact .inr ⟨b, rfl⟩

theorem Reg.read_refused {w : Nat} {r : Reg w} (n : RegName) (h : r.written = false) : Check.Unwritten (Reg.read n r) :=
  .inl ⟨n, Reg.read_unwritten h⟩

theorem readBuffer_refused {m : List (Nat × α)} {len : Nat} (n : BufName) (h : bufferWritten m len = false) :
    Check.Unwritten (readBuffer n m len) :=
  .inr ⟨n, readBuffer_eq_error.2 ⟨by simpa [bufferWritten] using h, rfl⟩⟩

theorem encodeConfig_refused (header : Byte) (h : allFields.all (fun f => (s.x.get f).written) = false) :
    Check.Unwritten (encodeConfig header s) := by
  refine Check.Unwritten.bind ?_ _
  cases hc : checkWritten s.x with
  | ok u =>
    have hw := checkWritten_eq_ok.1 hc
    simp [hw] at h
  | error e =>
    obtain ⟨f, -, rfl⟩ := checkWritten_eq_error hc
    exact .inl ⟨_, rfl⟩

theorem decHead_refused (h : bufferWritten s.mb s.mlen = false) : Check.Unwritten (decHead p s) :=
  (readBuffer_refused .mb h).bind _

theorem decodeVectorN_refused (h : (s.nexp.written && bufferWritten s.mb s.mlen) = false) :
    Check.Unwritten (decodeVectorN p s) := by
  cases hn : s.nexp.written with
  | false => exact (Reg.read_refused .nexp hn).bind _
  | true =>
    rw [decodeVectorN, Reg.read_written hn, Check.bind_ok]
    exact (decHead_refused (by simpa [hn] using h)).bind _

/-- An encoder of messages looks at its head, then at its content: an unwritten operand is refused unless the head is written and
its topic bad. -/
theorem encHead_content_refused {m : List (Nat × α)} {len : Nat} (n : BufName) (f : List Byte → List α → Check State)
    (h : (s.topic.written && s.sender.written && bufferWritten m len) = false) :
    Check.Unwritten (encHead p s >>= fun head => readBuffer n m len >>= f head) ∨
    (s.topic.written = true ∧ s.sender.written = true ∧ isTopic p s.topic.value = false ∧
      (encHead p s >>= fun head => readBuffer n m len >>= f head) = .error (.raise .invalidField infoTopic)) := by
  cases hh : encHead p s with
  | ok head =>
    obtain ⟨ht, hs, -, -⟩ := encHead_eq_ok.1 hh
    have hb : bufferWritten m len = false := by simpa [ht, hs] using h
    exact .inl ((readBuffer_refused n hb).bind _)
  | error e =>
    rcases encHead_eq_error hh with ⟨r, rfl, -⟩ | ⟨ht, hs, hb, rfl⟩
    · exact .inl (.inl ⟨r, rfl⟩)
    · exact .inr ⟨ht, hs, hb, rfl⟩

/-- How an operation stops while an operand is unwritten: refused for it, or as an encoder of messages that reports a bad topic
first (60_exceptions.md R267). -/
def StopsUnwritten (i : Instr) (s : State) : Prop :=
  Check.Unwritten (opBody i s) ∨
  ((i = .mencT ∨ i = .mencB ∨ i = .mencV) ∧ s.topic.written = true ∧ s.sender.written = true ∧
    isTopic Config.params s.topic.value = false ∧ opBody i s = .error (.raise .invalidField infoTopic))

/-- An operation that is not ready has an unwritten operand. -/
theorem stopsUnwritten_of_not_ready {i : Instr} (hi : i ∈ operations) : Ready i s = false → StopsUnwritten i s :=
  operations_cases (P := fun i => Ready i s = false → StopsUnwritten i s) hi
    (encSet := fun h => .inl (encodeConfig_refused _ h))
    (encAns := fun h => .inl (encodeConfig_refused _ h))
    (dec := fun h => .inl ((readBuffer_refused .fb h).bind _))
    (codes := fun f h => .inl (opBody_elutV2c f s ▸ (Reg.read_refused .lv (ready_elutV2c f s ▸ h)).bind _))
    (words := fun f h => .inl (opBody_elutC2v f s ▸ (Reg.read_refused .lc (ready_elutC2v f s ▸ h)).bind _))
    (mencT := fun h => (encHead_content_refused .wb _ h).imp_right fun hr => ⟨.inl rfl, hr⟩)
    (mencB := fun h => (encHead_content_refused .bb _ h).imp_right fun hr => ⟨.inr (.inl rfl), hr⟩)
    (mencV := fun h => (encHead_content_refused .wb _ h).imp_right fun hr => ⟨.inr (.inr rfl), hr⟩)
    (mdecT := fun h => .inl ((decHead_refused h).bind _))
    (mdecB := fun h => .inl ((decHead_refused h).bind _))
    (mdecV := fun h => .inl ((decHead_refused h).bind _))
    (mdecVn := fun h => .inl (decodeVectorN_refused h))

end Unwritten

/-- Settles O41: the checks are refused or report a bad topic (`stopsUnwritten_of_not_ready`), and `settle` ends the operation so. -/
theorem unwrittenOperandIsRefused : Obligations.UnwrittenOperandIsRefused := by
  intro i s hi hr
  rw [exec_eq_settle hi]
  rcases stopsUnwritten_of_not_ready hi hr with (⟨r, h⟩ | ⟨b, h⟩) | ⟨henc, ht, hs, hbad, h⟩
  · exact .inl ⟨r, by rw [h, settle_refuse]⟩
  · exact .inr (.inl ⟨b, by rw [h, settle_refuse]⟩)
  · exact .inr (.inr ⟨henc, ht, hs, or_iff_not_imp_left.2 (by simpa [isTopic] using hbad), by rw [h, settle_raise]; rfl⟩)

/-! ### The value under an unwritten flag -/

section Scrub

variable {p : Params} {s : State}

@[simp] theorem Reg.scrub_written {w : Nat} (r : Reg w) : r.scrub.written = r.written := by
  unfold Reg.scrub
  split <;> simp [*]

/-- Only the value of an unwritten register is taken out. -/
theorem Reg.scrub_of_written {w : Nat} {r : Reg w} (h : r.written = true) : r.scrub = r := if_pos h

/-- Reading a register does not see the value under an unwritten flag. -/
@[simp] theorem Reg.read_scrub {w : Nat} (n : RegName) (r : Reg w) : Reg.read n r.scrub = Reg.read n r := by
  cases h : r.written with
  | true => rw [Reg.scrub_of_written h]
  | false => rw [Reg.read_unwritten h, Reg.read_unwritten (by rw [Reg.scrub_written, h])]

@[simp] theorem RegFile.get_scrub (x : RegFile) (f : Field) : x.scrub.get f = (x.get f).scrub := by
  cases f <;> rfl

/-- The scan for an unwritten configuration register sees the flags alone. -/
@[simp] theorem checkWritten_scrub (x : RegFile) : checkWritten x.scrub = checkWritten x := by
  simp [checkWritten]

/-- A configuration file that is written in full holds no value under an unwritten flag. -/
theorem RegFile.scrub_of_written {x : RegFile} (h : ∀ f, (x.get f).written = true) : x.scrub = x :=
  RegFile.ext_get fun f => by rw [RegFile.get_scrub, Reg.scrub_of_written (h f)]

theorem encodeConfig_scrub (h : Byte) : encodeConfig h s.scrub = State.scrub <$> encodeConfig h s := by
  have hx : s.scrub.x = s.x.scrub := rfl
  cases hw : checkWritten s.x with
  | error e => rw [encodeConfig, encodeConfig, hx, checkWritten_scrub, hw]; rfl
  | ok u =>
    have hxw : s.scrub.x = s.x := RegFile.scrub_of_written (checkWritten_eq_ok.1 hw)
    have hc : checkWritten s.scrub.x = checkWritten s.x := congrArg checkWritten hxw
    have hv : checkValid s.scrub.x = checkValid s.x := congrArg checkValid hxw
    have hf : frameOf s.scrub.x = frameOf s.x := congrArg frameOf hxw
    simp only [encodeConfig, hc, hv, hf, map_bind]
    rfl

theorem decodeConfig_scrub (bytes : List Byte) : decodeConfig bytes s.scrub = State.scrub <$> decodeConfig bytes s := by
  unfold decodeConfig
  split
  · split
    · rfl
    · split
      · rfl
      · split <;> rfl
  · rfl

theorem lookupCodeBody_scrub (f : TableField) : lookupCodeBody f s.scrub = State.scrub <$> lookupCodeBody f s := by
  have hr : s.scrub.lv.read .lv = s.lv.read .lv := Reg.read_scrub _ _
  simp only [lookupCodeBody, hr, map_bind]
  refine bind_congr fun w => ?_
  split <;> rfl

theorem lookupWordBody_scrub (f : TableField) : lookupWordBody f s.scrub = State.scrub <$> lookupWordBody f s := by
  have hr : s.scrub.lc.read .lc = s.lc.read .lc := Reg.read_scrub _ _
  simp only [lookupWordBody, hr, map_bind]
  refine bind_congr fun c => ?_
  split <;> rfl

@[simp] theorem encHead_scrub : encHead p s.scrub = encHead p s := by
  have ht : s.scrub.topic.read .topic = s.topic.read .topic := Reg.read_scrub _ _
  have hs : s.scrub.sender.read .sender = s.sender.read .sender := Reg.read_scrub _ _
  rw [encHead, encHead, ht, hs]

@[simp] theorem decHead_scrub : decHead p s.scrub = decHead p s := rfl

theorem encodeText_scrub : encodeText p s.scrub = State.scrub <$> encodeText p s := by
  simp only [encodeText, encHead_scrub, map_bind]
  refine bind_congr fun head => bind_congr fun cps => bind_congr fun body => ?_
  split <;> rfl

theorem encodeBlob_scrub : encodeBlob p s.scrub = State.scrub <$> encodeBlob p s := by
  simp only [encodeBlob, encHead_scrub, map_bind]
  rfl

theorem encodeVector_scrub : encodeVector p s.scrub = State.scrub <$> encodeVector p s := by
  simp only [encodeVector, encHead_scrub, map_bind]
  refine bind_congr fun head => bind_congr fun ws => ?_
  have hl : s.scrub.wlen = s.wlen := rfl
  rw [hl]
  split <;> rfl

theorem decodeText_scrub : decodeText p s.scrub = State.scrub <$> decodeText p s := by
  simp only [decodeText, decHead_scrub, map_bind]
  refine bind_congr fun e => ?_
  split <;> rfl

theorem decodeBlob_scrub : decodeBlob p s.scrub = State.scrub <$> decodeBlob p s := by
  simp only [decodeBlob, decHead_scrub, map_bind]
  rfl

theorem decodeVector_scrub : decodeVector p s.scrub = State.scrub <$> decodeVector p s := by
  simp only [decodeVector, decHead_scrub, map_bind]
  refine bind_congr fun e => ?_
  split <;> rfl

theorem decodeVectorN_scrub : decodeVectorN p s.scrub = State.scrub <$> decodeVectorN p s := by
  have hr : s.scrub.nexp.read .nexp = s.nexp.read .nexp := Reg.read_scrub _ _
  simp only [decodeVectorN, hr, decHead_scrub, map_bind]
  refine bind_congr fun n => bind_congr fun e => ?_
  split <;> rfl

/-- The checks and results of every operation are the same without the values under unwritten flags. -/
theorem opBody_scrub {i : Instr} (hi : i ∈ operations) (s : State) : opBody i s.scrub = State.scrub <$> opBody i s :=
  operations_cases (P := fun i => opBody i s.scrub = State.scrub <$> opBody i s) hi
    (encSet := encodeConfig_scrub _) (encAns := encodeConfig_scrub _)
    (dec := by
      simp only [opBody, map_bind]
      exact bind_congr fun bytes => decodeConfig_scrub bytes)
    (codes := fun f => by simp only [opBody_elutV2c, lookupCodeBody_scrub])
    (words := fun f => by simp only [opBody_elutC2v, lookupWordBody_scrub])
    (mencT := encodeText_scrub) (mencB := encodeBlob_scrub) (mencV := encodeVector_scrub)
    (mdecT := decodeText_scrub) (mdecB := decodeBlob_scrub) (mdecV := decodeVector_scrub)
    (mdecVn := decodeVectorN_scrub)

/-- The end of an operation commutes with taking the values out. -/
theorem settle_scrub (s : State) (r : Check State) : settle s.scrub (State.scrub <$> r) = scrubOutcome (settle s r) := by
  match r with
  | .ok t => rfl
  | .error (.raise k info) => rfl
  | .error (.refuse why) => rfl

theorem hostFrame_scrub (p : Params) (bytes : List Byte) (s : State) :
    hostFrame p bytes s.scrub = scrubOutcome (hostFrame p bytes s) := by
  unfold hostFrame
  split <;> rfl

theorem hostMessage_scrub (p : Params) (bytes : List Byte) (s : State) :
    hostMessage p bytes s.scrub = scrubOutcome (hostMessage p bytes s) := by
  unfold hostMessage
  split <;> rfl

end Scrub

/-- Settles O51: each operation by its checks and results (`opBody_scrub`), each wire format by the host action that brings it. -/
theorem unwrittenValueIsNeverRead : Obligations.UnwrittenValueIsNeverRead := by
  intro i s
  cases i with
  | cfSet f => exact hostFrame_scrub Config.params (packFields 0xC2#8 f) s
  | cfAns f => exact hostFrame_scrub Config.params (packFields 0xC1#8 f) s
  | cfPset f => exact hostFrame_scrub Config.params (packFields 0xC0#8 f) s
  | me topic sender content => exact hostMessage_scrub Config.params (packMessage topic sender content) s
  | _ => rw [exec_eq_settle (by decide), exec_eq_settle (by decide), opBody_scrub (by decide), settle_scrub]

end Sys2Proof.Machine
end

section
/-! PROOFS. The buffers and the host's requests (20_memory.md): an operation repeated changes nothing (R69), a step runs the
instruction that the next request decodes to (R72), a host write of one element (R61). -/

namespace Sys2Proof.Machine

/-! ### No operation reads `STATUS` or `EINFO` -/

/-- The state with another outcome in `STATUS` and `EINFO`. -/
def State.withOutcome (status einfo : Byte) (s : State) : State := { s with status := status, einfo := einfo }

section WithOutcome

variable {p : Params} (status einfo : Byte) (s : State)

theorem encodeConfig_withOutcome (h : Byte) :
    encodeConfig h (s.withOutcome status einfo) = State.withOutcome status einfo <$> encodeConfig h s := by
  simp only [encodeConfig, map_bind]
  rfl

theorem decodeConfig_withOutcome (bytes : List Byte) :
    decodeConfig bytes (s.withOutcome status einfo) = State.withOutcome status einfo <$> decodeConfig bytes s := by
  unfold decodeConfig
  split
  · split
    · rfl
    · split
      · rfl
      · split <;> rfl
  · rfl

theorem lookupCodeBody_withOutcome (f : TableField) :
    lookupCodeBody f (s.withOutcome status einfo) = State.withOutcome status einfo <$> lookupCodeBody f s := by
  simp only [lookupCodeBody, map_bind]
  refine bind_congr fun w => ?_
  split <;> rfl

theorem lookupWordBody_withOutcome (f : TableField) :
    lookupWordBody f (s.withOutcome status einfo) = State.withOutcome status einfo <$> lookupWordBody f s := by
  simp only [lookupWordBody, map_bind]
  refine bind_congr fun c => ?_
  split <;> rfl

theorem encodeText_withOutcome :
    encodeText p (s.withOutcome status einfo) = State.withOutcome status einfo <$> encodeText p s := by
  simp only [encodeText, map_bind]
  refine bind_congr fun head => bind_congr fun cps => bind_congr fun body => ?_
  split <;> rfl

theorem encodeBlob_withOutcome :
    encodeBlob p (s.withOutcome status einfo) = State.withOutcome status einfo <$> encodeBlob p s := by
  simp only [encodeBlob, map_bind]
  rfl

theorem encodeVector_withOutcome :
    encodeVector p (s.withOutcome status einfo) = State.withOutcome status einfo <$> encodeVector p s := by
  simp only [encodeVector, map_bind]
  refine bind_congr fun head => bind_congr fun ws => ?_
  have hl : (s.withOutcome status einfo).wlen = s.wlen := rfl
  rw [hl]
  split <;> rfl

theorem decodeText_withOutcome :
    decodeText p (s.withOutcome status einfo) = State.withOutcome status einfo <$> decodeText p s := by
  simp only [decodeText, map_bind]
  refine bind_congr fun e => ?_
  split <;> rfl

theorem decodeBlob_withOutcome :
    decodeBlob p (s.withOutcome status einfo) = State.withOutcome status einfo <$> decodeBlob p s := by
  simp only [decodeBlob, map_bind]
  rfl

theorem decodeVector_withOutcome :
    decodeVector p (s.withOutcome status einfo) = State.withOutcome status einfo <$> decodeVector p s := by
  simp only [decodeVector, map_bind]
  refine bind_congr fun e => ?_
  split <;> rfl

theorem decodeVectorN_withOutcome :
    decodeVectorN p (s.withOutcome status einfo) = State.withOutcome status einfo <$> decodeVectorN p s := by
  simp only [decodeVectorN, map_bind]
  refine bind_congr fun n => bind_congr fun e => ?_
  split <;> rfl

/-- The checks and results of every operation are the same whatever the last outcome was. -/
theorem opBody_withOutcome {i : Instr} (hi : i ∈ operations) :
    opBody i (s.withOutcome status einfo) = State.withOutcome status einfo <$> opBody i s :=
  operations_cases
    (P := fun i => opBody i (s.withOutcome status einfo) = State.withOutcome status einfo <$> opBody i s) hi
    (encSet := encodeConfig_withOutcome _ _ _ _) (encAns := encodeConfig_withOutcome _ _ _ _)
    (dec := by
      simp only [opBody, map_bind]
      exact bind_congr fun bytes => decodeConfig_withOutcome _ _ _ bytes)
    (codes := fun f => by simp only [opBody_elutV2c, lookupCodeBody_withOutcome])
    (words := fun f => by simp only [opBody_elutC2v, lookupWordBody_withOutcome])
    (mencT := encodeText_withOutcome _ _ _) (mencB := encodeBlob_withOutcome _ _ _)
    (mencV := encodeVector_withOutcome _ _ _)
    (mdecT := decodeText_withOutcome _ _ _) (mdecB := decodeBlob_withOutcome _ _ _)
    (mdecV := decodeVector_withOutcome _ _ _) (mdecVn := decodeVectorN_withOutcome _ _ _)

end WithOutcome

/-! ### Results computed again are the same

No operation writes what it reads, so its checks pass again in the state with its results; and a buffer written twice with
the same elements is as after the first time (`Memory.writeList_writeList_self`). -/

section Again

variable {p : Params} {s t : State}

/-- A message put twice is put once. -/
@[simp] theorem putMessage_putMessage (bytes : List Byte) (s : State) :
    putMessage bytes (putMessage bytes s) = putMessage bytes s := by
  simp only [putMessage, Memory.writeList_writeList_self]

/-- A decoder's elements put twice are put once. -/
@[simp] theorem putWords_putWords (e : Envelope) (ws : List Word) (s : State) :
    putWords e ws (putWords e ws s) = putWords e ws s := by
  simp only [putWords, Memory.writeList_writeList_self]

theorem encodeConfig_again {h : Byte} (hu : encodeConfig h s = .ok t) : encodeConfig h t = .ok t := by
  obtain ⟨hw, hv, rfl⟩ := encodeConfig_eq_ok.1 hu
  exact encodeConfig_eq_ok.2 ⟨hw, hv, by simp only [Memory.writeList_writeList_self]⟩

theorem decodeConfig_again {bytes : List Byte} (hu : decodeConfig bytes s = .ok t) :
    t.fb = s.fb ∧ t.flen = s.flen ∧ decodeConfig bytes t = .ok t := by
  obtain ⟨h, sr, rc, ah, al, n, r6, r7, c, r9, kh, kl, rfl, hh, hr, hc, rfl⟩ := decodeConfig_eq_ok.1 hu
  exact ⟨rfl, rfl, decodeConfig_eq_ok.2 ⟨h, sr, rc, ah, al, n, r6, r7, c, r9, kh, kl, rfl, hh, hr, hc, rfl⟩⟩

theorem lookupCodeBody_again {f : TableField} (hu : lookupCodeBody f s = .ok t) : lookupCodeBody f t = .ok t := by
  obtain ⟨hw, c, hc, rfl⟩ := lookupCodeBody_eq_ok.1 hu
  exact lookupCodeBody_eq_ok.2 ⟨hw, c, hc, rfl⟩

theorem lookupWordBody_again {f : TableField} (hu : lookupWordBody f s = .ok t) : lookupWordBody f t = .ok t := by
  obtain ⟨hw, w, hc, rfl⟩ := lookupWordBody_eq_ok.1 hu
  exact lookupWordBody_eq_ok.2 ⟨hw, w, hc, rfl⟩

theorem encodeText_again (hu : encodeText p s = .ok t) : encodeText p t = .ok t := by
  obtain ⟨head, cps, hh, hc, hs, hf, rfl⟩ := encodeText_eq_ok.1 hu
  exact encodeText_eq_ok.2 ⟨head, cps, hh, hc, hs, hf, (putMessage_putMessage _ s).symm⟩

theorem encodeBlob_again (hu : encodeBlob p s = .ok t) : encodeBlob p t = .ok t := by
  obtain ⟨head, body, hh, hb, rfl⟩ := encodeBlob_eq_ok.1 hu
  exact encodeBlob_eq_ok.2 ⟨head, body, hh, hb, (putMessage_putMessage _ s).symm⟩

theorem encodeVector_again (hu : encodeVector p s = .ok t) : encodeVector p t = .ok t := by
  obtain ⟨head, ws, hh, hw, hf, rfl⟩ := encodeVector_eq_ok.1 hu
  exact encodeVector_eq_ok.2 ⟨head, ws, hh, hw, hf, (putMessage_putMessage _ s).symm⟩

theorem decodeText_again (hu : decodeText p s = .ok t) : decodeText p t = .ok t := by
  obtain ⟨e, cps, he, hc, rfl⟩ := decodeText_eq_ok.1 hu
  exact decodeText_eq_ok.2 ⟨e, cps, he, hc, (putWords_putWords e cps s).symm⟩

theorem decodeBlob_again (hu : decodeBlob p s = .ok t) : decodeBlob p t = .ok t := by
  obtain ⟨e, he, rfl⟩ := decodeBlob_eq_ok.1 hu
  exact decodeBlob_eq_ok.2 ⟨e, he, by simp only [Memory.writeList_writeList_self]⟩

theorem decodeVector_again (hu : decodeVector p s = .ok t) : decodeVector p t = .ok t := by
  obtain ⟨e, he, hl, rfl⟩ := decodeVector_eq_ok.1 hu
  exact decodeVector_eq_ok.2 ⟨e, he, hl, (putWords_putWords e _ s).symm⟩

theorem decodeVectorN_again (hu : decodeVectorN p s = .ok t) : decodeVectorN p t = .ok t := by
  obtain ⟨hn, e, he, hl, rfl⟩ := decodeVectorN_eq_ok.1 hu
  exact decodeVectorN_eq_ok.2 ⟨hn, e, he, hl, (putWords_putWords e _ s).symm⟩

/-- From the state with its results, every operation computes them again. -/
theorem opBody_again {i : Instr} (hi : i ∈ operations) : opBody i s = .ok t → opBody i t = .ok t :=
  operations_cases (P := fun i => opBody i s = .ok t → opBody i t = .ok t) hi
    (encSet := encodeConfig_again) (encAns := encodeConfig_again)
    (dec := fun h => by
      obtain ⟨bytes, hb, h⟩ := Check.bind_eq_ok.1 h
      obtain ⟨hfb, hflen, h⟩ := decodeConfig_again h
      exact Check.bind_eq_ok.2 ⟨bytes, by rw [hfb, hflen, hb], h⟩)
    (codes := fun f h => by
      rw [opBody_elutV2c] at h ⊢
      exact lookupCodeBody_again h)
    (words := fun f h => by
      rw [opBody_elutC2v] at h ⊢
      exact lookupWordBody_again h)
    (mencT := encodeText_again) (mencB := encodeBlob_again) (mencV := encodeVector_again)
    (mdecT := decodeText_again) (mdecB := decodeBlob_again) (mdecV := decodeVector_again)
    (mdecVn := decodeVectorN_again)

/-- An operation that answered answers the same again: its results are computed again (`opBody_again`), or it fails again, since
it wrote only the outcome, which no operation reads (`opBody_withOutcome`). -/
theorem exec_again_of_operation {i : Instr} (hi : i ∈ operations) (h : exec i s = .next t) : exec i t = .next t := by
  rw [exec_eq_settle hi] at h ⊢
  rcases settle_next h with ⟨u, hu, rfl⟩ | ⟨k, info, he, rfl⟩
  · have hr : opBody i (u.withOutcome statusOk infoNone) = .ok (u.withOutcome statusOk infoNone) := by
      rw [opBody_withOutcome _ _ _ hi, opBody_again hi hu]
      rfl
    exact congrArg (settle _) hr
  · have hr : opBody i (s.withOutcome k.code info) = .error (.raise k info) := by
      rw [opBody_withOutcome _ _ _ hi, he]
      rfl
    exact congrArg (settle _) hr

theorem hostFrame_again {bytes : List Byte} (h : hostFrame p bytes s = .next t) : hostFrame p bytes t = .next t := by
  obtain ⟨hb, rfl⟩ := guarded_next h
  rw [hostFrame, if_pos hb, Memory.writeList_writeList_self]

theorem hostMessage_again {bytes : List Byte} (h : hostMessage p bytes s = .next t) : hostMessage p bytes t = .next t := by
  obtain ⟨hb, rfl⟩ := guarded_next h
  rw [hostMessage, if_pos hb, Memory.writeList_writeList_self]

end Again

/-- Settles O49: each operation by `exec_again_of_operation`, each wire format by the host action that brings its bytes. -/
theorem repeatedOperationChangesNothing : Obligations.RepeatedOperationChangesNothing := by
  intro i s t h
  cases i with
  | cfSet f => exact hostFrame_again (p := Config.params) (bytes := packFields 0xC2#8 f) h
  | cfAns f => exact hostFrame_again (p := Config.params) (bytes := packFields 0xC1#8 f) h
  | cfPset f => exact hostFrame_again (p := Config.params) (bytes := packFields 0xC0#8 f) h
  | me topic sender content =>
    exact hostMessage_again (p := Config.params) (bytes := packMessage topic sender content) h
  | _ => exact exec_again_of_operation (by decide) h

/-! ### One step serves the next request -/

/-- With a request pending, a step serves it in the state without it. -/
theorem step_of_pending {s : State} {r : Request} {rest : List Request} (hp : s.pending = r :: rest) :
    step s = serve r { s with pending := rest } := by
  simp only [step, fetch, hp]

/-- Serving a request that decodes is its instruction. -/
theorem serve_of_decode {r : Request} {i : Instr} (hd : decode r = .ok i) (s : State) : serve r s = exec i s := by
  simp only [serve, hd]

/-- Settles O5: the step serves the head of the list, and serving it is the instruction. -/
theorem stepRunsDecodedInstr : Obligations.StepRunsDecodedInstr := by
  intro s r rest i hp hd
  rw [step_of_pending hp, serve_of_decode hd]

/-! ### A host write of one element -/

/-- The element written is read back. -/
@[simp] theorem Memory.read_write_self {α : Type} (m : List (Nat × α)) (a : Nat) (v : α) :
    Memory.read (Memory.write m a v) a = some v := by
  rw [Memory.read_write, if_pos rfl]

/-- A write of one element leaves the others. -/
theorem Memory.read_write_of_ne {α : Type} (m : List (Nat × α)) (v : α) {a k : Nat} (h : k ≠ a) :
    Memory.read (Memory.write m a v) k = Memory.read m k := by
  rw [Memory.read_write, if_neg h]

/-- Settles O54: below the capacity the host's write is `Memory.write` of the one element, otherwise the guard refuses it. -/
theorem hostPokeWritesOneElement : Obligations.HostPokeWritesOneElement := by
  refine ⟨fun a b p s => ⟨fun h => ?_, fun h => if_neg (Nat.not_lt.2 h)⟩,
    fun a b p s => ⟨fun h => ?_, fun h => if_neg (Bool.eq_false_iff.1 h)⟩,
    fun a b p s => ⟨fun h => ?_, fun h => if_neg (Bool.eq_false_iff.1 h)⟩,
    fun a w p s => ⟨fun h => ?_, fun h => if_neg (Bool.eq_false_iff.1 h)⟩⟩
  · exact ⟨_, if_pos (Nat.succ_le_of_lt h), Memory.read_write_self .., fun _ => Memory.read_write_of_ne _ _, rfl⟩
  · exact ⟨_, if_pos h, Memory.read_write_self .., fun _ => Memory.read_write_of_ne _ _, rfl⟩
  · exact ⟨_, if_pos h, Memory.read_write_self .., fun _ => Memory.read_write_of_ne _ _, rfl⟩
  · exact ⟨_, if_pos h, Memory.read_write_self .., fun _ => Memory.read_write_of_ne _ _, rfl⟩

end Sys2Proof.Machine
end

section
/-! PROOFS. The encodings (30_encoding.md): decoding undoes encoding and encoding undoes decoding, a reserved code is refused, what
the host actions and the wire formats write, and that a printed value is a literal. -/

namespace Sys2Proof.Machine

/-! ### The three formats, both ways -/

/-- The frame of an instruction of the `CF` format decodes to it when its channel is in its domain. -/
theorem decodeFrameBytes_packFields {header : Byte} {f : FrameFields} {i : Instr} (hi : frameInstr header f = some i)
    (hf : f.wf = true) : decodeFrameBytes (packFields header f) = .ok i := by
  have hreserved : reg7Reserved (f.packet ++ f.noise ++ 0#3 ++ f.power : BitVec 8) = 0#3 :=
    (reg7_fields f.packet f.noise f.power).2.2.2
  have hchannel : ¬ 83#8 < f.channel := BitVec.not_lt.2 (of_decide_eq_true hf)
  simp [decodeFrameBytes, packFields, unpack_pack, hi, hreserved, hchannel]

/-- A frame that decodes is the packed frame of the instruction's header and fields. -/
theorem decodeFrameBytes_eq_ok {bytes : List Byte} {i : Instr} (h : decodeFrameBytes bytes = .ok i) :
    ∃ header f, frameInstr header f = some i ∧ f.wf = true ∧ bytes = packFields header f := by
  unfold decodeFrameBytes at h
  split at h
  case h_2 => cases h
  case h_1 hd sr rc ah al n r6 r7 c r9 kh kl =>
    split at h
    case h_1 => cases h
    case h_2 j hj =>
      split_ifs at h with hfixed hreserved hchannel
      cases h
      obtain ⟨rfl, rfl⟩ : sr = 0x00#8 ∧ rc = 0x09#8 := by simpa using hfixed
      refine ⟨hd, _, hj, decide_eq_true (BitVec.not_lt.1 hchannel), ?_⟩
      rw [pack_unpack _ _ _ _ _ _ _ _ _ _ (not_not.1 hreserved)]

/-- An instruction that a header stands for is encoded with that header, and is well formed when its fields are. -/
theorem encode_of_frameInstr {header : Byte} {f : FrameFields} {i : Instr} (h : frameInstr header f = some i) :
    encode i = .frame (packFields header f) ∧ i.wf = f.wf := by
  unfold frameInstr at h
  split_ifs at h with hset hans hpset
  · cases h; subst hset; exact ⟨rfl, rfl⟩
  · cases h; subst hans; exact ⟨rfl, rfl⟩
  · cases h; subst hpset; exact ⟨rfl, rfl⟩

/-- The bytes of an envelope with an enumerated topic decode to it. -/
theorem decodeMessageBytes_packMessage {n : Nat} {topic : Byte} (h : topicOk n topic = true) (sender : Half)
    (content : List Byte) : decodeMessageBytes n (packMessage topic sender content) = .ok (.me topic sender content) := by
  simp only [decodeMessageBytes, packMessage, h, if_true, extract_append]

/-- A message that decodes is the bytes of an envelope with an enumerated topic. -/
theorem decodeMessageBytes_eq_ok {n : Nat} {bytes : List Byte} {i : Instr} (h : decodeMessageBytes n bytes = .ok i) :
    ∃ topic sender content, i = .me topic sender content ∧ topicOk n topic = true ∧
      bytes = packMessage topic sender content := by
  unfold decodeMessageBytes at h
  split at h
  case h_2 => cases h
  case h_1 t lo hi content =>
    split_ifs at h with ht
    cases h
    exact ⟨t, hi ++ lo, content, rfl, ht, by rw [packMessage, append_extract_low, append_extract_high]⟩

/-- The 22 codes are those of the 22 operations, in the table's order (R91). -/
theorem encode_operations : operations.map encode = definedCodes.map .op := rfl

/-- An operation is well formed: it has no operands. -/
theorem wf_of_mem_operations {i : Instr} (h : i ∈ operations) : i.wf = true :=
  (by decide : ∀ j ∈ operations, j.wf = true) i h

/-- An operation code that decodes is the code of the operation. -/
theorem encode_of_decodeOp {code : Byte} {i : Instr} (h : decodeOp code = .ok i) : encode i = .op code := by
  unfold decodeOp at h
  split at h <;> cases h <;> rename_i hcode <;> exact congrArg Request.op (BitVec.eq_of_toNat_eq hcode.symm)

/-- An operation code that decodes is one that R91 lists. -/
theorem mem_definedCodes_of_decodeOp {code : Byte} {i : Instr} (h : decodeOp code = .ok i) : code ∈ definedCodes := by
  have hmem : Request.op code ∈ operations.map encode :=
    List.mem_map.2 ⟨i, mem_operations_of_decodeOp h, encode_of_decodeOp h⟩
  rw [encode_operations] at hmem
  simpa using hmem

/-- Settles O2: a frame by `decodeFrameBytes_packFields`, an envelope by `decodeMessageBytes_packMessage`; an operation has one
code. -/
theorem decodeOfEncode : Obligations.DecodeOfEncode := by
  intro i hi
  cases i with
  | cfSet f => exact decodeFrameBytes_packFields (header := 0xC2#8) rfl hi
  | cfAns f => exact decodeFrameBytes_packFields (header := 0xC1#8) rfl hi
  | cfPset f => exact decodeFrameBytes_packFields (header := 0xC0#8) rfl hi
  | me topic sender content => exact decodeMessageBytes_packMessage hi sender content
  | _ => rfl

/-- Settles O3: what decodes in each of the three formats is what `encode` gives, and host actions do not decode. -/
theorem encodeOfDecode : Obligations.EncodeOfDecode := by
  intro r i h
  cases r with
  | op code => exact ⟨encode_of_decodeOp h, wf_of_mem_operations (mem_operations_of_decodeOp h)⟩
  | frame bytes =>
    obtain ⟨header, f, hi, hf, rfl⟩ := decodeFrameBytes_eq_ok h
    obtain ⟨henc, hwf⟩ := encode_of_frameInstr hi
    exact ⟨henc, hwf.trans hf⟩
  | msg bytes =>
    obtain ⟨topic, sender, content, rfl, ht, rfl⟩ := decodeMessageBytes_eq_ok h
    exact ⟨rfl, ht⟩
  | _ => cases h

/-- Settles O1: the eight words, one by one. -/
theorem tableWordsDecode : Obligations.TableWordsDecode := by
  refine ⟨rfl, rfl, rfl, rfl, rfl, rfl, rfl, ?_⟩
  decide

/-! ### Requests that do not decode -/

/-- Serving a request that does not decode is the host's request. -/
theorem serve_of_decode_error {r : Request} {e : DecodeError} (hd : decode r = .error e) (s : State) :
    serve r s = hostRequest Config.params r s := by
  simp only [serve, hd]

/-- Settles O4: a code that R91 does not list does not decode (`mem_definedCodes_of_decodeOp`); the count is over all 256. -/
theorem reservedCodeIsRefused : Obligations.ReservedCodeIsRefused := by
  refine ⟨fun s code rest hcode => ?_, by decide +kernel⟩
  rw [step_of_pending rfl]
  cases hd : decodeOp code with
  | ok i => exact absurd (mem_definedCodes_of_decodeOp hd) hcode
  | error e => exact serve_of_decode_error (r := .op code) hd _

/-- Settles O7: the step serves the head of the list, which does not decode; with no head it has nothing to serve. -/
theorem stepServesHostActions : Obligations.StepServesHostActions := by
  refine ⟨fun s r rest e hp hd => ?_, fun s hp => ?_⟩
  · rw [step_of_pending hp, serve_of_decode_error hd]
  · simp only [step, fetch, hp]

/-! ### Host actions -/

section Fills

variable {p : Params} {bytes : List Byte} {s : State}

/-- A list written from offset 0 leaves every element past its end. -/
theorem Memory.read_writeList_past {α : Type} (m : List (Nat × α)) {l : List α} {a : Nat} (h : l.length ≤ a) :
    Memory.read (Memory.writeList m 0 l) a = Memory.read m a :=
  Memory.read_writeList_outside m 0 a l (.inr (by rwa [Nat.zero_add]))

/-- `FRAME` within the capacity: the bytes stand in `FB` from offset 0, their count in `FLEN`, and nothing else changes. -/
theorem hostFrame_fills (h : bytes.length ≤ p.fbMax) :
    ∃ t, hostFrame p bytes s = .next t ∧ Memory.readList t.fb 0 bytes.length = some bytes ∧
      (∀ a, bytes.length ≤ a → Memory.read t.fb a = Memory.read s.fb a) ∧ t = { s with fb := t.fb, flen := bytes.length } :=
  ⟨_, if_pos h, Memory.readList_writeList .., fun _ => Memory.read_writeList_past _, rfl⟩

/-- `MSG` within the capacity does the same to `MB` and `MLEN`. -/
theorem hostMessage_fills (h : mbFits p bytes.length = true) :
    ∃ t, hostMessage p bytes s = .next t ∧ Memory.readList t.mb 0 bytes.length = some bytes ∧
      (∀ a, bytes.length ≤ a → Memory.read t.mb a = Memory.read s.mb a) ∧ t = { s with mb := t.mb, mlen := bytes.length } :=
  ⟨_, if_pos h, Memory.readList_writeList .., fun _ => Memory.read_writeList_past _, rfl⟩

end Fills

/-- Settles O52: within the capacity each action is `Memory.writeList` from offset 0. -/
theorem hostFillsBuffers : Obligations.HostFillsBuffers := by
  refine ⟨fun bytes s h => hostFrame_fills h, fun bytes s h => hostMessage_fills h, fun bytes s h => ?_, fun words s h => ?_⟩
  · exact ⟨_, if_pos h, Memory.readList_writeList .., fun _ => Memory.read_writeList_past _, rfl⟩
  · exact ⟨_, if_pos h, if_pos h, Memory.readList_writeList .., fun _ => Memory.read_writeList_past _, rfl⟩

/-- Settles O53: a configuration register by `RegFile.get_set_self` and `RegFile.get_set_of_ne`, a length by its guard; the other
registers are one field each. -/
theorem hostSetWritesOneRegister : Obligations.HostSetWritesOneRegister := by
  refine ⟨fun f v s => ?_, fun b s => ⟨rfl, rfl, rfl, rfl, rfl⟩, fun h w s => ⟨rfl, rfl, rfl⟩,
    fun n s => ⟨fun h => if_pos h, fun h => if_pos h, fun h => if_pos h, fun h => if_pos h⟩⟩
  exact ⟨_, rfl, RegFile.get_set_self .., fun _ => RegFile.get_set_of_ne, rfl⟩

/-! ### Wire formats -/

/-- A bit string is written as its number. -/
theorem eq_ofNat_of_toNat_eq {w n : Nat} {x : BitVec w} (h : x.toNat = n) : x = BitVec.ofNat w n := by
  rw [← h, BitVec.ofNat_toNat, BitVec.setWidth_eq]

/-- The twelve bytes of a frame as numbers (R96, R97). -/
theorem packFields_eq_ofNat (header : Byte) (f : FrameFields) : packFields header f =
    [header, 0x00#8, 0x09#8, BitVec.ofNat 8 (f.address.toNat / 256), BitVec.ofNat 8 f.address.toNat, f.netId,
     BitVec.ofNat 8 (f.baud.toNat * 32 + f.parity.toNat * 8 + f.air.toNat),
     BitVec.ofNat 8 (f.packet.toNat * 64 + f.noise.toNat * 32 + f.power.toNat),
     f.channel,
     BitVec.ofNat 8 (f.rssi.toNat * 128 + f.p2p.toNat * 64 + f.relay.toNat * 32 + f.lbt.toNat * 16
       + f.worMode.toNat * 8 + f.wor.toNat),
     BitVec.ofNat 8 (f.key.toNat / 256), BitVec.ofNat 8 f.key.toNat] := by
  have hreg6 : (f.baud ++ f.parity ++ f.air : BitVec 8) =
      BitVec.ofNat 8 (f.baud.toNat * 32 + f.parity.toNat * 8 + f.air.toNat) :=
    eq_ofNat_of_toNat_eq (by simp only [toNat_append_mul]; omega)
  have hreg7 : (f.packet ++ f.noise ++ 0#3 ++ f.power : BitVec 8) =
      BitVec.ofNat 8 (f.packet.toNat * 64 + f.noise.toNat * 32 + f.power.toNat) :=
    eq_ofNat_of_toNat_eq (by simp only [toNat_append_mul, BitVec.toNat_ofNat]; omega)
  have hreg9 : (f.rssi ++ f.p2p ++ f.relay ++ f.lbt ++ f.worMode ++ f.wor : BitVec 8) =
      BitVec.ofNat 8 (f.rssi.toNat * 128 + f.p2p.toNat * 64 + f.relay.toNat * 32 + f.lbt.toNat * 16
        + f.worMode.toNat * 8 + f.wor.toNat) :=
    eq_ofNat_of_toNat_eq (by simp only [toNat_append_mul]; omega)
  simp only [packFields, extract_high_eq, extract_low_eq, hreg6, hreg7, hreg9]

/-- The bytes of an envelope are its head as numbers and its content (R104). -/
theorem packMessage_eq_append (topic : Byte) (sender : Half) (content : List Byte) :
    packMessage topic sender content = headBytes topic sender ++ content := by
  rw [packMessage, extract_low_eq, extract_high_eq]
  rfl

/-- Settles O57: the rows are the host actions FRAME and MSG (`hostFrame_fills`, `hostMessage_fills`) of bytes that are those of
`packFields_eq_ofNat` and `packMessage_eq_append`. -/
theorem wireFormatsReachTheirBuffer : Obligations.WireFormatsReachTheirBuffer := by
  refine ⟨fun f s i header hi => ?_, fun topic sender content s h => ?_⟩
  · have hexec : exec i s = hostFrame Config.params (packFields header f) s := by
      rcases hi with ⟨rfl, rfl⟩ | ⟨rfl, rfl⟩ | ⟨rfl, rfl⟩ <;> rfl
    rw [hexec, ← packFields_eq_ofNat]
    exact hostFrame_fills (bytes := packFields header f) twelve_le_fbMax
  · rw [← packMessage_eq_append]
    exact hostMessage_fills (bytes := packMessage topic sender content) h

/-! ### Printed values -/

/-- A printed number is no `raw:` literal. -/
@[simp] theorem afterPrefix_raw_decimal_nil (w : Word) : afterPrefix "raw:".toList (decimal w) = none := by
  simpa using afterPrefix_raw_decimal w []

/-- The labels of a table differ, and none starts like a `raw:` literal. -/
def LabelsReadBack (ls : List (Text × Word)) : Prop :=
  (∀ a ∈ ls, ∀ b ∈ ls, a.1 = b.1 → a = b) ∧ ∀ a ∈ ls, afterPrefix "raw:".toList a.1 = none

theorem parityLabels_readBack : LabelsReadBack parityLabels := by unfold LabelsReadBack; decide +kernel

theorem airLabels_readBack : LabelsReadBack airLabels := by unfold LabelsReadBack; decide +kernel

theorem flagLabels_readBack : LabelsReadBack flagLabels := by unfold LabelsReadBack; decide +kernel

theorem worModeLabels_readBack : LabelsReadBack worModeLabels := by unfold LabelsReadBack; decide +kernel

/-- A printed label is no `raw:` literal, and it is the label of its word. -/
theorem LabelsReadBack.of_labelOf {ls : List (Text × Word)} {w : Word} {t : Text} (hls : LabelsReadBack ls)
    (h : labelOf ls w = some t) : afterPrefix "raw:".toList t = none ∧ ofLabel ls t = some w := by
  obtain ⟨hdistinct, hraw⟩ := hls
  refine ⟨?_, ofLabel_of_labelOf hdistinct h⟩
  obtain ⟨a, ha, rfl⟩ := Option.map_eq_some_iff.1 h
  exact hraw a (List.mem_of_find?_eq_some ha)

/-- Whatever a value word is printed as reads back as that word. -/
theorem fieldLiteral_of_printValue {f : Field} {w : Word} {t : Text} (h : printValue f w = some t) :
    fieldLiteral f t = some w := by
  cases f with
  | moduleAddress | netId | baudRate | packetLen | channel | worPeriod | key =>
    cases h
    simp only [fieldLiteral, afterPrefix_raw_decimal_nil, numberOf_decimal]
  | transmitPower =>
    cases h
    simp only [fieldLiteral, afterPrefix_raw_decimal, powerLiteral_decimal]
  | parity =>
    obtain ⟨hraw, hlabel⟩ := parityLabels_readBack.of_labelOf h
    simp only [fieldLiteral, hraw, hlabel]
  | airSpeed =>
    obtain ⟨hraw, hlabel⟩ := airLabels_readBack.of_labelOf h
    simp only [fieldLiteral, hraw, hlabel]
  | enableAmbientNoise | enableRssiByte | enablePointToPointMode | enableRelayFunction | enableLbt =>
    obtain ⟨hraw, hlabel⟩ := flagLabels_readBack.of_labelOf h
    simp only [fieldLiteral, hraw, hlabel]
  | worMode =>
    obtain ⟨hraw, hlabel⟩ := worModeLabels_readBack.of_labelOf h
    simp only [fieldLiteral, hraw, hlabel]

/-- A word of a table of labels has a label. -/
theorem isSome_labelOf {ls : List (Text × Word)} {w : Word} (h : w ∈ ls.map Prod.snd) : (labelOf ls w).isSome = true := by
  obtain ⟨a, ha, rfl⟩ := List.mem_map.1 h
  simpa [labelOf] using ⟨a.1, ha⟩

/-- Every word of a field's domain is printed: a number always, and a table of labels has a row for each word of its domain. -/
theorem isSome_printValue {f : Field} {w : Word} (h : valid f w = true) : (printValue f w).isSome = true := by
  cases f with
  | moduleAddress | netId | baudRate | packetLen | transmitPower | channel | worPeriod | key => rfl
  | parity | airSpeed | worMode => exact isSome_labelOf (List.contains_iff_mem.1 h)
  | enableAmbientNoise | enableRssiByte | enablePointToPointMode | enableRelayFunction | enableLbt =>
    have hw : w = 0#32 ∨ w = 1#32 := by simpa [valid] using h
    exact isSome_labelOf (by simpa [flagLabels] using hw.symm)

/-- Settles O58: every printed form reads back (`fieldLiteral_of_printValue`), and every valid word has one. -/
theorem printedValueIsALiteral : Obligations.PrintedValueIsALiteral :=
  ⟨fun _ _ _ => fieldLiteral_of_printValue, fun _ _ => isSome_printValue⟩

end Sys2Proof.Machine
end

section
/-! PROOFS. The command frame as numbers and bits: every domain and every code of a frame's field both ways, the frame of a valid
configuration and the configuration of a frame (40_register_config_codec.md R131, R140, R147). -/

namespace Sys2Proof.Machine

/-! ### Codes and value words (41_field_enumerations.md R178 to R180) -/

/-- The domain of a field with a table is the words of the rows that map value to code. -/
theorem valid_tableField (f : TableField) (w : Word) :
    valid (tableField f) w = (((tableRows f).filter TableRow.forward).map TableRow.word).contains w := by
  cases f <;> rfl

/-- A row that maps both ways gives its code and its word, and the code fits the field. -/
theorem lookups_of_forward_row (f : TableField) : ∀ r ∈ tableRows f, r.forward = true →
    v2c f r.word = some r.code ∧ c2v f r.code = some r.word ∧ r.code.toNat < 2 ^ codeWidth f := by
  cases f <;> decide

/-- A valid word has a code, which gives the word back and fits the field. -/
theorem v2c_of_valid {f : TableField} {w : Word} (h : valid (tableField f) w = true) :
    v2c f w = some (codeOf f w) ∧ c2v f (codeOf f w) = some w ∧ (codeOf f w).toNat < 2 ^ codeWidth f := by
  rw [valid_tableField, List.contains_iff_mem] at h
  obtain ⟨r, hr, rfl⟩ := List.mem_map.1 h
  obtain ⟨hmem, hforward⟩ := List.mem_filter.1 hr
  obtain ⟨hcode, hword, hlt⟩ := lookups_of_forward_row f r hmem hforward
  have hr : codeOf f r.word = r.code := by rw [codeOf, hcode, Option.getD_some]
  rw [hr]
  exact ⟨hcode, hword, hlt⟩

/-- Every code of the field's width has a word, and the word is valid. -/
theorem c2v_of_code (f : TableField) : ∀ c : BitVec (codeWidth f),
    c2v f (c.setWidth 8) = some (wordOf f (c.setWidth 8)) ∧ valid (tableField f) (wordOf f (c.setWidth 8)) = true := by
  cases f <;> decide

/-- A bit string that fits a width is kept by narrowing to it. -/
theorem setWidth_setWidth_of_lt {n k : Nat} {x : BitVec n} (h : x.toNat < 2 ^ k) (m : Nat) :
    (x.setWidth k).setWidth m = x.setWidth m := by
  apply BitVec.eq_of_toNat_eq
  rw [BitVec.toNat_setWidth, BitVec.toNat_setWidth, Nat.mod_eq_of_lt h, BitVec.toNat_setWidth]

/-- The field of the frame keeps the code of a valid word (R136). -/
theorem setWidth_codeOf (f : TableField) {w : Word} (h : valid (tableField f) w = true) :
    ((codeOf f w).setWidth (codeWidth f)).setWidth 8 = codeOf f w := by
  obtain ⟨-, -, hlt⟩ := v2c_of_valid h
  rw [setWidth_setWidth_of_lt hlt, BitVec.setWidth_eq]

/-- The code that an encoder places gives the word back. -/
theorem wordOf_codeOf (f : TableField) {w : Word} (h : valid (tableField f) w = true) :
    wordOf f (((codeOf f w).setWidth (codeWidth f)).setWidth 8) = w := by
  obtain ⟨-, hw, -⟩ := v2c_of_valid h
  rw [setWidth_codeOf f h, wordOf, hw, Option.getD_some]

/-- The word of a code gives the code back, in every table but that of parity. -/
theorem codeOf_wordOf (f : TableField) (hf : f ≠ .parity) : ∀ c : BitVec (codeWidth f),
    (codeOf f (wordOf f (c.setWidth 8))).setWidth (codeWidth f) = c := by
  cases f with
  | parity => exact absurd rfl hf
  | baudRate | airSpeed | packetLen | transmitPower | worPeriod => decide

/-- The parity code that stands for the same word in a canonical frame (R151): 0 for 3. -/
def canonicalParity (p : BitVec 2) : BitVec 2 := if p = 3#2 then 0#2 else p

/-- The word of a parity code gives its canonical code. -/
theorem codeOf_wordOf_parity : ∀ p : BitVec 2,
    (codeOf .parity (wordOf .parity (p.setWidth 8))).setWidth 2 = canonicalParity p := by decide

/-- A parity code and its canonical code have one word. -/
theorem wordOf_canonicalParity : ∀ p : BitVec 2,
    wordOf .parity ((canonicalParity p).setWidth 8) = wordOf .parity (p.setWidth 8) := by decide

/-! ### Domains -/

/-- The width that a frame's fields keep of a register; a register with a table is not narrowed but looked up. -/
def narrowWidth : Field → Nat
  | .moduleAddress | .key => 16
  | .netId | .channel => 8
  | .enableAmbientNoise | .enableRssiByte | .enablePointToPointMode | .enableRelayFunction | .enableLbt | .worMode => 1
  | .baudRate | .parity | .airSpeed | .packetLen | .transmitPower | .worPeriod => 32

/-- Every narrowing of a valid word is exact (R136). -/
theorem toNat_lt_of_valid {f : Field} {w : Word} (h : valid f w = true) : w.toNat < 2 ^ narrowWidth f := by
  cases f with
  | moduleAddress | netId | channel | key => exact (BitVec.le_def.1 (of_decide_eq_true h)).trans_lt (by decide)
  | enableAmbientNoise | enableRssiByte | enablePointToPointMode | enableRelayFunction | enableLbt | worMode =>
    have hw : w = 0#32 ∨ w = 1#32 := by simpa [valid] using h
    rcases hw with rfl | rfl <;> decide
  | baudRate | parity | airSpeed | packetLen | transmitPower | worPeriod => exact w.isLt

/-- A flag of a frame is 0 or 1. -/
theorem flag_contains : ∀ b : BitVec 1, [0#32, 1#32].contains (b.setWidth 32) = true := by decide

/-- A widened or narrowed number is not larger. -/
theorem toNat_setWidth_le {k : Nat} (x : BitVec k) (n : Nat) : (x.setWidth n).toNat ≤ x.toNat := by
  rw [BitVec.toNat_setWidth]
  exact Nat.mod_le _ _

/-- A number of a frame is at most what its width holds. -/
theorem setWidth_le_of_width {k : Nat} (x : BitVec k) {b : Word} (h : 2 ^ k ≤ b.toNat + 1) : x.setWidth 32 ≤ b :=
  BitVec.le_def.2 (Nat.le_of_lt_succ ((toNat_setWidth_le x 32).trans_lt (x.isLt.trans_le h)))

/-- A well-formed frame's channel as a number (R100). -/
theorem channel_le_of_wf {f : FrameFields} (hf : f.wf = true) : f.channel.toNat ≤ 83 :=
  BitVec.le_def.1 (of_decide_eq_true hf)

/-- The configuration of a well-formed frame is valid in every register (R147). -/
theorem valid_configOf {f : FrameFields} (hf : f.wf = true) (g : Field) : valid g ((configOf f).get g).value = true := by
  cases g with
  | moduleAddress | netId | key => exact decide_eq_true (setWidth_le_of_width _ (by decide))
  | channel => exact decide_eq_true (BitVec.le_def.2 ((toNat_setWidth_le f.channel 32).trans (channel_le_of_wf hf)))
  | enableAmbientNoise | enableRssiByte | enablePointToPointMode | enableRelayFunction | enableLbt | worMode =>
    exact flag_contains _
  | baudRate => exact (c2v_of_code .baudRate f.baud).2
  | parity => exact (c2v_of_code .parity f.parity).2
  | airSpeed => exact (c2v_of_code .airSpeed f.air).2
  | packetLen => exact (c2v_of_code .packetLen f.packet).2
  | transmitPower => exact (c2v_of_code .transmitPower f.power).2
  | worPeriod => exact (c2v_of_code .worPeriod f.wor).2

/-! ### Frames and configurations -/

/-- The frame of a valid configuration stands for it. -/
theorem configOf_frameOf {x : RegFile} (hw : ∀ f, (x.get f).written = true)
    (hv : ∀ f, valid f (x.get f).value = true) : configOf (frameOf x) = x := by
  have hnarrow (f : Field) : ((x.get f).value.setWidth (narrowWidth f)).setWidth 32 = (x.get f).value := by
    rw [setWidth_setWidth_of_lt (toNat_lt_of_valid (hv f)), BitVec.setWidth_eq]
  refine RegFile.ext_get fun f => ?_
  rw [Reg.eq_of_written (hw f)]
  cases f with
  | moduleAddress | netId | channel | key | enableAmbientNoise | enableRssiByte | enablePointToPointMode
  | enableRelayFunction | enableLbt | worMode =>
    refine congrArg Reg.of (Eq.trans ?_ (hnarrow _))
    rfl
  | baudRate => exact congrArg Reg.of (wordOf_codeOf .baudRate (hv .baudRate))
  | parity => exact congrArg Reg.of (wordOf_codeOf .parity (hv .parity))
  | airSpeed => exact congrArg Reg.of (wordOf_codeOf .airSpeed (hv .airSpeed))
  | packetLen => exact congrArg Reg.of (wordOf_codeOf .packetLen (hv .packetLen))
  | transmitPower => exact congrArg Reg.of (wordOf_codeOf .transmitPower (hv .transmitPower))
  | worPeriod => exact congrArg Reg.of (wordOf_codeOf .worPeriod (hv .worPeriod))

/-- The fields with the canonical parity code (R151). -/
def canonicalFields (f : FrameFields) : FrameFields := { f with parity := canonicalParity f.parity }

/-- The frame of a frame's configuration is the canonical one. -/
theorem frameOf_configOf (f : FrameFields) : frameOf (configOf f) = canonicalFields f := by
  have hbaud : (codeOf .baudRate (wordOf .baudRate (f.baud.setWidth 8))).setWidth 3 = f.baud :=
    codeOf_wordOf .baudRate (by decide) f.baud
  have hair : (codeOf .airSpeed (wordOf .airSpeed (f.air.setWidth 8))).setWidth 3 = f.air :=
    codeOf_wordOf .airSpeed (by decide) f.air
  have hpacket : (codeOf .packetLen (wordOf .packetLen (f.packet.setWidth 8))).setWidth 2 = f.packet :=
    codeOf_wordOf .packetLen (by decide) f.packet
  have hpower : (codeOf .transmitPower (wordOf .transmitPower (f.power.setWidth 8))).setWidth 2 = f.power :=
    codeOf_wordOf .transmitPower (by decide) f.power
  have hwor : (codeOf .worPeriod (wordOf .worPeriod (f.wor.setWidth 8))).setWidth 3 = f.wor :=
    codeOf_wordOf .worPeriod (by decide) f.wor
  simp [frameOf, configOf, canonicalFields, hbaud, codeOf_wordOf_parity, hair, hpacket, hpower, hwor]

/-- Frames that differ in how they write parity 8N1 stand for one configuration. -/
theorem configOf_canonicalFields (f : FrameFields) : configOf (canonicalFields f) = configOf f := by
  simp only [configOf, canonicalFields, wordOf_canonicalParity]

theorem canonicalParity_idem : ∀ p : BitVec 2, canonicalParity (canonicalParity p) = canonicalParity p := by decide

@[simp] theorem canonicalFields_idem (f : FrameFields) : canonicalFields (canonicalFields f) = canonicalFields f := by
  simp only [canonicalFields, canonicalParity_idem]

theorem canonicalFields_wf {f : FrameFields} (hf : f.wf = true) : (canonicalFields f).wf = true := hf

end Sys2Proof.Machine
end

section
/-! PROOFS. The register command unit (40_register_config_codec.md): what the two encoders write and `RDEC` reads, how they fail,
and that encoding and decoding undo each other. -/

namespace Sys2Proof.Machine

/-! ### The bits of a frame (30_encoding.md R96 to R101) -/

/-- The nine bytes that follow the header and the two fixed bytes of a packed frame (R97). -/
def frameBody (f : FrameFields) : List Byte := (packFields 0#8 f).drop 3

theorem packFields_eq_cons (header : Byte) (f : FrameFields) :
    packFields header f = header :: 0x00#8 :: 0x09#8 :: frameBody f := rfl

/-- The bytes of a frame with zero reserved bits are those of its fields. -/
theorem frameBody_unpackFields (ah al n r6 r7 c r9 kh kl : Byte) (h7 : reg7Reserved r7 = 0#3) :
    frameBody (unpackFields ah al n r6 r7 c r9 kh kl) = [ah, al, n, r6, r7, c, r9, kh, kl] :=
  congrArg (List.drop 3) (pack_unpack 0#8 ah al n r6 r7 c r9 kh kl h7)

/-- reg6 by shifts of its codes as bytes (R98). -/
theorem reg6_eq_shifts {b : BitVec 3} {p : BitVec 2} {a : BitVec 3} {baud parity air : Byte} (hb : b.setWidth 8 = baud)
    (hp : p.setWidth 8 = parity) (ha : a.setWidth 8 = air) :
    (b ++ p ++ a : BitVec 8) = (baud <<< 5) ||| (parity <<< 3) ||| air := by
  subst hb hp ha
  revert b p a
  decide +kernel

/-- reg7 by shifts of its fields as bytes (R99). -/
theorem reg7_eq_shifts {l : BitVec 2} {m : BitVec 1} {t : BitVec 2} {packet noise power : Byte} (hl : l.setWidth 8 = packet)
    (hm : m.setWidth 8 = noise) (ht : t.setWidth 8 = power) :
    (l ++ m ++ 0#3 ++ t : BitVec 8) = (packet <<< 6) ||| (noise <<< 5) ||| power := by
  subst hl hm ht
  revert l m t
  decide +kernel

/-- reg9 by shifts of its fields as bytes (R101). -/
theorem reg9_eq_shifts {r x y q w : BitVec 1} {d : BitVec 3} {rssi p2p relay lbt worMode wor : Byte}
    (hr : r.setWidth 8 = rssi) (hx : x.setWidth 8 = p2p) (hy : y.setWidth 8 = relay) (hq : q.setWidth 8 = lbt)
    (hw : w.setWidth 8 = worMode) (hd : d.setWidth 8 = wor) :
    (r ++ x ++ y ++ q ++ w ++ d : BitVec 8) =
      (rssi <<< 7) ||| (p2p <<< 6) ||| (relay <<< 5) ||| (lbt <<< 4) ||| (worMode <<< 3) ||| wor := by
  subst hr hx hy hq hw hd
  revert r x y q w d
  decide +kernel

/-- The reserved bits of reg7 by a shift and a mask (R99). -/
theorem reg7Reserved_eq_zero_iff : ∀ r : Byte, reg7Reserved r = 0#3 ↔ (r >>> 2) &&& 7#8 = 0#8 := by decide +kernel

/-- The parity code of reg6 by a shift and a mask (R98). -/
theorem reg6_parity_eq_three_iff : ∀ r : Byte, r.extractLsb' 3 2 = 3#2 ↔ (r >>> 3) &&& 3#8 = 3#8 := by decide +kernel

/-- Making the parity code canonical clears the parity bits of reg6 when they are 11 (R151). -/
theorem reg6_canonicalParity : ∀ (b : BitVec 3) (p : BitVec 2) (a : BitVec 3),
    (b ++ canonicalParity p ++ a : BitVec 8) =
      if ((b ++ p ++ a : BitVec 8) >>> 3) &&& 3#8 = 3#8 then (b ++ p ++ a : BitVec 8) &&& 0xE7#8 else b ++ p ++ a := by
  decide +kernel

/-- No canonical reg6 has parity bits 11. -/
theorem reg6_canonicalParity_ne : ∀ (b : BitVec 3) (p : BitVec 2) (a : BitVec 3),
    ((b ++ canonicalParity p ++ a : BitVec 8) >>> 3) &&& 3#8 ≠ 3#8 := by decide +kernel

/-- The codes of reg6, reg7 and reg9 as bytes, by shifts and masks. -/
theorem extract_code_eq : ∀ r : Byte,
    (r.extractLsb' 5 3).setWidth 8 = r >>> 5 ∧ (r.extractLsb' 3 2).setWidth 8 = (r >>> 3) &&& 3#8 ∧
    (r.extractLsb' 0 3).setWidth 8 = r &&& 7#8 ∧ (r.extractLsb' 6 2).setWidth 8 = r >>> 6 ∧
    (r.extractLsb' 0 2).setWidth 8 = r &&& 3#8 := by decide +kernel

/-- A flag of a register byte as a value word, by a shift and a mask. -/
theorem extract_flag_eq (r : Byte) (k : Nat) : (r.extractLsb' k 1).setWidth 32 = ((r >>> k) &&& 1#8).setWidth 32 := by
  apply BitVec.eq_of_toNat_eq
  rw [BitVec.toNat_setWidth, BitVec.toNat_setWidth, toNat_extract_div, BitVec.toNat_and, BitVec.toNat_ushiftRight,
    Nat.shiftRight_eq_div_pow, pow_one]
  exact congrArg (· % 2 ^ 32) (Nat.and_one_is_mod _).symm

/-! ### The encoders -/

section RegisterUnit

variable {i : Instr} {header h sr rc : Byte} {f : FrameFields} {s t : State}

/-- The state after an encoder wrote the frame of `f` (R131). -/
def State.encoded (header : Byte) (f : FrameFields) (s : State) : State :=
  { s with
    fb := Memory.writeList s.fb 0 (packFields header f)
    flen := 12
    status := statusOk
    einfo := infoNone }

/-- Both encoders are `ENCODE` with their header (R132, R133). -/
theorem exec_encoder (hi : isEncoder i header) (s : State) : exec i s = settle s (encodeConfig header s) := by
  rcases hi with ⟨rfl, rfl⟩ | ⟨rfl, rfl⟩ <;> rfl

/-- An encoder's header is one that `RDEC` accepts. -/
theorem isHeader_of_isEncoder (hi : isEncoder i header) : isHeader header = true := by
  rcases hi with ⟨-, rfl⟩ | ⟨-, rfl⟩ <;> decide

/-- With every register written and valid, an encoder writes the frame. -/
theorem exec_encoder_valid (hi : isEncoder i header) (hw : ∀ f, (s.x.get f).written = true)
    (hv : ∀ f, valid f (s.x.get f).value = true) : exec i s = .next (s.encoded header (frameOf s.x)) := by
  rw [exec_encoder hi, encodeConfig_eq_ok.2 ⟨hw, hv, rfl⟩]
  rfl

/-- The frame written is read back. -/
theorem readList_encoded (header : Byte) (f : FrameFields) (s : State) :
    Memory.readList (s.encoded header f).fb 0 12 = some (packFields header f) :=
  Memory.readList_writeList s.fb 0 (packFields header f)

/-- The two bytes of a word that fits a half word. -/
theorem setWidth_bytes {w : Word} (h : w.toNat < 2 ^ 16) :
    (w.setWidth 16).extractLsb' 8 8 = BitVec.ofNat 8 (w.toNat / 256) ∧
    (w.setWidth 16).extractLsb' 0 8 = BitVec.ofNat 8 w.toNat := by
  rw [extract_high_eq, extract_low_eq, BitVec.toNat_setWidth, Nat.mod_eq_of_lt h]
  exact ⟨rfl, rfl⟩

/-- The twelve bytes of a valid configuration by R131's formulas: narrowing a valid word or its code is exact (R136). -/
theorem packFields_frameOf {x : RegFile} (hv : ∀ f, valid f (x.get f).value = true) (header : Byte) :
    packFields header (frameOf x) =
      [header, 0x00#8, 0x09#8,
       BitVec.ofNat 8 (x.moduleAddress.value.toNat / 256), BitVec.ofNat 8 x.moduleAddress.value.toNat,
       BitVec.ofNat 8 x.netId.value.toNat,
       (codeOf .baudRate x.baudRate.value <<< 5) ||| (codeOf .parity x.parity.value <<< 3)
         ||| codeOf .airSpeed x.airSpeed.value,
       (codeOf .packetLen x.packetLen.value <<< 6) ||| (BitVec.ofNat 8 x.enableAmbientNoise.value.toNat <<< 5)
         ||| codeOf .transmitPower x.transmitPower.value,
       BitVec.ofNat 8 x.channel.value.toNat,
       (BitVec.ofNat 8 x.enableRssiByte.value.toNat <<< 7)
         ||| (BitVec.ofNat 8 x.enablePointToPointMode.value.toNat <<< 6)
         ||| (BitVec.ofNat 8 x.enableRelayFunction.value.toNat <<< 5)
         ||| (BitVec.ofNat 8 x.enableLbt.value.toNat <<< 4)
         ||| (BitVec.ofNat 8 x.worMode.value.toNat <<< 3) ||| codeOf .worPeriod x.worPeriod.value,
       BitVec.ofNat 8 (x.key.value.toNat / 256), BitVec.ofNat 8 x.key.value.toNat] := by
  have hnumber (f : Field) :
      ((x.get f).value.setWidth (narrowWidth f)).setWidth 8 = BitVec.ofNat 8 (x.get f).value.toNat := by
    rw [setWidth_setWidth_of_lt (toNat_lt_of_valid (hv f)), BitVec.ofNat_toNat]
  obtain ⟨haddrHi, haddrLo⟩ := setWidth_bytes (toNat_lt_of_valid (hv .moduleAddress))
  obtain ⟨hkeyHi, hkeyLo⟩ := setWidth_bytes (toNat_lt_of_valid (hv .key))
  have hnetId : (frameOf x).netId = BitVec.ofNat 8 x.netId.value.toNat := (BitVec.ofNat_toNat 8 x.netId.value).symm
  have hchannel : (frameOf x).channel = BitVec.ofNat 8 x.channel.value.toNat := (BitVec.ofNat_toNat 8 x.channel.value).symm
  have hreg6 := reg6_eq_shifts (setWidth_codeOf .baudRate (hv .baudRate)) (setWidth_codeOf .parity (hv .parity))
    (setWidth_codeOf .airSpeed (hv .airSpeed))
  have hreg7 := reg7_eq_shifts (setWidth_codeOf .packetLen (hv .packetLen)) (hnumber .enableAmbientNoise)
    (setWidth_codeOf .transmitPower (hv .transmitPower))
  have hreg9 := reg9_eq_shifts (hnumber .enableRssiByte) (hnumber .enablePointToPointMode)
    (hnumber .enableRelayFunction) (hnumber .enableLbt) (hnumber .worMode) (setWidth_codeOf .worPeriod (hv .worPeriod))
  simp only [packFields, List.cons.injEq, true_and, and_true]
  exact ⟨haddrHi, haddrLo, hnetId, hreg6, hreg7, hchannel, hreg9, hkeyHi, hkeyLo⟩

/-- A field stands in the list of all fields at its index. -/
theorem allFields_getElem?_fieldInfo (f : Field) : allFields[(fieldInfo f).toNat]? = some f := by
  cases f <;> rfl

/-- The field at a place of the list of all fields has that index. -/
theorem fieldInfo_allFields_getElem : ∀ (k : Nat) (hk : k < allFields.length), (fieldInfo allFields[k]).toNat = k := by
  decide

/-- A scan of the fields in index order finds the lowest one (R131). -/
theorem find?_allFields_eq_some_iff {q : Field → Bool} {f : Field} :
    allFields.find? q = some f ↔
      q f = true ∧ ∀ g, (fieldInfo g).toNat < (fieldInfo f).toNat → q g = false := by
  rw [List.find?_eq_some_iff_getElem]
  refine and_congr_right fun _ => ⟨?_, fun hlow => ?_⟩
  · rintro ⟨k, hk, rfl, hbefore⟩ g hg
    rw [fieldInfo_allFields_getElem k hk] at hg
    obtain ⟨_, hget⟩ := List.getElem?_eq_some_iff.1 (allFields_getElem?_fieldInfo g)
    simpa [hget] using hbefore _ hg
  · obtain ⟨hk, hget⟩ := List.getElem?_eq_some_iff.1 (allFields_getElem?_fieldInfo f)
    refine ⟨_, hk, hget, fun j hj => ?_⟩
    have hindex := fieldInfo_allFields_getElem j (hj.trans hk)
    simpa using hlow allFields[j] (hindex.trans_lt hj)

/-- `f` is the lowest register outside its domain. -/
def LowestInvalid (x : RegFile) (f : Field) : Prop :=
  valid f (x.get f).value = false ∧ ∀ g, (fieldInfo g).toNat < (fieldInfo f).toNat → valid g (x.get g).value = true

/-- The scan of the domains stops at the lowest invalid register, and only there (R134). -/
theorem checkValid_eq_error_iff {x : RegFile} {e : Stop} :
    checkValid x = .error e ↔ ∃ f, LowestInvalid x f ∧ e = .raise .invalidField (fieldInfo f) := by
  have hfind (f : Field) : allFields.find? (fun f => !valid f (x.get f).value) = some f ↔ LowestInvalid x f := by
    simp [find?_allFields_eq_some_iff, LowestInvalid]
  simp only [← hfind]
  unfold checkValid
  split <;> simp [*, eq_comm]

/-- An encoder fails exactly when every register is written and one is invalid, and it names the lowest (R134). -/
theorem encodeConfig_eq_raise_iff {kind : ErrorKind} {info : Byte} :
    encodeConfig h s = .error (.raise kind info) ↔
      (∀ f, (s.x.get f).written = true) ∧ ∃ f, LowestInvalid s.x f ∧ kind = .invalidField ∧ info = fieldInfo f := by
  simp only [encodeConfig, Check.bind_eq_error]
  constructor
  · rintro (hw | ⟨⟨⟩, hw, hv | ⟨⟨⟩, -, hr⟩⟩)
    · obtain ⟨f, -, hstop⟩ := checkWritten_eq_error hw
      cases hstop
    · obtain ⟨f, hf, hstop⟩ := checkValid_eq_error_iff.1 hv
      cases hstop
      exact ⟨checkWritten_eq_ok.1 hw, f, hf, rfl, rfl⟩
    · cases hr
  · rintro ⟨hw, f, hf, rfl, rfl⟩
    exact .inr ⟨(), checkWritten_eq_ok.2 hw, .inl (checkValid_eq_error_iff.2 ⟨f, hf, rfl⟩)⟩

/-! ### The decoder -/

/-- `FB` holds the frame of `f` after the three bytes, as `RDEC` reads it. -/
def FrameHeld (s : State) (h sr rc : Byte) (f : FrameFields) : Prop :=
  s.flen = 12 ∧ Memory.readList s.fb 0 12 = some (h :: sr :: rc :: frameBody f)

/-- The state after `RDEC` read the frame (R140). -/
def State.decoded (h sr rc : Byte) (f : FrameFields) (s : State) : State :=
  { s with
    x := configOf f
    cmd := Reg.of h
    sreg := Reg.of sr
    dlen := Reg.of rc
    status := statusOk
    einfo := infoNone }

/-- `RDEC` on a written buffer is its checks and results on the buffer's bytes. -/
theorem exec_rdec_of_read {bytes : List Byte} (hr : Memory.readList s.fb 0 s.flen = some bytes) :
    exec .rdec s = settle s (decodeConfig bytes s) := by
  have hb : readBuffer .fb s.fb s.flen = .ok bytes := readBuffer_eq_ok.2 hr
  simp only [exec, execRdec, hb, Check.bind_ok]

/-- The twelve bytes of a frame, below `FLEN`. -/
theorem exec_rdec_of_twelve {bytes : List Byte} (hl : s.flen = 12) (hr : Memory.readList s.fb 0 12 = some bytes) :
    exec .rdec s = settle s (decodeConfig bytes s) :=
  exec_rdec_of_read (by rwa [hl])

/-- The bytes of a frame with a known header and a channel in its domain give its configuration (R140). -/
theorem decodeConfig_frame (sr rc : Byte) (s : State) (hh : isHeader h = true) (hf : f.wf = true) :
    decodeConfig (h :: sr :: rc :: frameBody f) s =
      .ok { s with x := configOf f, cmd := Reg.of h, sreg := Reg.of sr, dlen := Reg.of rc } := by
  obtain ⟨-, -, -, hreserved⟩ := reg7_fields f.packet f.noise f.power
  refine decodeConfig_eq_ok.2 ⟨h, sr, rc, _, _, _, _, _, _, _, _, _, rfl, hh, hreserved, of_decide_eq_true hf, ?_⟩
  rw [unpack_pack]

/-- A held frame with a known header and a channel in its domain is decoded. -/
theorem exec_rdec_of_frameHeld (hb : FrameHeld s h sr rc f) (hh : isHeader h = true) (hf : f.wf = true) :
    exec .rdec s = .next (s.decoded h sr rc f) := by
  obtain ⟨hl, hr⟩ := hb
  rw [exec_rdec_of_twelve hl hr, decodeConfig_frame sr rc s hh hf]
  rfl

/-- What `RDEC` accepts is a held frame with a known header and a channel in its domain. -/
theorem frameHeld_of_exec_rdec (he : exec .rdec s = .next t) (ht : t.status = 0x00#8) :
    ∃ h sr rc f, FrameHeld s h sr rc f ∧ isHeader h = true ∧ f.wf = true ∧ t = s.decoded h sr rc f := by
  rcases settle_next he with ⟨u, hu, rfl⟩ | ⟨kind, info, -, rfl⟩
  · obtain ⟨bytes, hb, hd⟩ := Check.bind_eq_ok.1 hu
    obtain ⟨h, sr, rc, ah, al, n, r6, r7, c, r9, kh, kl, rfl, hh, hreserved, hc, rfl⟩ := decodeConfig_eq_ok.1 hd
    have hr := readBuffer_eq_ok.1 hb
    have hl : 12 = s.flen := Memory.readList_length hr
    refine ⟨h, sr, rc, unpackFields ah al n r6 r7 c r9 kh kl, ⟨hl.symm, ?_⟩, hh, decide_eq_true hc, rfl⟩
    rw [frameBody_unpackFields _ _ _ _ _ _ _ _ _ hreserved, hl, hr]
  · exact absurd ht (ErrorKind.code_ne_ok kind)

/-- Twelve bytes with clear reserved bits are a held frame. -/
theorem frameHeld_unpackFields {ah al n r6 r7 c r9 kh kl : Byte} (hl : s.flen = 12)
    (hr : Memory.readList s.fb 0 12 = some [h, sr, rc, ah, al, n, r6, r7, c, r9, kh, kl]) (h7 : reg7Reserved r7 = 0#3) :
    FrameHeld s h sr rc (unpackFields ah al n r6 r7 c r9 kh kl) :=
  ⟨hl, by rw [hr, frameBody_unpackFields _ _ _ _ _ _ _ _ _ h7]⟩

/-- Every code of the frame has its word. -/
theorem c2v_of_code_eq (f : TableField) {c : BitVec (codeWidth f)} {b : Byte} (h : c.setWidth 8 = b) :
    c2v f b = some (wordOf f (c.setWidth 8)) := by
  rw [← h]
  exact (c2v_of_code f c).1

/-- A half word of two bytes, widened. -/
theorem setWidth_append (hi lo : Byte) : (hi ++ lo : BitVec 16).setWidth 32 = BitVec.ofNat 32 (hi.toNat * 256 + lo.toNat) := by
  rw [← append_toNat, BitVec.ofNat_toNat]

/-- An unknown header is reported whatever the eleven bytes after it are (R142). -/
theorem decodeConfig_unknownHeader {body : List Byte} (s : State) (hl : body.length = 11) (hh : isHeader h = false) :
    decodeConfig (h :: body) s = .error (.raise .unknownHeader h) := by
  match body, hl with
  | [_, _, _, _, _, _, _, _, _, _, _], _ => simp [decodeConfig, hh]

/-- With a known header, reserved bits of reg7 are reported before the channel (R143, R148). -/
theorem decodeConfig_reservedBits {ah al n r6 r7 c r9 kh kl : Byte} (s : State) (hh : isHeader h = true)
    (h7 : reg7Reserved r7 ≠ 0#3) :
    decodeConfig [h, sr, rc, ah, al, n, r6, r7, c, r9, kh, kl] s = .error (.raise .invalidField infoReservedBits) := by
  simp [decodeConfig, hh, h7]

/-- With a known header and clear reserved bits, a channel above 83 is reported (R145, R148). -/
theorem decodeConfig_channel {ah al n r6 r7 c r9 kh kl : Byte} (s : State) (hh : isHeader h = true)
    (h7 : reg7Reserved r7 = 0#3) (hc : 83#8 < c) :
    decodeConfig [h, sr, rc, ah, al, n, r6, r7, c, r9, kh, kl] s = .error (.raise .invalidField (fieldInfo .channel)) := by
  simp [decodeConfig, hh, h7, hc]

/-- `EINFO` of a frame of the wrong length (R27). -/
theorem infoLength_eq (n : Nat) : infoLength n = if n ≤ 255 then BitVec.ofNat 8 n else 0xFF#8 := by
  unfold infoLength
  split_ifs with hn
  · rw [Nat.min_eq_left hn]
  · rw [Nat.min_eq_right (Nat.le_of_not_le hn)]

/-- A byte that is none of the three headers is unknown. -/
theorem isHeader_eq_false (h2 : h ≠ 0xC2#8) (h1 : h ≠ 0xC1#8) (h0 : h ≠ 0xC0#8) : isHeader h = false := by
  simp [isHeader, h2, h1, h0]

/-- Twelve bytes with an unknown header end with `UnknownHeader` (R142). -/
theorem exec_rdec_unknownHeader {body : List Byte} (hl : s.flen = 12) (hr : Memory.readList s.fb 0 12 = some (h :: body))
    (hh : isHeader h = false) : exec .rdec s = .next { s with status := 0x03#8, einfo := h } := by
  have hlen : body.length = 11 := Nat.succ_inj.1 (Memory.readList_length hr)
  rw [exec_rdec_of_twelve hl hr, decodeConfig_unknownHeader s hlen hh]
  rfl

/-! ### Encoding and decoding undo each other -/

/-- After an encoder, `FB` holds the frame it wrote. -/
theorem frameHeld_encoded (header : Byte) (f : FrameFields) (s : State) :
    FrameHeld (s.encoded header f) header 0x00#8 0x09#8 f :=
  ⟨rfl, readList_encoded header f s⟩

/-- Encoding the frame that `FB` holds changes no byte of `FB`. -/
theorem read_encoded_of_frameHeld (hb : FrameHeld s header 0x00#8 0x09#8 f) (a : Nat) :
    Memory.read (s.encoded header f).fb a = Memory.read s.fb a := by
  obtain ⟨-, hr⟩ := hb
  exact Memory.read_writeList_self hr a

/-- `RDEC` leaves the frame in `FB`. -/
theorem FrameHeld.decoded {k sr' rc' : Byte} {g : FrameFields} (hb : FrameHeld s h sr rc f) :
    FrameHeld (s.decoded k sr' rc' g) h sr rc f := hb

/-- A valid configuration's channel is in the domain of the frame's. -/
theorem wf_frameOf {x : RegFile} (hv : ∀ f, valid f (x.get f).value = true) : (frameOf x).wf = true := by
  have hc : x.channel.value.toNat ≤ 83 := BitVec.le_def.1 (of_decide_eq_true (hv .channel))
  exact decide_eq_true (BitVec.le_def.2 ((toNat_setWidth_le x.channel.value 8).trans hc))

/-- After `RDEC`, an encoder writes the canonical frame of the fields that were read (R151). -/
theorem exec_encoder_decoded (hi : isEncoder i header) (hf : f.wf = true) :
    exec i (s.decoded h sr rc f) = .next ((s.decoded h sr rc f).encoded header (canonicalFields f)) := by
  rw [exec_encoder_valid hi (configOf_get_written f) (valid_configOf hf)]
  exact congrArg (fun g => Host.Outcome.next ((s.decoded h sr rc f).encoded header g)) (frameOf_configOf f)

/-- A frame whose parity bits are not 11 is canonical. -/
theorem canonicalFields_of_parity (hp : f.parity ≠ 3#2) : canonicalFields f = f := by
  rw [canonicalFields, canonicalParity, if_neg hp]

/-- The bytes of canonical fields are a canonical frame (R151). -/
theorem packFields_canonicalFields (header : Byte) (hf : f.wf = true) :
    ∃ ah al n r6 r7 c r9 kh kl : Byte,
      packFields header (canonicalFields f) = [header, 0x00#8, 0x09#8, ah, al, n, r6, r7, c, r9, kh, kl] ∧
      (r6 >>> 3) &&& 3#8 ≠ 3#8 ∧ (r7 >>> 2) &&& 7#8 = 0#8 ∧ c.toNat ≤ 83 := by
  obtain ⟨-, -, -, hreserved⟩ := reg7_fields f.packet f.noise f.power
  exact ⟨_, _, _, _, _, _, _, _, _, rfl, reg6_canonicalParity_ne f.baud f.parity f.air,
    (reg7Reserved_eq_zero_iff _).1 hreserved, channel_le_of_wf hf⟩

end RegisterUnit

/-! ### The statements -/

/-- Settles O16: the frame written is read back, and its bytes are `packFields_frameOf`. -/
theorem encodeConfigWritesFrame : Obligations.EncodeConfigWritesFrame := by
  intro i header s hi hw hv
  have hcode (f : TableField) := (v2c_of_valid (hv (tableField f))).1
  refine ⟨_, _, _, _, _, _, s.encoded header (frameOf s.x), hcode .baudRate, hcode .parity, hcode .airSpeed,
    hcode .packetLen, hcode .transmitPower, hcode .worPeriod, exec_encoder_valid hi hw hv, ?_, fun a ha => ?_, rfl⟩
  · rw [readList_encoded, packFields_frameOf hv]
    rfl
  · exact Memory.read_writeList_outside _ _ _ _ (.inr (by simpa using ha))

/-- Settles O17: both clauses are `encodeConfig_eq_raise_iff`, since an encoder that ends with a failure raised it. -/
theorem encodeConfigReportsLowestInvalidField : Obligations.EncodeConfigReportsLowestInvalidField := by
  refine ⟨fun i header s f hi hw hf hlow => ?_, fun i header s t hi h ht => ?_⟩
  · rw [exec_encoder hi, encodeConfig_eq_raise_iff.2 ⟨hw, f, ⟨hf, hlow⟩, rfl, rfl⟩]
    rfl
  · rw [exec_encoder hi] at h
    rcases settle_next h with ⟨u, -, rfl⟩ | ⟨kind, info, he, rfl⟩
    · exact absurd rfl ht
    · obtain ⟨-, f, ⟨hf, hlow⟩, -, rfl⟩ := encodeConfig_eq_raise_iff.1 he
      exact ⟨f, hf, rfl, hlow⟩

/-- Settles O18: the twelve bytes are a held frame, and R140's formulas are the widened fields. -/
theorem decodeConfigReadsFrame : Obligations.DecodeConfigReadsFrame := by
  intro s h sr rc ah al n r6 r7 c r9 kh kl hl hr hh h7 hc
  have hb := frameHeld_unpackFields hl hr ((reg7Reserved_eq_zero_iff r7).2 h7)
  have hexec := exec_rdec_of_frameHeld hb (isHeader_iff.2 hh) (decide_eq_true hc)
  obtain ⟨hbaud, hparity, hair, -, -⟩ := extract_code_eq r6
  obtain ⟨-, -, -, hpacket, hpower⟩ := extract_code_eq r7
  obtain ⟨-, -, hwor, -, -⟩ := extract_code_eq r9
  refine ⟨_, _, _, _, _, _, c2v_of_code_eq .baudRate hbaud, c2v_of_code_eq .parity hparity, c2v_of_code_eq .airSpeed hair,
    c2v_of_code_eq .packetLen hpacket, c2v_of_code_eq .transmitPower hpower, c2v_of_code_eq .worPeriod hwor, ?_⟩
  rw [hexec]
  simp only [← extract_flag_eq, ← setWidth_append, BitVec.ofNat_toNat]
  rfl

/-- Settles O19: one lemma for each check of R148, and `RDEC` ends with the first that fails. -/
theorem decodeConfigFailures : Obligations.DecodeConfigFailures := by
  refine ⟨fun s hw hl => ?_, fun s h sr rc ah al n r6 r7 c r9 kh kl hl hr =>
    ⟨fun h2 h1 h0 => exec_rdec_unknownHeader hl hr (isHeader_eq_false h2 h1 h0), fun hh h7 => ?_, fun hh h7 hc => ?_⟩⟩
  · obtain ⟨bytes, hr⟩ := Option.isSome_iff_exists.1 hw
    have hlen := Memory.readList_length hr
    rw [exec_rdec_of_read hr, decodeConfig_malformed s (hlen.trans_ne hl), hlen, infoLength_eq]
    rfl
  · rw [exec_rdec_of_twelve hl hr,
      decodeConfig_reservedBits s (isHeader_iff.2 hh) (mt (reg7Reserved_eq_zero_iff r7).1 h7)]
    rfl
  · rw [exec_rdec_of_twelve hl hr,
      decodeConfig_channel s (isHeader_iff.2 hh) ((reg7Reserved_eq_zero_iff r7).2 h7) (BitVec.lt_def.2 hc)]
    rfl

/-- Settles O20: what is accepted is a held frame, and the fields of a held frame do not depend on the header. -/
theorem headerDoesNotChangeFields : Obligations.HeaderDoesNotChangeFields := by
  refine ⟨fun s s' t h h' body hl hl' hr hr' he ht hh' => ?_, fun s h body hl hr h2 h1 h0 =>
    exec_rdec_unknownHeader hl hr (isHeader_eq_false h2 h1 h0)⟩
  obtain ⟨k, sr, rc, f, ⟨-, hf⟩, -, hwf, rfl⟩ := frameHeld_of_exec_rdec he ht
  cases hr.symm.trans hf
  exact ⟨_, exec_rdec_of_frameHeld ⟨hl', hr'⟩ (isHeader_iff.2 hh') hwf, rfl, rfl, rfl, rfl, rfl, rfl⟩

/-- Settles O21: `RDEC` reads the frame that the encoder wrote, which stands for the configuration (`configOf_frameOf`); so two
configurations with one frame are both what that frame decodes to. -/
theorem encodeThenDecodeConfig : Obligations.EncodeThenDecodeConfig := by
  refine ⟨fun i header s hi hw hv => ?_, fun i header s s' t t' hi hw hv hw' hv' he he' hfb => ?_⟩
  · exact ⟨_, _, exec_encoder_valid hi hw hv,
      exec_rdec_of_frameHeld (frameHeld_encoded header _ s) (isHeader_of_isEncoder hi) (wf_frameOf hv),
      rfl, configOf_frameOf hw hv, rfl, rfl, rfl⟩
  · cases (exec_encoder_valid hi hw hv).symm.trans he
    cases (exec_encoder_valid hi hw' hv').symm.trans he'
    rw [readList_encoded, readList_encoded, Option.some_inj, packFields_eq_cons, packFields_eq_cons] at hfb
    have hdec := decodeConfig_frame 0x00#8 0x09#8 s (isHeader_of_isEncoder hi) (wf_frameOf hv)
    have hdec' := decodeConfig_frame 0x00#8 0x09#8 s (isHeader_of_isEncoder hi) (wf_frameOf hv')
    rw [hfb] at hdec
    have hx : configOf (frameOf s.x) = configOf (frameOf s'.x) := congrArg State.x (Except.ok.inj (hdec.symm.trans hdec'))
    rwa [configOf_frameOf hw hv, configOf_frameOf hw' hv'] at hx

/-- Settles O22: the fields of a canonical frame are canonical, so the encoder writes back the bytes that `FB` holds. -/
theorem decodeThenEncodeCanonicalFrame : Obligations.DecodeThenEncodeCanonicalFrame := by
  intro i header s ah al n r6 r7 c r9 kh kl hi hl hr hp h7 hc
  have hb := frameHeld_unpackFields hl hr ((reg7Reserved_eq_zero_iff r7).2 h7)
  have hwf : (unpackFields ah al n r6 r7 c r9 kh kl).wf = true := decide_eq_true hc
  have hcanonical := canonicalFields_of_parity (f := unpackFields ah al n r6 r7 c r9 kh kl)
    (mt (reg6_parity_eq_three_iff r6).1 hp)
  refine ⟨_, _, exec_rdec_of_frameHeld hb (isHeader_of_isEncoder hi) hwf, rfl, rfl, exec_encoder_decoded hi hwf, rfl, rfl, ?_⟩
  rw [hcanonical]
  exact read_encoded_of_frameHeld hb.decoded

/-- Settles O23: the bytes are those of the fields that were read, and the canonical fields differ in reg6 only
(`reg6_canonicalParity`). -/
theorem reencodedAcceptedFrame : Obligations.ReencodedAcceptedFrame := by
  intro i header s t h sr rc ah al n r6 r7 c r9 kh kl hi hl hr he ht
  obtain ⟨h, sr, rc, f, ⟨-, hf⟩, -, hwf, rfl⟩ := frameHeld_of_exec_rdec he ht
  cases hr.symm.trans hf
  refine ⟨_, exec_encoder_decoded hi hwf, rfl, ?_⟩
  rw [readList_encoded, ← reg6_canonicalParity]
  rfl

/-- Settles O24: the second `RDEC` reads the canonical frame, which stands for the same configuration
(`configOf_canonicalFields`) and is its own canonical frame. -/
theorem decodeEncodeDecodeIsDecode : Obligations.DecodeEncodeDecodeIsDecode := by
  intro i header s t hi he ht
  obtain ⟨h, sr, rc, f, -, -, hwf, rfl⟩ := frameHeld_of_exec_rdec he ht
  have hu := exec_encoder_decoded (s := s) (h := h) (sr := sr) (rc := rc) hi hwf
  have hb := frameHeld_encoded header (canonicalFields f) (s.decoded h sr rc f)
  have hv := exec_rdec_of_frameHeld hb (isHeader_of_isEncoder hi) (canonicalFields_wf hwf)
  refine ⟨_, _, _, hu, hv, rfl, configOf_canonicalFields f, ?_, exec_encoder_decoded hi (canonicalFields_wf hwf), rfl, ?_⟩
  · obtain ⟨ah, al, n, r6, r7, c, r9, kh, kl, hbytes, h6, h7, hc⟩ := packFields_canonicalFields header hwf
    exact ⟨ah, al, n, r6, r7, c, r9, kh, kl, by rw [readList_encoded, hbytes], h6, h7, hc⟩
  · rw [canonicalFields_idem]
    exact read_encoded_of_frameHeld hb.decoded

end Sys2Proof.Machine
end

section
/-! PROOFS. The field enumerations and the lookups (41_field_enumerations.md): both table directions are membership in the rows of
R171 to R176, and each `ELUT` operation is one of three ends over its table (R187, R188). -/

namespace Sys2Proof.Machine

/-! ### The tables as their rows -/

/-- The code that a code stands for: itself, but 0 for parity code 3, which has the word of code 0 (R172, R180 (f)). -/
def canonicalCode (f : TableField) (c : Byte) : Byte := if f = .parity ∧ c = 3#8 then 0#8 else c

/-- Codes are 0-indexed in the order of the rows, and there is one for each number of the field's width (R170, R180 (d)). -/
theorem row_codes_eq_range (f : TableField) :
    (tableRows f).map (fun r => r.code.toNat) = List.range (2 ^ codeWidth f) := by
  cases f <;> rfl

/-- Every row gives its word backward, and that word gives the row's canonical code forward. -/
theorem lookups_of_row (f : TableField) : ∀ r ∈ tableRows f,
    c2v f r.code = some r.word ∧ v2c f r.word = some (canonicalCode f r.code) := by
  cases f <;> decide

/-- The one row of a single direction is that of parity code 3 (R172). -/
theorem backward_row (f : TableField) : ∀ r ∈ tableRows f,
    r.forward = false → f = .parity ∧ r.code = 3#8 ∧ r.word = 0x00384E31#32 := by
  cases f <;> decide

/-- What `v2c` answers stands in a row that maps value to code, and every such row is answered (R178). -/
theorem v2c_eq_some_iff {f : TableField} {w : Word} {c : Byte} :
    v2c f w = some c ↔ ∃ r ∈ tableRows f, r.forward = true ∧ r.word = w ∧ r.code = c := by
  constructor
  · intro h
    obtain ⟨r, hr, rfl⟩ := Option.map_eq_some_iff.1 h
    have hp : r.forward = true ∧ r.word = w := by simpa using List.find?_some hr
    exact ⟨r, List.mem_of_find?_eq_some hr, hp.1, hp.2, rfl⟩
  · rintro ⟨r, hr, hforward, rfl, rfl⟩
    exact (lookups_of_forward_row f r hr hforward).1

/-- What `c2v` answers stands in a row of the code, and every row is answered (R179). -/
theorem c2v_eq_some_iff {f : TableField} {w : Word} {c : Byte} :
    c2v f c = some w ↔ ∃ r ∈ tableRows f, r.code = c ∧ r.word = w := by
  constructor
  · intro h
    obtain ⟨r, hr, rfl⟩ := Option.map_eq_some_iff.1 h
    exact ⟨r, List.mem_of_find?_eq_some hr, by simpa using List.find?_some hr, rfl⟩
  · rintro ⟨r, hr, rfl, rfl⟩
    exact (lookups_of_row f r hr).1

/-- The listed rows are those that map both ways. -/
theorem mem_listedRows_iff {f : TableField} {w : Word} {c : Byte} :
    (w, c) ∈ listedRows f ↔ ∃ r ∈ tableRows f, r.forward = true ∧ r.word = w ∧ r.code = c := by
  have hrows : listedRows f = ((tableRows f).filter TableRow.forward).map (fun r => (r.word, r.code)) := by
    cases f <;> rfl
  simp only [hrows, List.mem_map, List.mem_filter, Prod.mk.injEq, and_assoc]

/-! ### Where the two directions are defined, and that they undo each other -/

/-- A word without a code is not in the field's domain. -/
theorem v2c_eq_none_of_invalid {f : TableField} {w : Word} (h : valid (tableField f) w = false) : v2c f w = none := by
  rw [valid_tableField, List.contains_eq_mem, decide_eq_false_iff_not] at h
  refine Option.eq_none_iff_forall_ne_some.2 fun c hc => h ?_
  obtain ⟨r, hr, hforward, hword, -⟩ := v2c_eq_some_iff.1 hc
  exact List.mem_map.2 ⟨r, List.mem_filter.2 ⟨hr, hforward⟩, hword⟩

/-- `v2c` is defined on the field's domain (R178). -/
theorem isSome_v2c (f : TableField) (w : Word) : (v2c f w).isSome = valid (tableField f) w := by
  cases h : valid (tableField f) w with
  | true => rw [(v2c_of_valid h).1, Option.isSome_some]
  | false => rw [v2c_eq_none_of_invalid h, Option.isSome_none]

/-- A code that `v2c` answers fits the field's width (R180 (a)). -/
theorem code_lt_of_v2c {f : TableField} {w : Word} {c : Byte} (h : v2c f w = some c) : c.toNat < 2 ^ codeWidth f := by
  obtain ⟨r, hr, hforward, -, rfl⟩ := v2c_eq_some_iff.1 h
  exact (lookups_of_forward_row f r hr hforward).2.2

/-- `c2v` is defined on the codes of the field's width (R180 (d)). -/
theorem isSome_c2v_iff {f : TableField} {c : Byte} : (c2v f c).isSome = true ↔ c.toNat < 2 ^ codeWidth f := by
  rw [← List.mem_range, ← row_codes_eq_range, List.mem_map, Option.isSome_iff_exists]
  constructor
  · rintro ⟨w, h⟩
    obtain ⟨r, hr, rfl, -⟩ := c2v_eq_some_iff.1 h
    exact ⟨r, hr, rfl⟩
  · rintro ⟨r, hr, hc⟩
    exact ⟨r.word, c2v_eq_some_iff.2 ⟨r, hr, BitVec.eq_of_toNat_eq hc, rfl⟩⟩

/-- The code of a word gives the word back (R180 (e)). -/
theorem c2v_of_v2c {f : TableField} {w : Word} {c : Byte} (h : v2c f w = some c) : c2v f c = some w := by
  obtain ⟨r, hr, -, hword, hcode⟩ := v2c_eq_some_iff.1 h
  exact c2v_eq_some_iff.2 ⟨r, hr, hcode, hword⟩

/-- The word of a code gives the canonical code (R180 (f)). -/
theorem v2c_of_c2v {f : TableField} {w : Word} {c : Byte} (h : c2v f c = some w) :
    v2c f w = some (canonicalCode f c) := by
  obtain ⟨r, hr, rfl, rfl⟩ := c2v_eq_some_iff.1 h
  exact (lookups_of_row f r hr).2

/-- The forward mapping never gives parity code 3 (R172): a code that it gives is canonical. -/
theorem v2c_parity_ne_three {w : Word} {c : Byte} (h : v2c .parity w = some c) : c ≠ 3#8 := by
  rintro rfl
  have h0 : some (3#8 : Byte) = some 0#8 := h.symm.trans (v2c_of_c2v (c2v_of_v2c h))
  exact absurd h0 (by decide)

/-! ### The ends of a lookup -/

section Lookup

variable {f : TableField} {s : State}

/-- `ELUT.V2C f` is one end of the body that the six operations share. -/
theorem exec_elutV2c (f : TableField) (s : State) : exec (elutV2c f) s = settle s (lookupCodeBody f s) := by
  cases f <;> rfl

/-- `ELUT.C2V f` is one end of the body that the six operations share. -/
theorem exec_elutC2v (f : TableField) (s : State) : exec (elutC2v f) s = settle s (lookupWordBody f s) := by
  cases f <;> rfl

theorem exec_elutV2c_unwritten (hw : s.lv.written = false) :
    exec (elutV2c f) s = .refused (.unwrittenRegister .lv) := by
  rw [exec_elutV2c, lookupCodeBody, Reg.read_eq_error.2 ⟨hw, rfl⟩]
  rfl

theorem exec_elutV2c_of_some {c : Byte} (hw : s.lv.written = true) (hc : v2c f s.lv.value = some c) :
    exec (elutV2c f) s = .next { s with lc := Reg.of c, status := statusOk, einfo := infoNone } := by
  rw [exec_elutV2c, lookupCodeBody_eq_ok.2 ⟨hw, c, hc, rfl⟩, settle_ok]

theorem exec_elutV2c_of_none (hw : s.lv.written = true) (hc : v2c f s.lv.value = none) :
    exec (elutV2c f) s =
      .next { s with status := ErrorKind.invalidField.code, einfo := fieldInfo (tableField f) } := by
  rw [exec_elutV2c, lookupCodeBody, Reg.read_eq_ok.2 ⟨hw, rfl⟩, Check.bind_ok, hc, settle_raise]

theorem exec_elutC2v_unwritten (hw : s.lc.written = false) :
    exec (elutC2v f) s = .refused (.unwrittenRegister .lc) := by
  rw [exec_elutC2v, lookupWordBody, Reg.read_eq_error.2 ⟨hw, rfl⟩]
  rfl

theorem exec_elutC2v_of_some {w : Word} (hw : s.lc.written = true) (hc : c2v f s.lc.value = some w) :
    exec (elutC2v f) s = .next { s with lv := Reg.of w, status := statusOk, einfo := infoNone } := by
  rw [exec_elutC2v, lookupWordBody_eq_ok.2 ⟨hw, w, hc, rfl⟩, settle_ok]

theorem exec_elutC2v_of_none (hw : s.lc.written = true) (hc : c2v f s.lc.value = none) :
    exec (elutC2v f) s =
      .next { s with status := ErrorKind.invalidField.code, einfo := fieldInfo (tableField f) } := by
  rw [exec_elutC2v, lookupWordBody, Reg.read_eq_ok.2 ⟨hw, rfl⟩, Check.bind_ok, hc, settle_raise]

end Lookup

/-! ### The statements -/

/-- Settles O10: the domain by `isSome_v2c`, the width by `code_lt_of_v2c`. -/
theorem codeDefinedIffValid : Obligations.CodeDefinedIffValid :=
  fun f w => ⟨isSome_v2c f w, fun _ => code_lt_of_v2c⟩

/-- Settles O11: where `c2v` is defined, and each direction after the other. -/
theorem tablesUndoEachOther : Obligations.TablesUndoEachOther :=
  ⟨fun _ _ => Bool.eq_iff_iff.2 (isSome_c2v_iff.trans decide_eq_true_iff.symm), fun _ _ _ => c2v_of_v2c,
    fun _ _ _ => v2c_of_c2v⟩

/-- Settles O12: both directions are membership in the rows; a row of one direction only is that of parity code 3. -/
theorem fieldTableRows : Obligations.FieldTableRows := by
  refine ⟨fun f w c => ⟨v2c_eq_some_iff.trans mem_listedRows_iff.symm, fun h => ?_, fun h => ?_⟩, by simp [listedRows]⟩
  · obtain ⟨r, hr, rfl, rfl⟩ := c2v_eq_some_iff.1 h
    cases hforward : r.forward with
    | true => exact .inl (mem_listedRows_iff.2 ⟨r, hr, hforward, rfl, rfl⟩)
    | false => exact .inr (backward_row f r hr hforward)
  · rcases h with h | ⟨rfl, rfl, rfl⟩
    · exact c2v_of_v2c (v2c_eq_some_iff.2 (mem_listedRows_iff.1 h))
    · rfl

/-- Settles O13: a valid `LV` has a code (`v2c_of_valid`), and any other has none. -/
theorem lookupCodeRule : Obligations.LookupCodeRule := by
  refine fun f s => ⟨exec_elutV2c_unwritten, fun hw hv => ?_, fun hw hv => ?_⟩
  · obtain ⟨hcode, hword, hlt⟩ := v2c_of_valid hv
    refine ⟨_, hcode, hword, hlt, ?_, exec_elutV2c_of_some hw hcode⟩
    rintro rfl
    exact v2c_parity_ne_three hcode
  · exact exec_elutV2c_of_none hw (v2c_eq_none_of_invalid hv)

/-- Settles O14: a code has a word exactly when it fits the field's width (`isSome_c2v_iff`). -/
theorem lookupWordRule : Obligations.LookupWordRule := by
  refine fun f s => ⟨exec_elutC2v_unwritten, fun hw hlt => ?_, fun hw hle => ?_⟩
  · obtain ⟨w, hword⟩ := Option.isSome_iff_exists.1 (isSome_c2v_iff.2 hlt)
    have hcode := v2c_of_c2v hword
    refine ⟨w, hword, ?_, hcode, ?_, exec_elutC2v_of_some hw hword⟩
    · rw [← isSome_v2c, hcode, Option.isSome_some]
    · rintro rfl hthree
      rw [hthree] at hword
      exact (Option.some.inj hword).symm
  · exact exec_elutC2v_of_none hw (Option.not_isSome_iff_eq_none.1 (mt isSome_c2v_iff.1 (Nat.not_lt.2 hle)))

/-- Settles O15: the second lookup finds the register that the first one wrote, and the tables undo each other
(`c2v_of_v2c`, `v2c_of_c2v`). -/
theorem lookupRoundTrip : Obligations.LookupRoundTrip := by
  refine ⟨fun f s hw hv => ?_, fun f s hw hlt => ?_⟩
  · obtain ⟨hcode, hword, -⟩ := v2c_of_valid hv
    exact ⟨_, _, exec_elutV2c_of_some hw hcode, exec_elutC2v_of_some rfl hword, rfl, (Reg.eq_of_written hw).symm⟩
  · obtain ⟨w, hword⟩ := Option.isSome_iff_exists.1 (isSome_c2v_iff.2 hlt)
    refine ⟨_, _, exec_elutC2v_of_some hw hword, exec_elutV2c_of_some rfl (v2c_of_c2v hword), rfl, ?_⟩
    change Reg.of (canonicalCode f s.lc.value) = _
    rw [canonicalCode]
    split_ifs
    · rfl
    · exact (Reg.eq_of_written hw).symm

end Sys2Proof.Machine
end

section
/-! PROOFS. The content codecs both ways (43_content_codecs.md): text by the rows of R232, an element and a vector by the four
bytes of R240 and R241. -/

namespace Sys2Proof.Machine

/-! ### Text -/

/-- A string of scalar values is what its encoding decodes to (R233). -/
theorem unutf8_flatMap_utf8 {cps : List Word} (h : ∀ c ∈ cps, scalar c = true) : unutf8 (cps.flatMap utf8) = some cps := by
  induction cps with
  | nil => simp [unutf8]
  | cons c cs ih =>
    obtain ⟨hc, hcs⟩ := List.forall_mem_cons.1 h
    rw [List.flatMap_cons, unutf8_utf8_append hc, ih hcs, Option.map_some]

/-- The bytes are the encoding of the string, and the string holds scalar values only. -/
def EncodesText (cps : List Word) (bytes : List Byte) : Prop :=
  cps.flatMap utf8 = bytes ∧ ∀ c ∈ cps, scalar c = true

/-- A row of R232 before an encoding is the encoding of one more scalar value. -/
theorem encodesText_of_row {o : Option (List Word)} {row rest : List Byte} {c : Word} {cps : List Word}
    (hrow : utf8 c = row ∧ scalar c = true) (ih : ∀ {l}, o = some l → EncodesText l rest)
    (h : o.map (fun l => c :: l) = some cps) : EncodesText cps (row ++ rest) := by
  obtain ⟨l, hl, rfl⟩ := Option.map_eq_some_iff.1 h
  obtain ⟨hbytes, hscalar⟩ := ih hl
  obtain ⟨hutf8, hc⟩ := hrow
  exact ⟨by rw [List.flatMap_cons, hutf8, hbytes], List.forall_mem_cons.2 ⟨hc, hscalar⟩⟩

/-- What decodes is the encoding of what it decodes to (R233). -/
theorem encodesText_of_unutf8 {bytes : List Byte} {cps : List Word} (h : unutf8 bytes = some cps) :
    EncodesText cps bytes := by
  fun_induction unutf8 bytes generalizing cps with
  | case1 =>
    cases h
    exact ⟨rfl, by simp⟩
  | case2 b1 r1 h1 ih => exact encodesText_of_row (utf8_scalar1 h1) ih h
  | case4 b1 h1 b2 r2 h2 ih => exact encodesText_of_row (utf8_scalar2 h2) ih h
  | case6 b1 h1 b2 h2 b3 r3 h3 ih => exact encodesText_of_row (utf8_scalar3 h3) ih h
  | case8 b1 h1 b2 h2 b3 h3 b4 r4 h4 ih => exact encodesText_of_row (utf8_scalar4 h4) ih h
  | case3 => cases h
  | case5 => cases h
  | case7 => cases h
  | case9 => cases h

/-- Bytes that are the encoding of no string do not decode. -/
theorem unutf8_eq_none {bytes : List Byte} (h : ∀ cps : List Word, (∀ c ∈ cps, scalar c = true) → cps.flatMap utf8 ≠ bytes) :
    unutf8 bytes = none := by
  refine Option.eq_none_iff_forall_ne_some.2 fun cps hcps => ?_
  obtain ⟨hbytes, hscalar⟩ := encodesText_of_unutf8 hcps
  exact h cps hscalar hbytes

/-- An element that is no scalar value fails the encoding (R204). -/
theorem textBytes_of_nonScalar {cps : List Word} (h : ∃ c ∈ cps, scalar c = false) :
    textBytes cps = .error (.raise .invalidField infoNonScalar) := by
  obtain ⟨c, hc, hn⟩ := h
  cases ht : textBytes cps with
  | ok body => exact absurd ((textBytes_eq_ok.1 ht).1 c hc) (by rw [hn]; decide)
  | error e => rw [textBytes_eq_error ht]

/-! ### Vectors -/

/-- A word gives each of its four bytes back. -/
theorem extract_of_four_bytes (b3 b2 b1 b0 : Byte) :
    (b3 ++ b2 ++ b1 ++ b0 : BitVec 32).extractLsb' 0 8 = b0 ∧ (b3 ++ b2 ++ b1 ++ b0 : BitVec 32).extractLsb' 8 8 = b1 ∧
    (b3 ++ b2 ++ b1 ++ b0 : BitVec 32).extractLsb' 16 8 = b2 ∧ (b3 ++ b2 ++ b1 ++ b0 : BitVec 32).extractLsb' 24 8 = b3 := by
  have h0 := b0.isLt
  have h1 := b1.isLt
  have h2 := b2.isLt
  have h3 := b3.isLt
  simp only [← BitVec.toNat_inj, toNat_extract_div, toNat_append_mul]
  omega

/-- A word is its four bytes. -/
theorem four_bytes_of_extract (w : Word) :
    (w.extractLsb' 24 8 ++ w.extractLsb' 16 8 ++ w.extractLsb' 8 8 ++ w.extractLsb' 0 8 : BitVec 32) = w := by
  have hw := w.isLt
  simp only [← BitVec.toNat_inj, toNat_extract_div, toNat_append_mul]
  omega

/-- The bytes of an element rebuild it (R241). -/
theorem fword_eq_of_fbytes {o : ByteOrder} {w : Word} {b0 b1 b2 b3 : Byte} (h : fbytes o w = [b0, b1, b2, b3]) :
    fword o b0 b1 b2 b3 = w := by
  cases o with
  | little | big =>
    cases h
    exact four_bytes_of_extract w

/-- An element gives its bytes back (R241). -/
theorem fbytes_fword (o : ByteOrder) (b0 b1 b2 b3 : Byte) : fbytes o (fword o b0 b1 b2 b3) = [b0, b1, b2, b3] := by
  cases o with
  | little =>
    obtain ⟨e0, e1, e2, e3⟩ := extract_of_four_bytes b3 b2 b1 b0
    simp only [fbytes, fword, e0, e1, e2, e3]
  | big =>
    obtain ⟨e3, e2, e1, e0⟩ := extract_of_four_bytes b0 b1 b2 b3
    simp only [fbytes, fword, e0, e1, e2, e3]

/-- A vector is what its bytes stand for. -/
@[simp] theorem vectorWords_vectorBytes (o : ByteOrder) (ws : List Word) : vectorWords o (vectorBytes o ws) = ws := by
  induction ws with
  | nil => rfl
  | cons w ws ih =>
    match hb : fbytes o w, fbytes_length o w with
    | [b0, b1, b2, b3], _ =>
      rw [vectorBytes, hb]
      exact congrArg₂ List.cons (fword_eq_of_fbytes hb) ih

/-- Bytes in groups of four are those of the vector that they stand for. -/
theorem vectorBytes_vectorWords (o : ByteOrder) : ∀ {bytes : List Byte}, bytes.length % 4 = 0 →
    vectorBytes o (vectorWords o bytes) = bytes
  | [], _ => rfl
  | b0 :: b1 :: b2 :: b3 :: rest, h => by
    have hrest : rest.length % 4 = 0 := (Nat.add_mod_right rest.length 4).symm.trans h
    rw [vectorWords, vectorBytes, fbytes_fword, vectorBytes_vectorWords o hrest]
    rfl

end Sys2Proof.Machine
end

section
/-! PROOFS. The message envelope unit (42_message_codec.md): what the encoders write and the decoders read, how they fail, and that
encoding and decoding undo each other. -/

namespace Sys2Proof.Machine

section MessageUnit

variable {p : Params} {s t u : State} {topic lo hi : Byte} {rest : List Byte}

/-! ### The end of an operation -/

/-- An operation whose checks pass ends `OK` with its results. -/
theorem settle_of_ok {r : Check State} (h : r = .ok u) : settle s r = .next (u.withOutcome statusOk infoNone) := by
  rw [h]
  rfl

/-- An operation that raises ends with the error, and writes nothing else (60_exceptions.md R266). -/
theorem settle_of_raise {r : Check State} {kind : ErrorKind} {info : Byte} (h : r = .error (.raise kind info)) :
    settle s r = .next { s with status := kind.code, einfo := info } := by
  rw [h]
  rfl

/-- An operation that ends `OK` has its results. -/
theorem ok_of_settle_ok {r : Check State} (h : settle s r = .next t) (ht : t.status = 0x00#8) :
    ∃ u, r = .ok u ∧ t = u.withOutcome statusOk infoNone := by
  rcases settle_next h with hu | ⟨kind, info, -, rfl⟩
  · exact hu
  · exact absurd ht (ErrorKind.code_ne_ok kind)

/-- The outcome of an operation does not depend on the last one: `STATUS` and `EINFO` are not read (`opBody_withOutcome`), and both
are written. -/
theorem exec_withOutcome {i : Instr} (hi : i ∈ operations) (status einfo : Byte) (s : State) :
    exec i (s.withOutcome status einfo) = exec i s := by
  rw [exec_eq_settle hi, exec_eq_settle hi, opBody_withOutcome _ _ _ hi]
  match opBody i s with
  | .ok u => rfl
  | .error (.raise kind info) => rfl
  | .error (.refuse why) => rfl

/-! ### Heads -/

theorem isTopic_eq_false_iff {b : Byte} : isTopic p b = false ↔ b = 0#8 ∨ p.topicCount < b.toNat := by
  simp [isTopic, or_iff_not_imp_left]

/-- With its operands ready `ENC_HEAD` emits the three bytes (R201). -/
theorem encHead_of_headReady (h : HeadReady p s) : encHead p s = .ok (headBytes s.topic.value s.sender.value) := by
  obtain ⟨ht, hs, htopic⟩ := h
  exact encHead_eq_ok.2 ⟨ht, hs, isTopic_iff.2 htopic, by rw [headBytes, extract_low_eq, extract_high_eq]⟩

/-- A topic that is not enumerated fails `ENC_HEAD` (R201). -/
theorem encHead_of_badTopic (ht : s.topic.written = true) (hs : s.sender.written = true)
    (hbad : s.topic.value = 0#8 ∨ p.topicCount < s.topic.value.toNat) :
    encHead p s = .error (.raise .invalidField infoTopic) := by
  simp only [encHead, Reg.read_written ht, Reg.read_written hs, Check.bind_ok, isTopic_eq_false_iff.2 hbad, Bool.not_false,
    if_true]

/-- `DEC_HEAD` on the bytes of a written `MB`. -/
theorem decHead_of_read {bytes : List Byte} (hr : Memory.readList s.mb 0 s.mlen = some bytes) :
    decHead p s = splitHead p bytes := by
  rw [decHead, readBuffer_eq_ok.2 hr, Check.bind_ok]

/-- `DEC_HEAD` of a held message (R202). -/
theorem decHead_of_messageHeld (h : MessageHeld s topic lo hi rest) :
    decHead Config.params s = .ok { topic := topic, sender := hi ++ lo, rest := rest } := by
  obtain ⟨hr, htopic⟩ := h
  exact decHead_eq_ok.2 ⟨topic, lo, hi, rest, hr, isTopic_iff.2 htopic, rfl⟩

/-- Fewer than three bytes fail `DEC_HEAD` (R202). -/
theorem splitHead_of_short {bytes : List Byte} (h : bytes.length < 3) :
    splitHead p bytes = .error (.raise .deserializeError infoShort) := by
  match bytes, h with
  | [], _ => rfl
  | [_], _ => rfl
  | [_, _], _ => rfl

/-- A topic byte that is not enumerated fails `DEC_HEAD` (R202). -/
theorem splitHead_of_badTopic {bytes : List Byte} (hlen : 3 ≤ bytes.length) (ht : bytes.head? = some topic)
    (hbad : topic = 0#8 ∨ p.topicCount < topic.toNat) :
    splitHead p bytes = .error (.raise .deserializeError infoUnknownTopic) := by
  match bytes, hlen with
  | b :: _ :: _ :: _, _ =>
    cases ht
    simp only [splitHead, isTopic_eq_false_iff.2 hbad, Bool.not_false, if_true]

/-- A message whose head fails ends each of the four decoders so; `MDEC.VN` looks at `NEXP` first. -/
theorem opBody_of_decHead_error {i : Instr} {e : Stop}
    (hi : i = .mdecT ∨ i = .mdecB ∨ i = .mdecV ∨ (i = .mdecVn ∧ s.nexp.written = true))
    (h : decHead Config.params s = .error e) : opBody i s = .error e := by
  rcases hi with rfl | rfl | rfl | ⟨rfl, hn⟩
  · rw [opBody, decodeText, h, Check.bind_error]
  · rw [opBody, decodeBlob, h, Check.bind_error]
  · rw [opBody, decodeVector, h, Check.bind_error]
  · rw [opBody, decodeVectorN, Reg.read_written hn, Check.bind_ok, h, Check.bind_error]

/-- An encoder whose head fails ends so, whatever the content is. -/
theorem opBody_of_encHead_error {i : Instr} {e : Stop} (hi : i = .mencT ∨ i = .mencB ∨ i = .mencV)
    (h : encHead Config.params s = .error e) : opBody i s = .error e := by
  rcases hi with rfl | rfl | rfl
  · rw [opBody, encodeText, h, Check.bind_error]
  · rw [opBody, encodeBlob, h, Check.bind_error]
  · rw [opBody, encodeVector, h, Check.bind_error]

/-! ### Contents that fail -/

/-- With a good head an element that is no scalar value fails `MENC.T` (R204). -/
theorem encodeText_of_nonScalar {cps : List Word} (hh : HeadReady p s) (hr : Memory.readList s.wb 0 s.wlen = some cps)
    (hn : ∃ c ∈ cps, scalar c = false) : encodeText p s = .error (.raise .invalidField infoNonScalar) := by
  rw [encodeText, encHead_of_headReady hh, Check.bind_ok, readBuffer_eq_ok.2 hr, Check.bind_ok, textBytes_of_nonScalar hn,
    Check.bind_error]

/-- With a good head bytes that do not decode fail `MDEC.T` (R207). -/
theorem decodeText_of_malformed {e : Envelope} (he : decHead p s = .ok e) (hr : unutf8 e.rest = none) :
    decodeText p s = .error (.raise .deserializeError infoContent) := by
  rw [decodeText, he, Check.bind_ok, hr]

/-- With a good head a remainder that is not of 4n bytes fails `MDEC.V` (R209). -/
theorem decodeVector_of_length {e : Envelope} (he : decHead p s = .ok e) (hl : e.rest.length % 4 ≠ 0) :
    decodeVector p s = .error (.raise .deserializeError infoContent) := by
  rw [decodeVector, he, Check.bind_ok, if_pos hl]

/-- With a good head a remainder of other than `NEXP` elements fails `MDEC.VN` (R210). -/
theorem decodeVectorN_of_length {e : Envelope} (hn : s.nexp.written = true) (he : decHead p s = .ok e)
    (hl : e.rest.length ≠ 4 * s.nexp.value.toNat) :
    decodeVectorN p s = .error (.raise .deserializeError infoContent) := by
  rw [decodeVectorN, Reg.read_written hn, Check.bind_ok, he, Check.bind_ok, if_pos hl]

/-! ### What is written -/

/-- An encoder's results are the message. -/
theorem messageWritten_putMessage (bytes : List Byte) (s : State) :
    MessageWritten bytes s ((putMessage bytes s).withOutcome statusOk infoNone) :=
  ⟨Memory.readList_writeList .., fun _ => Memory.read_writeList_past _, rfl⟩

/-- The sender of a message is the number of its two bytes, the low one first (20_memory.md R63). -/
theorem reg_of_sender (lo hi : Byte) :
    Reg.of (hi ++ lo : BitVec 16) = ⟨BitVec.ofNat 16 (hi.toNat * 256 + lo.toNat), true⟩ := by
  rw [← eq_ofNat_of_toNat_eq (append_toNat hi lo)]
  rfl

/-- A decoder's results into `WB` are the head and the words. -/
theorem wordsWritten_putWords (topic lo hi : Byte) (rest : List Byte) (words : List Word) (s : State) :
    WordsWritten topic lo hi words s
      ((putWords { topic := topic, sender := hi ++ lo, rest := rest } words s).withOutcome statusOk infoNone) := by
  refine ⟨Memory.readList_writeList .., fun _ => Memory.read_writeList_past _, ?_⟩
  rw [← reg_of_sender]
  rfl

/-! ### Encode, then decode -/

/-- The operands of the message unit, other than the message, are as in `s`: topic, sender, lengths and every element (R211). -/
def SameOperands (s u : State) : Prop :=
  u.topic = s.topic ∧ u.sender = s.sender ∧ u.wlen = s.wlen ∧ u.blen = s.blen ∧
  (∀ a, Memory.read u.wb a = Memory.read s.wb a) ∧ (∀ a, Memory.read u.bb a = Memory.read s.bb a)

/-- The head and the body that an encoder put in `MB` are what `DEC_HEAD` finds there. -/
theorem decHead_putMessage {head body : List Byte} (hh : encHead p s = .ok head) :
    ∃ e, decHead p (putMessage (head ++ body) s) = .ok e ∧ Reg.of e.topic = s.topic ∧ Reg.of e.sender = s.sender ∧
      e.rest = body := by
  obtain ⟨ht, hs, htopic, rfl⟩ := encHead_eq_ok.1 hh
  refine ⟨_, decHead_eq_ok.2 ⟨_, _, _, body, Memory.readList_writeList .., htopic, rfl⟩, (Reg.eq_of_written ht).symm, ?_, rfl⟩
  rw [extract_append, ← Reg.eq_of_written hs]

/-- A decoder that writes back the head and the elements that stood in `WB` leaves the operands. -/
theorem sameOperands_putWords {e : Envelope} {ws : List Word} (bytes : List Byte) (ht : Reg.of e.topic = s.topic)
    (hs : Reg.of e.sender = s.sender) (hr : Memory.readList s.wb 0 s.wlen = some ws) :
    SameOperands s (putWords e ws (putMessage bytes s)) :=
  ⟨ht, hs, Memory.readList_length hr, rfl, Memory.read_writeList_self hr, fun _ => rfl⟩

/-- Text: what is decoded is the string that was encoded (`unutf8_flatMap_utf8`). -/
theorem decodeText_of_encodeText (hu : encodeText p s = .ok u) : ∃ v, decodeText p u = .ok v ∧ SameOperands s v := by
  obtain ⟨head, cps, hh, hr, hscalar, -, rfl⟩ := encodeText_eq_ok.1 hu
  obtain ⟨e, he, ht, hs, hrest⟩ := decHead_putMessage (body := cps.flatMap utf8) hh
  refine ⟨_, decodeText_eq_ok.2 ⟨e, cps, he, ?_, rfl⟩, sameOperands_putWords _ ht hs hr⟩
  rw [hrest, unutf8_flatMap_utf8 hscalar]

/-- Blob: the remainder is the blob. -/
theorem decodeBlob_of_encodeBlob (hu : encodeBlob p s = .ok u) : ∃ v, decodeBlob p u = .ok v ∧ SameOperands s v := by
  obtain ⟨head, body, hh, hr, rfl⟩ := encodeBlob_eq_ok.1 hu
  obtain ⟨e, he, ht, hs, rfl⟩ := decHead_putMessage (body := body) hh
  exact ⟨_, decodeBlob_eq_ok.2 ⟨e, he, rfl⟩, ht, hs, rfl, Memory.readList_length hr, fun _ => rfl,
    Memory.read_writeList_self hr⟩

/-- Vector: what is decoded is the vector that was encoded (`vectorWords_vectorBytes`). -/
theorem decodeVector_of_encodeVector (hu : encodeVector p s = .ok u) :
    ∃ v, decodeVector p u = .ok v ∧ SameOperands s v := by
  obtain ⟨head, ws, hh, hr, -, rfl⟩ := encodeVector_eq_ok.1 hu
  obtain ⟨e, he, ht, hs, hrest⟩ := decHead_putMessage (body := vectorBytes p.nativeOrder ws) hh
  refine ⟨_, decodeVector_eq_ok.2 ⟨e, he, ?_, rfl⟩, ?_⟩
  · rw [hrest, vectorBytes_length, Nat.mul_mod_right]
  · rw [hrest, vectorWords_vectorBytes]
    exact sameOperands_putWords _ ht hs hr

/-- Vector of `NEXP` elements: the same, since the remainder is four bytes an element. -/
theorem decodeVectorN_of_encodeVector (hn : s.nexp.written = true) (hc : s.nexp.value.toNat = s.wlen)
    (hu : encodeVector p s = .ok u) : ∃ v, decodeVectorN p u = .ok v ∧ SameOperands s v := by
  obtain ⟨head, ws, hh, hr, -, rfl⟩ := encodeVector_eq_ok.1 hu
  obtain ⟨e, he, ht, hs, hrest⟩ := decHead_putMessage (body := vectorBytes p.nativeOrder ws) hh
  refine ⟨_, decodeVectorN_eq_ok.2 ⟨hn, e, he, ?_, rfl⟩, ?_⟩
  · rw [hrest, vectorBytes_length, Memory.readList_length hr, putMessage_nexp, hc]
  · rw [hrest, vectorWords_vectorBytes]
    exact sameOperands_putWords _ ht hs hr

/-- The four pairs of R211. -/
theorem opBody_matchingPair {enc dec : Instr} (hp : matchingPair enc dec s) (hu : opBody enc s = .ok u) :
    ∃ v, opBody dec u = .ok v ∧ SameOperands s v := by
  rcases hp with ⟨rfl, rfl⟩ | ⟨rfl, rfl⟩ | ⟨rfl, rfl⟩ | ⟨rfl, rfl, hn, hc⟩
  · exact decodeText_of_encodeText hu
  · exact decodeBlob_of_encodeBlob hu
  · exact decodeVector_of_encodeVector hu
  · exact decodeVectorN_of_encodeVector hn hc hu

/-- The instructions of a pair are operations. -/
theorem operations_of_matchingPair {enc dec : Instr} (hp : matchingPair enc dec s) : enc ∈ operations ∧ dec ∈ operations := by
  rcases hp with ⟨rfl, rfl⟩ | ⟨rfl, rfl⟩ | ⟨rfl, rfl⟩ | ⟨rfl, rfl, -⟩ <;> decide

/-! ### Decode, then encode -/

/-- The message is as in `s`: its length and every byte of `MB` (R212). -/
def SameMessage (s u : State) : Prop := u.mlen = s.mlen ∧ ∀ a, Memory.read u.mb a = Memory.read s.mb a

/-- The head that `DEC_HEAD` found is what `ENC_HEAD` emits, and with the remainder it is the message. -/
theorem encHead_of_decHead {e : Envelope} (he : decHead p s = .ok e) (ht : t.topic = Reg.of e.topic)
    (hs : t.sender = Reg.of e.sender) :
    ∃ head, encHead p t = .ok head ∧ Memory.readList s.mb 0 s.mlen = some (head ++ e.rest) := by
  obtain ⟨topic, lo, hi, rest, hr, htopic, rfl⟩ := decHead_eq_ok.1 he
  refine ⟨[topic, lo, hi], encHead_eq_ok.2 ⟨by rw [ht]; rfl, by rw [hs]; rfl, by rw [ht]; exact htopic, ?_⟩, hr⟩
  rw [ht, hs, Reg.of_value, Reg.of_value, append_extract_low, append_extract_high]

/-- An encoder that writes back the message that stood in `MB` leaves it. -/
theorem sameMessage_putMessage {bytes : List Byte} (hm : t.mb = s.mb) (hr : Memory.readList s.mb 0 s.mlen = some bytes) :
    SameMessage s (putMessage bytes t) := by
  refine ⟨Memory.readList_length hr, fun a => ?_⟩
  rw [putMessage_mb, hm, Memory.read_writeList_self hr]

/-- Text: the encoding of what was decoded is the remainder (`encodesText_of_unutf8`). -/
theorem encodeText_of_decodeText (hw : WithinCapacity p s) (hu : decodeText p s = .ok u) :
    ∃ v, encodeText p u = .ok v ∧ SameMessage s v := by
  obtain ⟨e, cps, he, hc, rfl⟩ := decodeText_eq_ok.1 hu
  obtain ⟨hbytes, hscalar⟩ := encodesText_of_unutf8 hc
  obtain ⟨head, hh, hr⟩ := encHead_of_decHead (t := putWords e cps s) he rfl rfl
  refine ⟨_, encodeText_eq_ok.2 ⟨head, cps, hh, Memory.readList_writeList .., hscalar, ?_, rfl⟩, ?_⟩
  · rw [hbytes]
    exact decHead_rest_fits he hw
  · rw [hbytes]
    exact sameMessage_putMessage rfl hr

/-- Blob: the blob is the remainder. -/
theorem encodeBlob_of_decodeBlob (hu : decodeBlob p s = .ok u) : ∃ v, encodeBlob p u = .ok v ∧ SameMessage s v := by
  obtain ⟨e, he, hres⟩ := decodeBlob_eq_ok.1 hu
  obtain ⟨head, hh, hr⟩ := encHead_of_decHead (t := u) he (by rw [hres]) (by rw [hres])
  subst hres
  exact ⟨_, encodeBlob_eq_ok.2 ⟨head, e.rest, hh, Memory.readList_writeList .., rfl⟩, sameMessage_putMessage rfl hr⟩

/-- Vector: the bytes of what was decoded are the remainder (`vectorBytes_vectorWords`). -/
theorem encodeVector_of_decodeVector (hw : WithinCapacity p s) (hu : decodeVector p s = .ok u) :
    ∃ v, encodeVector p u = .ok v ∧ SameMessage s v := by
  obtain ⟨e, he, hl, rfl⟩ := decodeVector_eq_ok.1 hu
  have hbytes := vectorBytes_vectorWords p.nativeOrder hl
  obtain ⟨head, hh, hr⟩ := encHead_of_decHead (t := putWords e (vectorWords p.nativeOrder e.rest) s) he rfl rfl
  refine ⟨_, encodeVector_eq_ok.2 ⟨head, _, hh, Memory.readList_writeList .., ?_, rfl⟩, ?_⟩
  · rw [putWords_wlen, ← vectorBytes_length p.nativeOrder, hbytes]
    exact decHead_rest_fits he hw
  · rw [hbytes]
    exact sameMessage_putMessage rfl hr

/-- The three pairs of R212. -/
theorem opBody_reversePair {enc dec : Instr}
    (hp : (enc = .mencT ∧ dec = .mdecT) ∨ (enc = .mencB ∧ dec = .mdecB) ∨ (enc = .mencV ∧ dec = .mdecV))
    (hw : WithinCapacity Config.params s) (hu : opBody dec s = .ok u) : ∃ v, opBody enc u = .ok v ∧ SameMessage s v := by
  rcases hp with ⟨rfl, rfl⟩ | ⟨rfl, rfl⟩ | ⟨rfl, rfl⟩
  · exact encodeText_of_decodeText hw hu
  · exact encodeBlob_of_decodeBlob hu
  · exact encodeVector_of_decodeVector hw hu

/-- A decoder of words that succeeds has accepted the head, and took topic and sender from it. -/
theorem decHead_of_decoder_ok {i : Instr} (hi : i = .mdecT ∨ i = .mdecV ∨ i = .mdecVn) (hu : opBody i s = .ok u) :
    ∃ e, decHead Config.params s = .ok e ∧ u.topic = Reg.of e.topic ∧ u.sender = Reg.of e.sender := by
  rcases hi with rfl | rfl | rfl
  · obtain ⟨e, cps, he, -, rfl⟩ := decodeText_eq_ok.1 hu
    exact ⟨e, he, rfl, rfl⟩
  · obtain ⟨e, he, -, rfl⟩ := decodeVector_eq_ok.1 hu
    exact ⟨e, he, rfl, rfl⟩
  · obtain ⟨-, e, he, -, rfl⟩ := decodeVectorN_eq_ok.1 hu
    exact ⟨e, he, rfl, rfl⟩

end MessageUnit

/-! ### The statements -/

/-- Settles O38: the decoder finds the results of the encoder (`opBody_matchingPair`); the encoder's `OK` plays no part
(`exec_withOutcome`). -/
theorem messageRoundTrip : Obligations.MessageRoundTrip := by
  intro enc dec s t hp he ht
  obtain ⟨henc, hdec⟩ := operations_of_matchingPair hp
  rw [exec_eq_settle henc] at he
  obtain ⟨u, hu, rfl⟩ := ok_of_settle_ok he ht
  obtain ⟨v, hv, hsame⟩ := opBody_matchingPair hp hu
  rw [exec_withOutcome hdec, exec_eq_settle hdec]
  exact ⟨_, settle_of_ok hv, rfl, hsame⟩

/-- Settles O39: the encoder writes back the message that the decoder read (`opBody_reversePair`). -/
theorem messageReverseRoundTrip : Obligations.MessageReverseRoundTrip := by
  intro enc dec s t hp hw he ht
  obtain ⟨henc, hdec⟩ : enc ∈ operations ∧ dec ∈ operations := by
    rcases hp with ⟨rfl, rfl⟩ | ⟨rfl, rfl⟩ | ⟨rfl, rfl⟩ <;> decide
  rw [exec_eq_settle hdec] at he
  obtain ⟨u, hu, rfl⟩ := ok_of_settle_ok he ht
  obtain ⟨v, hv, hsame⟩ := opBody_reversePair hp hw hu
  rw [exec_withOutcome henc, exec_eq_settle henc]
  exact ⟨_, settle_of_ok hv, rfl, hsame⟩

/-- Settles O28: the head is ready, the string encodes and the body fits (`encodeText_eq_ok`). -/
theorem encodeTextWritesMessage : Obligations.EncodeTextWritesMessage :=
  fun s cps hh hr hscalar hfits =>
    ⟨_, settle_of_ok (encodeText_eq_ok.2 ⟨_, cps, encHead_of_headReady hh, hr, hscalar, hfits, rfl⟩),
      messageWritten_putMessage _ s⟩

/-- Settles O29: the head is ready and the blob is written (`encodeBlob_eq_ok`). -/
theorem encodeBlobWritesMessage : Obligations.EncodeBlobWritesMessage :=
  fun s body hh hr =>
    ⟨_, settle_of_ok (encodeBlob_eq_ok.2 ⟨_, body, encHead_of_headReady hh, hr, rfl⟩), messageWritten_putMessage _ s⟩

/-- Settles O30: the head is ready and the vector fits (`encodeVector_eq_ok`). -/
theorem encodeVectorWritesMessage : Obligations.EncodeVectorWritesMessage := by
  intro s ws hh hr hfits
  rw [← vectorBytes_eq_flatMap]
  exact ⟨_, settle_of_ok (encodeVector_eq_ok.2 ⟨_, ws, encHead_of_headReady hh, hr, hfits, rfl⟩),
    messageWritten_putMessage _ s⟩

/-- Settles O31: a bad topic fails the head, which comes first; with a good head the string is what fails. -/
theorem messageEncoderFailures : Obligations.MessageEncoderFailures := by
  refine ⟨fun i s hi ht hs hbad => ?_, fun s cps hh hr hn => settle_of_raise (encodeText_of_nonScalar hh hr hn)⟩
  have hop : i ∈ operations := by rcases hi with rfl | rfl | rfl <;> decide
  rw [exec_eq_settle hop]
  exact settle_of_raise (opBody_of_encHead_error hi (encHead_of_badTopic ht hs hbad))

/-- Settles O33: the remainder decodes to the string that it encodes, and a remainder that encodes none does not decode. -/
theorem decodeTextRule : Obligations.DecodeTextRule := by
  refine ⟨fun s topic lo hi cps hscalar h => ?_, fun s topic lo hi rest h hnone =>
    settle_of_raise (decodeText_of_malformed (decHead_of_messageHeld h) (unutf8_eq_none hnone))⟩
  exact ⟨_, settle_of_ok (decodeText_eq_ok.2 ⟨_, cps, decHead_of_messageHeld h, unutf8_flatMap_utf8 hscalar, rfl⟩),
    wordsWritten_putWords ..⟩

/-- Settles O34: the head is all that `MDEC.B` checks (`decodeBlob_eq_ok`). -/
theorem decodeBlobRule : Obligations.DecodeBlobRule := by
  intro s topic lo hi rest h
  refine ⟨_, settle_of_ok (decodeBlob_eq_ok.2 ⟨_, decHead_of_messageHeld h, rfl⟩), Memory.readList_writeList ..,
    fun _ => Memory.read_writeList_past _, ?_⟩
  rw [← reg_of_sender]
  rfl

/-- Settles O35: the bytes of words stand for those words (`vectorWords_vectorBytes`), and 4n bytes are the bytes of the words
that they stand for (`vectorBytes_vectorWords`). -/
theorem decodeVectorRule : Obligations.DecodeVectorRule := by
  refine ⟨fun s topic lo hi ws h => ?_, fun s topic lo hi rest h => ⟨fun hl => ?_, fun hl =>
    settle_of_raise (decodeVector_of_length (decHead_of_messageHeld h) hl)⟩⟩
  · rw [← vectorBytes_eq_flatMap] at h
    have hl : (vectorBytes Config.params.nativeOrder ws).length % 4 = 0 := by rw [vectorBytes_length, Nat.mul_mod_right]
    refine ⟨_, settle_of_ok (decodeVector_eq_ok.2 ⟨_, decHead_of_messageHeld h, hl, rfl⟩), ?_⟩
    rw [vectorWords_vectorBytes]
    exact wordsWritten_putWords ..
  · exact ⟨vectorWords Config.params.nativeOrder rest, by rw [← vectorBytes_eq_flatMap, vectorBytes_vectorWords _ hl]⟩

/-- Settles O36: `NEXP` is read first, then the head, and then the length is compared (`decodeVectorN_eq_ok`). -/
theorem decodeVectorNRule : Obligations.DecodeVectorNRule := by
  refine ⟨fun s hn => ?_, fun s topic lo hi ws hn h hc => ?_, fun s topic lo hi rest hn h hl =>
    settle_of_raise (decodeVectorN_of_length hn (decHead_of_messageHeld h) hl)⟩
  · refine settle_refused_iff.2 ?_
    rw [decodeVectorN, Reg.read_unwritten hn, Check.bind_error]
  · rw [← vectorBytes_eq_flatMap] at h
    have hl : (vectorBytes Config.params.nativeOrder ws).length = 4 * s.nexp.value.toNat := by rw [vectorBytes_length, hc]
    refine ⟨_, settle_of_ok (decodeVectorN_eq_ok.2 ⟨hn, _, decHead_of_messageHeld h, hl, rfl⟩), ?_⟩
    rw [vectorWords_vectorBytes]
    exact wordsWritten_putWords ..

/-- Settles O37: the head fails (`splitHead_of_short`, `splitHead_of_badTopic`), and the decoder with it. -/
theorem messageHeadFailures : Obligations.MessageHeadFailures := by
  intro i s bytes hi hr
  have hop : i ∈ operations := by rcases hi with rfl | rfl | rfl | ⟨rfl, -⟩ <;> decide
  have hlen := Memory.readList_length hr
  rw [exec_eq_settle hop]
  refine ⟨fun hshort => ?_, fun topic hlong ht hbad => ?_⟩
  · exact settle_of_raise (opBody_of_decHead_error hi ((decHead_of_read hr).trans (splitHead_of_short (hlen.trans_lt hshort))))
  · exact settle_of_raise (opBody_of_decHead_error hi
      ((decHead_of_read hr).trans (splitHead_of_badTopic (hlong.trans_eq hlen.symm) ht hbad)))

/-- Settles O40: every decoder has accepted the head (`decHead_of_decoder_ok`), and `MDEC.B` checks nothing else. -/
theorem blobDecoderAcceptsMost : Obligations.BlobDecoderAcceptsMost := by
  intro i s t hi h ht
  have hop : i ∈ operations := by rcases hi with rfl | rfl | rfl <;> decide
  rw [exec_eq_settle hop] at h
  obtain ⟨u, hu, rfl⟩ := ok_of_settle_ok h ht
  obtain ⟨e, he, htopic, hsender⟩ := decHead_of_decoder_ok hi hu
  exact ⟨_, settle_of_ok (decodeBlob_eq_ok.2 ⟨e, he, rfl⟩), rfl, htopic.symm, hsender.symm⟩

end Sys2Proof.Machine
end

section
/-! PROOFS. The two units are independent (40_register_config_codec.md R153, 42_message_codec.md R214): the checks and results of an
operation commute with giving the state another content of the other unit. -/

namespace Sys2Proof.Machine

/-- The state with the registers and the buffer of the register unit taken from `o`. -/
def State.withRegisterUnit (o s : State) : State :=
  { s with x := o.x, cmd := o.cmd, sreg := o.sreg, dlen := o.dlen, fb := o.fb, flen := o.flen, lv := o.lv, lc := o.lc }

/-- The state with the registers and the buffers of the message unit taken from `o`. -/
def State.withMessageUnit (o s : State) : State :=
  { s with
    topic := o.topic, sender := o.sender, nexp := o.nexp, mb := o.mb, mlen := o.mlen, bb := o.bb, blen := o.blen, wb := o.wb,
    wlen := o.wlen }

section Independence

variable {p : Params} {i : Instr} {s t : State} (o : State)

/-- An operation whose checks and results commute with a change of the state that leaves `STATUS` and `EINFO` alone does in the
changed state what it did before, whatever the last outcome was. -/
theorem exec_of_commutes {f : State → State} (hi : i ∈ operations) (hbody : opBody i (f s) = f <$> opBody i s)
    (hf : ∀ a b u, (f u).withOutcome a b = f (u.withOutcome a b)) (status einfo : Byte) (h : exec i s = .next t) :
    exec i ((f s).withOutcome status einfo) = .next (f t) := by
  rw [exec_eq_settle hi] at h
  rw [exec_withOutcome hi, exec_eq_settle hi, hbody]
  rcases settle_next h with ⟨u, hu, rfl⟩ | ⟨kind, info, he, rfl⟩
  · rw [hu]
    exact congrArg Host.Outcome.next (hf statusOk infoNone u)
  · rw [he]
    exact congrArg Host.Outcome.next (hf kind.code info s)

/-! ### The message unit does not see the register unit -/

theorem encodeText_withRegisterUnit :
    encodeText p (State.withRegisterUnit o s) = State.withRegisterUnit o <$> encodeText p s := by
  simp only [encodeText, map_bind]
  refine bind_congr fun head => bind_congr fun cps => bind_congr fun body => ?_
  split <;> rfl

theorem encodeBlob_withRegisterUnit :
    encodeBlob p (State.withRegisterUnit o s) = State.withRegisterUnit o <$> encodeBlob p s := by
  simp only [encodeBlob, map_bind]
  rfl

theorem encodeVector_withRegisterUnit :
    encodeVector p (State.withRegisterUnit o s) = State.withRegisterUnit o <$> encodeVector p s := by
  simp only [encodeVector, map_bind]
  refine bind_congr fun head => bind_congr fun ws => ?_
  have hwlen : (State.withRegisterUnit o s).wlen = s.wlen := rfl
  rw [hwlen]
  split <;> rfl

theorem decodeText_withRegisterUnit :
    decodeText p (State.withRegisterUnit o s) = State.withRegisterUnit o <$> decodeText p s := by
  simp only [decodeText, map_bind]
  refine bind_congr fun e => ?_
  split <;> rfl

theorem decodeBlob_withRegisterUnit :
    decodeBlob p (State.withRegisterUnit o s) = State.withRegisterUnit o <$> decodeBlob p s := by
  simp only [decodeBlob, map_bind]
  rfl

theorem decodeVector_withRegisterUnit :
    decodeVector p (State.withRegisterUnit o s) = State.withRegisterUnit o <$> decodeVector p s := by
  simp only [decodeVector, map_bind]
  refine bind_congr fun e => ?_
  split <;> rfl

theorem decodeVectorN_withRegisterUnit :
    decodeVectorN p (State.withRegisterUnit o s) = State.withRegisterUnit o <$> decodeVectorN p s := by
  simp only [decodeVectorN, map_bind]
  refine bind_congr fun n => bind_congr fun e => ?_
  split <;> rfl

/-- The checks and results of a message operation are the same whatever the register unit holds. -/
theorem opBody_withRegisterUnit (hi : i ∈ messageOperations) (s : State) :
    opBody i (State.withRegisterUnit o s) = State.withRegisterUnit o <$> opBody i s := by
  simp only [messageOperations, List.mem_cons, List.not_mem_nil, or_false] at hi
  rcases hi with rfl | rfl | rfl | rfl | rfl | rfl | rfl
  · exact encodeText_withRegisterUnit o
  · exact encodeBlob_withRegisterUnit o
  · exact encodeVector_withRegisterUnit o
  · exact decodeText_withRegisterUnit o
  · exact decodeBlob_withRegisterUnit o
  · exact decodeVector_withRegisterUnit o
  · exact decodeVectorN_withRegisterUnit o

/-! ### The register unit does not see the message unit -/

theorem encodeConfig_withMessageUnit (header : Byte) :
    encodeConfig header (State.withMessageUnit o s) = State.withMessageUnit o <$> encodeConfig header s := by
  simp only [encodeConfig, map_bind]
  rfl

theorem decodeConfig_withMessageUnit (bytes : List Byte) :
    decodeConfig bytes (State.withMessageUnit o s) = State.withMessageUnit o <$> decodeConfig bytes s := by
  unfold decodeConfig
  split
  · split_ifs <;> rfl
  · rfl

theorem lookupCodeBody_withMessageUnit (f : TableField) :
    lookupCodeBody f (State.withMessageUnit o s) = State.withMessageUnit o <$> lookupCodeBody f s := by
  simp only [lookupCodeBody, map_bind]
  refine bind_congr fun w => ?_
  split <;> rfl

theorem lookupWordBody_withMessageUnit (f : TableField) :
    lookupWordBody f (State.withMessageUnit o s) = State.withMessageUnit o <$> lookupWordBody f s := by
  simp only [lookupWordBody, map_bind]
  refine bind_congr fun c => ?_
  split <;> rfl

/-- The operations of the register unit are those that are none of the message unit. -/
theorem mem_registerOperations : i ∈ registerOperations ↔ i ∈ operations ∧ i ∉ messageOperations := by
  simp [registerOperations]

/-- The checks and results of a register operation are the same whatever the message unit holds. -/
theorem opBody_withMessageUnit (hi : i ∈ operations) (s : State) :
    i ∉ messageOperations → opBody i (State.withMessageUnit o s) = State.withMessageUnit o <$> opBody i s :=
  operations_cases
    (P := fun i => i ∉ messageOperations → opBody i (State.withMessageUnit o s) = State.withMessageUnit o <$> opBody i s) hi
    (encSet := fun _ => encodeConfig_withMessageUnit o _) (encAns := fun _ => encodeConfig_withMessageUnit o _)
    (dec := fun _ => by
      simp only [opBody, map_bind]
      exact bind_congr fun bytes => decodeConfig_withMessageUnit o bytes)
    (codes := fun f _ => by simp only [opBody_elutV2c, lookupCodeBody_withMessageUnit])
    (words := fun f _ => by simp only [opBody_elutC2v, lookupWordBody_withMessageUnit])
    (mencT := fun h => absurd (by decide) h) (mencB := fun h => absurd (by decide) h)
    (mencV := fun h => absurd (by decide) h) (mdecT := fun h => absurd (by decide) h)
    (mdecB := fun h => absurd (by decide) h) (mdecV := fun h => absurd (by decide) h)
    (mdecVn := fun h => absurd (by decide) h)

end Independence

/-- The operations of the message unit are operations. -/
theorem mem_operations_of_mem_messageOperations {i : Instr} (h : i ∈ messageOperations) : i ∈ operations :=
  (by decide : ∀ j ∈ messageOperations, j ∈ operations) i h

/-- Settles O50: the checks and results commute with another content of the other unit (`opBody_withRegisterUnit`,
`opBody_withMessageUnit`), and so does the end of the operation (`exec_of_commutes`). -/
theorem unitsAreIndependent : Obligations.UnitsAreIndependent := by
  refine ⟨fun i s t o hi h => ?_, fun i s t o hi h => ?_⟩
  · exact exec_of_commutes (mem_operations_of_mem_messageOperations hi) (opBody_withRegisterUnit o hi s) (fun _ _ _ => rfl)
      o.status o.einfo h
  · obtain ⟨hop, hnot⟩ := mem_registerOperations.1 hi
    exact exec_of_commutes hop (opBody_withMessageUnit o hop s hnot) (fun _ _ _ => rfl) o.status o.einfo h

end Sys2Proof.Machine
end

section
/-! PROOFS. The statements on the content codecs (43_content_codecs.md): the bytes of every scalar value as numbers (R231), the bytes
that stand in no row (R232), and the round trips of text and of elements (R233, R241). -/

namespace Sys2Proof.Machine

/-- The bytes of a scalar value as numbers (R231): `utf8_eq` without its reductions, which no scalar value needs. -/
theorem utf8_map_toNat {c : Word} (h : scalar c = true) : (utf8 c).map BitVec.toNat =
    if c.toNat ≤ 0x7F then [c.toNat]
    else if c.toNat ≤ 0x7FF then [0xC0 + c.toNat / 64, 0x80 + c.toNat % 64]
    else if c.toNat ≤ 0xFFFF then [0xE0 + c.toNat / 4096, 0x80 + c.toNat / 64 % 64, 0x80 + c.toNat % 64]
    else [0xF0 + c.toNat / 262144, 0x80 + c.toNat / 4096 % 64, 0x80 + c.toNat / 64 % 64, 0x80 + c.toNat % 64] := by
  rw [scalar_iff] at h
  rw [utf8_eq]
  split_ifs <;> simp only [List.map_cons, List.map_nil, BitVec.toNat_ofNat, List.cons.injEq, and_true] <;> omega

/-- A byte that stands in no row of R232: C0, C1 and F5 to FF. -/
def InNoRow (b : Byte) : Prop := b = 0xC0#8 ∨ b = 0xC1#8 ∨ 0xF5 ≤ b.toNat

theorem inNoRow_iff {b : Byte} : InNoRow b ↔ b.toNat = 0xC0 ∨ b.toNat = 0xC1 ∨ 0xF5 ≤ b.toNat := by
  simp [InNoRow, ← BitVec.toNat_inj]

/-- The bytes of a scalar value all stand in a row: the shortest form never starts with C0 or C1, and no scalar value is large enough
to start with F5. -/
theorem not_inNoRow_of_mem_utf8 {c : Word} {b : Byte} (h : scalar c = true) (hb : b ∈ utf8 c) : ¬ InNoRow b := by
  have hmem := List.mem_map_of_mem (f := BitVec.toNat) hb
  rw [utf8_map_toNat h] at hmem
  rw [scalar_iff] at h
  rw [inNoRow_iff]
  split_ifs at hmem <;> simp only [List.mem_cons, List.not_mem_nil, or_false] at hmem <;> omega

/-- Bytes that stand in no row are in no encoding, so bytes that hold one are not what they would decode to. -/
theorem unutf8_eq_none_of_inNoRow {bytes : List Byte} {b : Byte} (hb : b ∈ bytes) (hrow : InNoRow b) : unutf8 bytes = none := by
  refine unutf8_eq_none fun cps hscalar hbytes => ?_
  rw [← hbytes, List.mem_flatMap] at hb
  obtain ⟨c, hc, hbc⟩ := hb
  exact not_inNoRow_of_mem_utf8 (hscalar c hc) hbc hrow

/-- Settles O26: both directions are inductions of their own, over the string (`unutf8_flatMap_utf8`) and over the rows that the
decoder takes (`encodesText_of_unutf8`). -/
theorem utf8RoundTrip : Obligations.Utf8RoundTrip :=
  ⟨fun _ => unutf8_flatMap_utf8, fun _ _ => encodesText_of_unutf8, rfl, by decide, by decide⟩

/-- Settles O27: four bytes and a word determine each other in either order (`fword_eq_of_fbytes`, `fbytes_fword`). -/
theorem floatBytesUndoFloatWord : Obligations.FloatBytesUndoFloatWord := by
  refine ⟨fbytes_little_eq, fun _ => rfl, fun o w b0 b1 b2 b3 => ⟨fword_eq_of_fbytes, fun h => ?_⟩⟩
  rw [← h, fbytes_fword]

/-- Settles O59: the rows are those of `utf8_map_toNat`, and no encoding holds a byte that stands in no row. -/
theorem utf8BytesOfEachScalarValue : Obligations.Utf8BytesOfEachScalarValue := by
  refine ⟨fun c => ?_, fun c h => ?_, fun _ _ => unutf8_eq_none_of_inNoRow⟩
  · rw [scalar_iff]
    omega
  · rw [utf8_map_toNat h]
    refine ⟨fun h1 => if_pos h1, fun h1 h2 => ?_, fun h2 h3 => ?_, fun h3 => ?_⟩
    · rw [if_neg (by omega), if_pos h2]
    · rw [if_neg (by omega), if_neg (by omega), if_pos h3]
    · rw [if_neg (by omega), if_neg (by omega), if_neg (by omega)]

/-- Settles O25: the examples of R231 and R232 evaluate to what the spec lists. -/
theorem utf8Samples : Obligations.Utf8Samples := by
  unfold Obligations.Utf8Samples
  decide

end Sys2Proof.Machine
end

section
/-! PROOFS. The error model (60_exceptions.md): a failed operation leaves the state but for `STATUS` and `EINFO` (R266), which error
kind each operation raises (R265), and what is refused: with the operands written only a message above the capacity (R272, third
row), and of the host a forbidden write (R272, last row). -/

namespace Sys2Proof.Machine

section Exceptions

variable {p : Params} {s : State} {kind : ErrorKind} {info : Byte} {why : Refusal}

/-! ### The error kind of each operation (R265) -/

theorem encodeConfig_raises {header : Byte} (he : encodeConfig header s = .error (.raise kind info)) : kind = .invalidField := by
  rcases encodeConfig_eq_error he with ⟨f, -, h⟩ | ⟨f, -, h⟩ <;> cases h
  rfl

/-- `RDEC` raises every kind but `DeserializeError`. -/
theorem decodeConfig_raises {bytes : List Byte} (he : decodeConfig bytes s = .error (.raise kind info)) :
    kind ≠ .deserializeError := by
  rcases decodeConfig_eq_error he with ⟨-, h⟩ | ⟨header, -, h⟩ | h | h <;> cases h <;> decide

theorem lookupCodeBody_raises {f : TableField} (he : lookupCodeBody f s = .error (.raise kind info)) : kind = .invalidField := by
  rcases lookupCodeBody_eq_error he with ⟨-, h⟩ | h <;> cases h
  rfl

theorem lookupWordBody_raises {f : TableField} (he : lookupWordBody f s = .error (.raise kind info)) : kind = .invalidField := by
  rcases lookupWordBody_eq_error he with ⟨-, h⟩ | h <;> cases h
  rfl

theorem encHead_raises (he : encHead p s = .error (.raise kind info)) : kind = .invalidField := by
  rcases encHead_eq_error he with ⟨r, h, -⟩ | ⟨-, -, -, h⟩ <;> cases h
  rfl

theorem decHead_raises (he : decHead p s = .error (.raise kind info)) : kind = .deserializeError := by
  rcases decHead_eq_error he with ⟨-, h⟩ | h | h <;> cases h <;> rfl

theorem encodeText_raises (he : encodeText p s = .error (.raise kind info)) : kind = .invalidField := by
  rcases encodeText_eq_error he with h | ⟨-, h⟩ | h | ⟨-, h⟩
  · exact encHead_raises h
  · cases h
  · cases h
    rfl
  · cases h

theorem encodeBlob_raises (he : encodeBlob p s = .error (.raise kind info)) : kind = .invalidField := by
  rcases encodeBlob_eq_error he with h | ⟨-, h⟩
  · exact encHead_raises h
  · cases h

theorem encodeVector_raises (he : encodeVector p s = .error (.raise kind info)) : kind = .invalidField := by
  rcases encodeVector_eq_error he with h | ⟨-, h⟩ | ⟨-, h⟩
  · exact encHead_raises h
  · cases h
  · cases h

/-- Both ways in which a decoder into `WB` fails, at its head and at its content, are `DeserializeError`. -/
theorem head_or_content_raises
    (h : decHead p s = .error (.raise kind info) ∨ Stop.raise kind info = .raise .deserializeError infoContent) :
    kind = .deserializeError := by
  rcases h with h | h
  · exact decHead_raises h
  · cases h
    rfl

theorem decodeVectorN_raises (he : decodeVectorN p s = .error (.raise kind info)) : kind = .deserializeError := by
  rcases decodeVectorN_eq_error he with ⟨-, h⟩ | h
  · cases h
  · exact head_or_content_raises h

/-- The first three error columns of R265 are those of `RDEC`. -/
theorem mayEndWith_rdec (hk : kind ≠ .deserializeError) : mayEndWith .rdec kind.code = true := by
  cases kind with
  | deserializeError => exact absurd rfl hk
  | _ => rfl

theorem mayEndWith_elutV2c (f : TableField) : mayEndWith (elutV2c f) ErrorKind.invalidField.code = true := by
  cases f <;> rfl

theorem mayEndWith_elutC2v (f : TableField) : mayEndWith (elutC2v f) ErrorKind.invalidField.code = true := by
  cases f <;> rfl

/-- No operation raises an error whose cell in the table of R265 is blank. -/
theorem mayEndWith_of_opBody_raises {i : Instr} (hi : i ∈ operations) :
    opBody i s = .error (.raise kind info) → mayEndWith i kind.code = true :=
  operations_cases (P := fun i => opBody i s = .error (.raise kind info) → mayEndWith i kind.code = true) hi
    (encSet := fun h => encodeConfig_raises h ▸ rfl) (encAns := fun h => encodeConfig_raises h ▸ rfl)
    (dec := fun h => by
      rcases Check.bind_eq_error.1 h with h | ⟨bytes, -, h⟩
      · cases (readBuffer_eq_error.1 h).2
      · exact mayEndWith_rdec (decodeConfig_raises h))
    (codes := fun f h => lookupCodeBody_raises (opBody_elutV2c f s ▸ h) ▸ mayEndWith_elutV2c f)
    (words := fun f h => lookupWordBody_raises (opBody_elutC2v f s ▸ h) ▸ mayEndWith_elutC2v f)
    (mencT := fun h => encodeText_raises h ▸ rfl) (mencB := fun h => encodeBlob_raises h ▸ rfl)
    (mencV := fun h => encodeVector_raises h ▸ rfl)
    (mdecT := fun h => head_or_content_raises (decodeText_eq_error h) ▸ rfl)
    (mdecB := fun h => decHead_raises (decodeBlob_eq_error h) ▸ rfl)
    (mdecV := fun h => head_or_content_raises (decodeVector_eq_error h) ▸ rfl)
    (mdecVn := fun h => decodeVectorN_raises h ▸ rfl)

/-- A success stands in every row of R265. -/
theorem mayEndWith_ok (i : Instr) : mayEndWith i statusOk = true := by
  cases i <;> rfl

/-! ### With the operands written (R292) -/

theorem readList_ne_none {α : Type} {m : List (Nat × α)} {len : Nat} (h : bufferWritten m len = true) :
    Memory.readList m 0 len ≠ none :=
  Option.isSome_iff_ne_none.1 h

theorem encodeConfig_not_refused {header : Byte} (hr : allFields.all (fun f => (s.x.get f).written) = true) :
    encodeConfig header s ≠ .error (.refuse why) := by
  intro he
  rcases encodeConfig_eq_error he with ⟨f, hf, -⟩ | ⟨f, -, h⟩
  · exact Bool.false_ne_true (hf.symm.trans (List.all_eq_true.1 hr f (mem_allFields f)))
  · cases h

theorem decodeConfig_not_refused {bytes : List Byte} : decodeConfig bytes s ≠ .error (.refuse why) := by
  intro he
  rcases decodeConfig_eq_error he with ⟨-, h⟩ | ⟨header, -, h⟩ | h | h <;> cases h

theorem lookupCodeBody_not_refused {f : TableField} (hr : s.lv.written = true) :
    lookupCodeBody f s ≠ .error (.refuse why) := by
  intro he
  rcases lookupCodeBody_eq_error he with ⟨hw, -⟩ | h
  · exact Bool.false_ne_true (hw.symm.trans hr)
  · cases h

theorem lookupWordBody_not_refused {f : TableField} (hr : s.lc.written = true) :
    lookupWordBody f s ≠ .error (.refuse why) := by
  intro he
  rcases lookupWordBody_eq_error he with ⟨hw, -⟩ | h
  · exact Bool.false_ne_true (hw.symm.trans hr)
  · cases h

theorem encHead_not_refused (ht : s.topic.written = true) (hs : s.sender.written = true) :
    encHead p s ≠ .error (.refuse why) := by
  intro he
  rcases encHead_eq_error he with ⟨r, -, hw⟩ | ⟨-, -, -, h⟩
  · simp [ht, hs] at hw
  · cases h

theorem decHead_not_refused (hr : bufferWritten s.mb s.mlen = true) : decHead p s ≠ .error (.refuse why) := by
  intro he
  rcases decHead_eq_error he with ⟨hn, -⟩ | h | h
  · exact readList_ne_none hr hn
  · cases h
  · cases h

/-- `MENC.T` on written operands is refused only for the capacity. -/
theorem overCapacity_of_encodeText (hr : (s.topic.written && s.sender.written && bufferWritten s.wb s.wlen) = true)
    (he : encodeText p s = .error (.refuse why)) : ∃ b, why = .overCapacity b := by
  simp only [Bool.and_eq_true] at hr
  obtain ⟨⟨ht, hs⟩, hb⟩ := hr
  rcases encodeText_eq_error he with h | ⟨hn, -⟩ | h | ⟨-, h⟩
  · exact absurd h (encHead_not_refused ht hs)
  · exact absurd hn (readList_ne_none hb)
  · cases h
  · cases h
    exact ⟨_, rfl⟩

theorem encodeBlob_not_refused (hr : (s.topic.written && s.sender.written && bufferWritten s.bb s.blen) = true) :
    encodeBlob p s ≠ .error (.refuse why) := by
  intro he
  simp only [Bool.and_eq_true] at hr
  obtain ⟨⟨ht, hs⟩, hb⟩ := hr
  rcases encodeBlob_eq_error he with h | ⟨hn, -⟩
  · exact encHead_not_refused ht hs h
  · exact readList_ne_none hb hn

/-- `MENC.V` on written operands is refused only for the capacity. -/
theorem overCapacity_of_encodeVector (hr : (s.topic.written && s.sender.written && bufferWritten s.wb s.wlen) = true)
    (he : encodeVector p s = .error (.refuse why)) : ∃ b, why = .overCapacity b := by
  simp only [Bool.and_eq_true] at hr
  obtain ⟨⟨ht, hs⟩, hb⟩ := hr
  rcases encodeVector_eq_error he with h | ⟨hn, -⟩ | ⟨-, h⟩
  · exact absurd h (encHead_not_refused ht hs)
  · exact absurd hn (readList_ne_none hb)
  · cases h
    exact ⟨_, rfl⟩

/-- With `MB` written neither the head nor the content of a decoder into `WB` is refused. -/
theorem head_or_content_not_refused (hr : bufferWritten s.mb s.mlen = true) :
    ¬ (decHead p s = .error (.refuse why) ∨ Stop.refuse why = .raise .deserializeError infoContent) := by
  rintro (h | h)
  · exact decHead_not_refused hr h
  · cases h

theorem decodeVectorN_not_refused (hr : (s.nexp.written && bufferWritten s.mb s.mlen) = true) :
    decodeVectorN p s ≠ .error (.refuse why) := by
  intro he
  rw [Bool.and_eq_true] at hr
  obtain ⟨hn, hb⟩ := hr
  rcases decodeVectorN_eq_error he with ⟨hw, -⟩ | h
  · exact Bool.false_ne_true (hw.symm.trans hn)
  · exact head_or_content_not_refused hb h

/-- An operation with its operands written is refused only for a capacity. -/
theorem overCapacity_of_ready {i : Instr} (hi : i ∈ operations) :
    Ready i s = true → opBody i s = .error (.refuse why) → ∃ b, why = .overCapacity b :=
  operations_cases (P := fun i => Ready i s = true → opBody i s = .error (.refuse why) → ∃ b, why = .overCapacity b) hi
    (encSet := fun hr h => absurd h (encodeConfig_not_refused hr))
    (encAns := fun hr h => absurd h (encodeConfig_not_refused hr))
    (dec := fun hr h => by
      rcases Check.bind_eq_error.1 h with h | ⟨bytes, -, h⟩
      · exact absurd (readBuffer_eq_error.1 h).1 (readList_ne_none hr)
      · exact absurd h decodeConfig_not_refused)
    (codes := fun f hr h => absurd (opBody_elutV2c f s ▸ h) (lookupCodeBody_not_refused (ready_elutV2c f s ▸ hr)))
    (words := fun f hr h => absurd (opBody_elutC2v f s ▸ h) (lookupWordBody_not_refused (ready_elutC2v f s ▸ hr)))
    (mencT := overCapacity_of_encodeText)
    (mencB := fun hr h => absurd h (encodeBlob_not_refused hr))
    (mencV := overCapacity_of_encodeVector)
    (mdecT := fun hr h => absurd (decodeText_eq_error h) (head_or_content_not_refused hr))
    (mdecB := fun hr h => absurd (decodeBlob_eq_error h) (decHead_not_refused hr))
    (mdecV := fun hr h => absurd (decodeVector_eq_error h) (head_or_content_not_refused hr))
    (mdecVn := fun hr h => absurd h (decodeVectorN_not_refused hr))

/-- `ENC_HEAD` succeeds only with a ready head: the converse of `encHead_of_headReady`. -/
theorem headReady_of_encHead {head : List Byte} (h : encHead p s = .ok head) : HeadReady p s := by
  obtain ⟨ht, hs, htopic, -⟩ := encHead_eq_ok.1 h
  exact ⟨ht, hs, isTopic_iff.1 htopic⟩

/-! ### Above the capacity (R272, third row) -/

theorem encodeText_of_oversize {cps : List Word} (hh : HeadReady p s) (hr : Memory.readList s.wb 0 s.wlen = some cps)
    (hscalar : ∀ c ∈ cps, scalar c = true) (hfits : p.content.fits (cps.flatMap utf8).length = false) :
    encodeText p s = .error (.refuse (.overCapacity .mb)) := by
  rw [encodeText, encHead_of_headReady hh, Check.bind_ok, readBuffer_eq_ok.2 hr, Check.bind_ok,
    textBytes_eq_ok.2 ⟨hscalar, rfl⟩, Check.bind_ok, hfits]
  rfl

theorem encodeVector_of_oversize {ws : List Word} (hh : HeadReady p s) (hr : Memory.readList s.wb 0 s.wlen = some ws)
    (hfits : p.content.fits (4 * s.wlen) = false) : encodeVector p s = .error (.refuse (.overCapacity .mb)) := by
  rw [encodeVector, encHead_of_headReady hh, Check.bind_ok, readBuffer_eq_ok.2 hr, Check.bind_ok, hfits]
  rfl

end Exceptions

/-! ### Instructions with their operands written -/

/-- An operation with its operands written completes, or its message does not fit: its checks pass, raise, or are refused, and then
for the capacity (`overCapacity_of_ready`), which happens to `MENC.T` and `MENC.V` alone (`opBody_overCapacity`). -/
theorem exec_of_ready {i : Instr} {s : State} (hi : i ∈ operations) (hr : Ready i s = true) :
    (∃ t, exec i s = .next t) ∨
    (exec i s = .refused (.overCapacity .mb) ∧
      ((i = .mencT ∧ HeadReady Config.params s ∧ ∃ cps, Memory.readList s.wb 0 s.wlen = some cps ∧
          (∀ c ∈ cps, scalar c = true) ∧ Config.params.content.fits (cps.flatMap utf8).length = false) ∨
       (i = .mencV ∧ HeadReady Config.params s ∧ Config.params.content.fits (4 * s.wlen) = false))) := by
  rw [exec_eq_settle hi]
  match he : opBody i s with
  | .ok u => exact .inl ⟨_, settle_ok s u⟩
  | .error (.raise kind info) => exact .inl ⟨_, settle_raise s kind info⟩
  | .error (.refuse why) =>
    obtain ⟨b, rfl⟩ := overCapacity_of_ready hi hr he
    obtain ⟨rfl, hcase⟩ := opBody_overCapacity hi he
    refine .inr ⟨settle_refuse s _, hcase.imp ?_ ?_⟩
    · rintro ⟨hT, head, cps, hh, hrest⟩
      exact ⟨hT, headReady_of_encHead hh, cps, hrest⟩
    · rintro ⟨hV, head, hh, hfits⟩
      exact ⟨hV, headReady_of_encHead hh, hfits⟩

/-- `FB` has room for the twelve bytes of every frame. -/
theorem hostFrame_packFields_next (header : Byte) (f : FrameFields) (s : State) :
    ∃ t, hostFrame Config.params (packFields header f) s = .next t :=
  ⟨_, if_pos (α := Outcome) twelve_le_fbMax⟩

/-! ### The statements -/

/-- Settles O43: an operation that ends with another `STATUS` than `OK` has raised, which writes the two registers alone. -/
theorem failureWritesOnlyStatusAndInfo : Obligations.FailureWritesOnlyStatusAndInfo := by
  intro i s t hi h hfail
  rw [exec_eq_settle hi] at h
  rcases settle_next h with ⟨u, -, rfl⟩ | ⟨kind, info, -, rfl⟩
  · exact absurd rfl hfail
  · rfl

/-- Settles O44: a success is allowed for every operation, and what an operation raises is allowed for it
(`mayEndWith_of_opBody_raises`). -/
theorem statusOfEachOperation : Obligations.StatusOfEachOperation := by
  intro i s t hi h
  rw [exec_eq_settle hi] at h
  rcases settle_next h with ⟨u, -, rfl⟩ | ⟨kind, info, he, rfl⟩
  · exact mayEndWith_ok i
  · exact mayEndWith_of_opBody_raises hi he

/-- Settles O32: with the head ready and the content good, the capacity is the check that is left. -/
theorem oversizeMessageIsRefused : Obligations.OversizeMessageIsRefused :=
  ⟨fun _ _ _ hh hr hscalar hfits => settle_refused_iff.2 (encodeText_of_oversize hh hr hscalar hfits),
    fun _ _ _ hh hr hfits => settle_refused_iff.2 (encodeVector_of_oversize hh hr hfits), fun _ => ⟨rfl, rfl⟩⟩

/-- Settles O42: the operations by `exec_of_ready`; a frame always fits `FB` (`hostFrame_packFields_next`), and an envelope fits `MB`
unless its content is above the capacity. -/
theorem readyInstructionCompletes : Obligations.ReadyInstructionCompletes := by
  intro i s hr
  cases i with
  | cfSet f => exact .inl (hostFrame_packFields_next 0xC2#8 f s)
  | cfAns f => exact .inl (hostFrame_packFields_next 0xC1#8 f s)
  | cfPset f => exact .inl (hostFrame_packFields_next 0xC0#8 f s)
  | me topic sender content =>
    cases hfits : Config.params.content.fits content.length with
    | true => exact .inl ⟨_, if_pos (α := Outcome) hfits⟩
    | false => exact .inr ⟨if_neg (Bool.eq_false_iff.1 hfits), .inr (.inr ⟨topic, sender, content, rfl, hfits⟩)⟩
  | _ =>
    refine (exec_of_ready (by decide) hr).imp_right fun ⟨he, hcase⟩ => ⟨he, ?_⟩
    exact hcase.imp_right .inl

/-- Settles O55: each write is refused by its guard; a step that serves no operation code is the host's request
(`serve_of_not_op`), and the row ME is `MSG` of the bytes of `packMessage_eq_append`. -/
theorem forbiddenHostWriteIsRefused : Obligations.ForbiddenHostWriteIsRefused := by
  refine ⟨fun p s b => ⟨rfl, rfl⟩, fun p s n => ⟨fun h => ?_, fun h => ?_, fun h => ?_, fun h => ?_⟩,
    fun p s bytes => ⟨fun h => ?_, fun h => ?_, fun h => ?_⟩, fun p s words h => ⟨?_, ?_⟩,
    fun s r rest hop hp => ?_, fun topic sender content s => ?_⟩
  · exact if_neg (Nat.not_le.2 h)
  · exact if_neg (Bool.eq_false_iff.1 h)
  · exact if_neg (Bool.eq_false_iff.1 h)
  · exact if_neg (Bool.eq_false_iff.1 h)
  · exact if_neg (Nat.not_le.2 h)
  · exact if_neg (Bool.eq_false_iff.1 h)
  · exact if_neg (Bool.eq_false_iff.1 h)
  · exact if_neg (Bool.eq_false_iff.1 h)
  · exact if_neg (Bool.eq_false_iff.1 h)
  · rw [step_of_pending hp, serve_of_not_op hop]
  · rw [← packMessage_eq_append]
    rfl

end Sys2Proof.Machine
end

section
/-! PROOFS. Requests after reset (70_reset_and_hazards.md): a presented word of the opcode table is the next instruction (R304), and
what the first operation meets when the host wrote nothing (R291). -/

namespace Sys2Proof.Machine

/-- A word of the table reads as an instruction exactly when the request that presents it decodes to that instruction. -/
theorem decodeTableWord_eq_some {nbits w : Nat} {i : Instr} :
    decodeTableWord nbits w = some i ↔ decode (tableRequest nbits w) = .ok i := by
  cases hd : decode (tableRequest nbits w) <;> simp [decodeTableWord, hd]

/-- An encoder with an unwritten configuration register is refused for one (R131). -/
theorem exec_encoder_unwritten {i : Instr} {header : Byte} {s : State} {f : Field} (hi : isEncoder i header)
    (hf : (s.x.get f).written = false) : ∃ g, exec i s = .refused (.unwrittenRegister (.x g)) := by
  cases hw : checkWritten s.x with
  | ok u => simp [checkWritten_eq_ok.1 hw f] at hf
  | error e =>
    obtain ⟨g, -, rfl⟩ := checkWritten_eq_error hw
    refine ⟨g, ?_⟩
    rw [exec_encoder hi]
    exact settle_refused_iff.2 (Check.bind_eq_error.2 (.inl hw))

/-- Settles O6: the step serves the presented request, which is the head of the list, and the rest of the list is the state's own. -/
theorem presentedWordRunsNext : Obligations.PresentedWordRunsNext := by
  intro s nbits w i h
  exact stepRunsDecodedInstr _ _ _ i (withFetchWord_pending s nbits w) (decodeTableWord_eq_some.1 h)

/-- Settles O9: at reset `FLEN` is 0, which is no frame's length (`decodeConfigFailures`), and no configuration register is written. -/
theorem firstOperationAfterReset : Obligations.FirstOperationAfterReset := by
  obtain ⟨hlength, -⟩ := decodeConfigFailures
  exact ⟨hlength State.reset rfl (by decide), exec_encoder_unwritten (f := .moduleAddress) (.inl ⟨rfl, rfl⟩) rfl⟩

end Sys2Proof.Machine
end
